-- ==== Sys2Proof/Word.lean ====
section
/-! DEFINITION. The widths of the machine: bytes, 32-bit register words, 16-byte blocks (spec 00 R6, R7, R10). -/

namespace Sys2Proof

/-- A byte (00 R10). -/
abbrev Byte := BitVec 8

/-- A register word; every register is 32 bits wide (00 R7, 10 R30). -/
abbrev Word := BitVec 32

/-- A 16-byte block, held as the 128-bit number `int_be` of its bytes (00 R11, R16): bit 127 is the most
significant bit of byte 0. The spec itself reads blocks this way for the CTR counter (10 R46) and for
GF(2^128) (42 R301). -/
abbrev Block := BitVec 128

/-- The addresses of system memory are 0 .. 2^32 − 1 (20 R100). -/
abbrev addressSpace : Nat := 2 ^ 32

/-- The longest byte string a length register can give: 2^32 − 1 (00 R7). -/
abbrev maxLen : Nat := 2 ^ 32 - 1

end Sys2Proof
end

