-- ==== Sys2Proof/Config.lean ====
section
/-! DEFINITION. What the spec leaves open (00 R8) and the free values (10 R59, 20 R111). Every constant is opaque and has
no body: nothing can be proved about its value, so a claim holds whatever it is. -/

namespace Sys2Proof

/-- BC_ENC and BC_DEC (00 R8, 40 R180): for every key a permutation of blocks; `BC_ENC k` is `blockCipher k`,
`BC_DEC k` its inverse. Nothing else is assumed of the cipher (log 5). -/
opaque Config.blockCipher : List Byte → Equiv.Perm Block

/-- ENGINE_BASE (00 R8, 10 R30): the bus address of register offset 0. -/
opaque Config.engineBase : Nat

/-- DMA_OK (00 R8, 20 R106): which byte ranges of system memory the engine's DMA may reach. -/
opaque Config.dmaOk : Nat → Nat → Bool

/-- DMA_COHERENT (00 R8, 20 R110): whether host stores and DMA see each other without cache maintenance. -/
opaque Config.dmaCoherent : Bool

/-- IRQ_LINE (00 R8, 60 R450): the interrupt-controller input the IRQ output is wired to. -/
opaque Config.irqLine : Nat

/-- The priority of IRQ_LINE at the controller (00 R8). -/
opaque Config.irqPriority : Nat

/-- The n-th drawn word: what a read of OUT_LEN, IV0..3 or DIGEST0..7 returns while BUSY = 1 (10 R59, 93 U1; log 8). -/
opaque Config.freeWord : Nat → Word

/-- The n-th drawn byte: what a read of the output range returns while BUSY = 1 (20 R111, 93 U2; log 8, 9). -/
opaque Config.freeByte : Nat → Byte

end Sys2Proof
end

