-- ==== Sys2Proof/Syntax.lean ====
section
/-! DEFINITION. The commands of the engine (30 R143), the fields of a command word (30 R141), the names of the registers
(10 R30), and what the host and the platform can do (00 R9, 30 R147). -/

namespace Sys2Proof

/-- One constructor per row of the opcode table (30 R143). `final` is the FINAL bit of the ten mode commands; the other
commands have none (30 R141). -/
inductive Instr where
  | ecbEnc (final : Bool)
  | ecbDec (final : Bool)
  | cbcEnc (final : Bool)
  | cbcDec (final : Bool)
  | cfbEnc (final : Bool)
  | cfbDec (final : Bool)
  | ofbEnc (final : Bool)
  | ofbDec (final : Bool)
  | ctrEnc (final : Bool)
  | ctrDec (final : Bool)
  | gcmEnc
  | gcmDec
  | shaInit
  | shaUpdate
  | shaFinal
  | hmacInit
  | hmacUpdate
  | hmacFinal
  | hmacVerify
  | clear
  deriving DecidableEq, Repr

/-- The fields of any 32-bit command word (30 R141): OP = bits 7:0, FINAL = bit 8, RSV = bits 31:9. -/
structure CommandWord where
  op : BitVec 8
  final : Bool
  rsv : BitVec 23
  deriving DecidableEq, Repr

/-- The registers of the window (10 R30); `reserved` stands for every reserved offset (10 R49). -/
inductive Reg where
  | id
  | ctrl
  | cmd
  | status
  | irqStatus
  | outLen
  | srcAddr
  | srcLen
  | dstAddr
  | aadAddr
  | aadLen
  | nonceAddr
  | nonceLen
  | key (k : Fin 8)
  | iv (k : Fin 4)
  | digest (k : Fin 8)
  | reserved
  deriving DecidableEq, Repr

/-- One action of the host. Register accesses carry their width in bytes and their offset in the window, so that the
accesses the interface excludes (20 R103) can be written down and refused. -/
inductive HostAction where
  /-- `W NAME, v` (30 R147) -/
  | regWrite (width off : Nat) (v : Word)
  /-- `R NAME -> name` (30 R147) -/
  | regRead (width off : Nat)
  /-- `MEM a: b0 b1 ..` (30 R147); a store by the host or by another bus master (10 R55) -/
  | memWrite (a : Nat) (bs : List Byte)
  /-- a load of n bytes from system memory (20 R110, R111) -/
  | memRead (a n : Nat)
  /-- the platform's cache maintenance: write back before a launch, invalidate after a completion (20 R110) -/
  | cacheMaintenance
  /-- sensing the IRQ output (60 R450) -/
  | senseIrq
  deriving DecidableEq, Repr

/-- Who moves next (93 U20): the engine takes its turn, the host acts, or the platform's reset takes effect (70 R491). -/
inductive Input where
  | engine
  | host (a : HostAction)
  | reset
  deriving DecidableEq, Repr

end Sys2Proof
end

