-- ==== Sys2Proof/Machine/State.lean ====
section
/-! DEFINITION. The state of the machine as plain data (10 R56), its value after reset (70 R490), and the reasons a step can
stop. INVENTORY.md lists every field with its rule. -/

namespace Sys2Proof.Machine

/-- The error codes of STATUS.ERR (60 R440). `invalidParameter` is reserved for the host's PBKDF2 program and is never set
by the engine; codes 11 .. 15 do not exist. -/
inductive ErrCode where
  | ok
  | invalidKeyLength
  | invalidNonceOrIvLength
  | missingIv
  | invalidPadding
  | invalidLength
  | authenticationError
  | invalidParameter
  | illegalCommand
  | sequenceError
  | busError
  deriving DecidableEq, Repr

/-- Which computation owns the hash state (10 R51). -/
inductive HMode where
  | none
  | sha
  | hmac
  deriving DecidableEq, Repr

/-- The hash state HS (10 R50): eight words, the unprocessed bytes (fewer than 64), and the bits absorbed. -/
structure HashState where
  h : Vector Word 8
  buf : List Byte
  bitlen : BitVec 64
  deriving DecidableEq, Repr

/-- The value HS has after reset and after a finalize (10 R50). -/
def HashState.zero : HashState := ⟨Vector.replicate 8 0, [], 0⟩

/-- The platform's parameters a run needs (00 R8): left open, so that `Config.dmaOk` and `Config.dmaCoherent` speak, or fixed
as plain data, DMA_OK being true of the ranges inside one of the windows (base, size) (log 6). -/
inductive Platform where
  | unspecified
  | fixed (windows : List (Nat × Nat)) (coherent : Bool)
  deriving DecidableEq, Repr

/-- The memory ranges (base, length) of one command: those it reads and the one it writes (20 R106, R111). -/
structure Footprint where
  inputs : List (Nat × Nat)
  output : Nat × Nat
  deriving DecidableEq, Repr

/-- What the host observed: the value of a register read, the bytes of a memory read, the level of the IRQ output. -/
inductive Observation where
  | word (r : Reg) (v : Word)
  | bytes (a : Nat) (bs : List Byte)
  | irq (level : Bool)
  deriving DecidableEq, Repr

/-- The state: the engine's registers and internal state (10 R56), the shared system memory (10 R55), the platform's
parameters, and the model's own fields (INVENTORY.md). -/
structure State where
  keysz : BitVec 2
  irqEn : Bool
  busy : Bool
  verifyOk : Bool
  err : ErrCode
  done : Bool
  ovr : Bool
  outLen : Word
  srcAddr : Word
  srcLen : Word
  dstAddr : Word
  aadAddr : Word
  aadLen : Word
  nonceAddr : Word
  nonceLen : Word
  key : Vector Word 8
  iv : Vector Word 4
  ivw : BitVec 4
  digest : Vector Word 8
  hmode : HMode
  hs : HashState
  opad : Vector Byte 64
  cmdLatch : Word
  mem : List Host.Cell
  platform : Platform
  inputs : List Input
  observed : List Observation
  draws : Nat
  unobserved : List Footprint
  unflushed : List (Nat × Nat)
  uninvalidated : List (Nat × Nat)
  deriving DecidableEq, Repr

/-- The machine after reset (70 R490). Memory lists nothing (log 4), the platform is left open (log 6), and the model's own
fields are empty (log 1, 7, 8, 10). -/
def State.reset : State where
  keysz := 0
  irqEn := false
  busy := false
  verifyOk := false
  err := .ok
  done := false
  ovr := false
  outLen := 0
  srcAddr := 0
  srcLen := 0
  dstAddr := 0
  aadAddr := 0
  aadLen := 0
  nonceAddr := 0
  nonceLen := 0
  key := Vector.replicate 8 0
  iv := Vector.replicate 4 0
  ivw := 0
  digest := Vector.replicate 8 0
  hmode := .none
  hs := .zero
  opad := Vector.replicate 64 0
  cmdLatch := 0
  mem := []
  platform := .unspecified
  inputs := []
  observed := []
  draws := 0
  unobserved := []
  unflushed := []
  uninvalidated := []

/-- The faults of a step. No command raises one: a command's errors are codes in STATUS.ERR (60 R442, R451). -/
inductive Fault where
  /-- Raised by `hostAct`: the host's memory access leaves the 32-bit address space, where no address exists (20 R100).
  Safe (log 12). -/
  | noSuchAddress (a : Nat)
  deriving DecidableEq, Repr

/-- The refusals of a step. No command raises one; all but the first are host moves the spec gives no meaning. -/
inductive Refusal where
  /-- An instruction without a meaning; no arm of `exec` raises it. Safe. -/
  | notModelled (mnemonic : String)
  /-- Raised by `hostAct`: a register access that is not 32 bits wide and aligned in the window (20 R103, 93 U4). Safe (log 11). -/
  | outsideInterface (width off : Nat)
  /-- Raised by `hostAct`: a store to a range of a command whose completion the host has not observed (20 R111, 93 U3). Safe
  (log 10). -/
  | rangeInUse (a : Nat)
  /-- Raised by `hostAct`: a launch before the write-back of bytes in its command's ranges, or a load of bytes before their
  invalidation, that a non-coherent platform needs (20 R110, 93 U17). Safe (log 7). -/
  | cacheNotMaintained
  deriving DecidableEq, Repr

end Sys2Proof.Machine
end

