-- ==== Sys2Proof/Machine/Ops.lean ====
section
/-! DEFINITION. The shared operations: byte strings and their big-endian numbers (00 R10 to R14), system memory and DMA ranges
(20 R100 to R108), launch, the effects of an error and of success, and the completion (40 R185 to R189). -/

namespace Sys2Proof.Machine

/-! ### Byte strings (00 R10 to R14) -/

/-- `zeros(n)` (00 R10). -/
def zeros (n : Nat) : List Byte := List.replicate n 0

/-- `int_be(B)` (00 R11): the number whose big-endian byte string is B. -/
def intBE (bs : List Byte) : Nat := bs.foldl (fun acc b => acc * 256 + b.toNat) 0

/-- The k-byte big-endian string of a number, most significant byte first (00 R11); a larger number is cut to k bytes. -/
def beBytes : Nat → Nat → List Byte
  | 0, _ => []
  | k + 1, v => BitVec.ofNat 8 (v / 256 ^ k) :: beBytes k v

/-- `BE32(v)` (00 R11). -/
def be32 (w : Word) : List Byte := beBytes 4 w.toNat

/-- `BE64(v)` (00 R11). -/
def be64 (v : Nat) : List Byte := beBytes 8 v

/-- `word_be` of four bytes (00 R11). -/
def wordBE (bs : List Byte) : Word := BitVec.ofNat 32 (intBE bs)

/-- The block of 16 bytes, `int_be` (00 R11). -/
def toBlock (bs : List Byte) : Block := BitVec.ofNat 128 (intBE bs)

/-- The 16 bytes of a block, `BE128` (00 R11). -/
def ofBlock (b : Block) : List Byte := beBytes 16 b.toNat

/-- The first k pieces of m bytes of a string, in order. -/
def pieces (m : Nat) : Nat → List Byte → List (List Byte)
  | 0, _ => []
  | k + 1, bs => bs.take m :: pieces m k (bs.drop m)

/-- `blocks(B)` (00 R14): `ceil(|B|/16)` pieces of 16 bytes, the last of 1 to 16. -/
def blocks (bs : List Byte) : List (List Byte) := pieces 16 ((bs.length + 15) / 16) bs

/-- `X xor S[0..|X|)` (00 R12, 40 R184): the bytes of the longer string that have no partner are not used. -/
def xorBytes (x s : List Byte) : List Byte := List.zipWith (· ^^^ ·) x s

/-- `tag_equal(T, T')` (42 R308): the OR over all i of `T[i] xor T'[i]` is 0. -/
def tagEqual (t u : List Byte) : Bool := (xorBytes t u).foldl (· ||| ·) 0 == 0

/-- The 32-byte string of eight words, most significant byte first in each (20 R102). -/
def wordsBytes (v : Vector Word 8) : List Byte := v.toList.flatMap be32

/-- `word_be(D[4k .. 4k+4))`: word k of a byte string (20 R102). -/
def wordAt (bs : List Byte) (k : Nat) : Word := wordBE ((bs.drop (4 * k)).take 4)

/-- The eight words of a 32-byte string (20 R102). -/
def bytesWords (bs : List Byte) : Vector Word 8 :=
  #v[wordAt bs 0, wordAt bs 1, wordAt bs 2, wordAt bs 3, wordAt bs 4, wordAt bs 5, wordAt bs 6, wordAt bs 7]

/-- A byte string as the 64 bytes of OPAD (10 R52); the strings put there have exactly 64 bytes. -/
def toPad64 (bs : List Byte) : Vector Byte 64 :=
  ⟨((bs ++ zeros 64).take 64).toArray, by simp [zeros]⟩

/-! ### System memory (20 R100, R101)

The bytes of memory as a list of (address, byte) pairs in one canonical form (`Memory.wf`). -/

abbrev Memory := List Host.Cell

/-- What an address that the list does not name reads as (DESIGN CHOICE 00, log 4). -/
def memDefault : Byte := 0

/-- The canonical form: addresses strictly rising, below 2^32, and no entry equal to what an unlisted address reads as. -/
abbrev Memory.wf (m : Memory) : Prop :=
  m.Pairwise (fun c d => c.1 < d.1) ∧ ∀ c ∈ m, c.2 ≠ memDefault ∧ c.1 < addressSpace

/-- The byte at an address. -/
def readByte : Memory → Nat → Byte
  | [], _ => memDefault
  | c :: cs, a => if c.1 = a then c.2 else readByte cs a

/-- Puts a byte before a list whose addresses are higher, unless it is the byte an unlisted address reads as. -/
def consByte (a : Nat) (b : Byte) (m : Memory) : Memory := if b = memDefault then m else (a, b) :: m

/-- Stores a byte at an address, keeping the canonical form. -/
def writeByte : Memory → Nat → Byte → Memory
  | [], a, b => consByte a b []
  | c :: cs, a, b =>
    if a < c.1 then consByte a b (c :: cs)
    else if a = c.1 then consByte a b cs
    else c :: writeByte cs a b

/-- `MemRead(a, n)` (00 R13, 20 R101): the bytes at a, a+1, .., a+n−1 in that order. -/
def memRead (m : Memory) : Nat → Nat → List Byte
  | _, 0 => []
  | a, n + 1 => readByte m a :: memRead m (a + 1) n

/-- `MemWrite(a, n, v)` (00 R13, 20 R101): byte v[i] to address a+i. -/
def memWrite : Memory → Nat → List Byte → Memory
  | m, _, [] => m
  | m, a, b :: bs => memWrite (writeByte m a b) (a + 1) bs

/-! ### DMA ranges (20 R106) -/

/-- DMA_OK of the platform (00 R8). -/
def Platform.dmaOk : Platform → Nat → Nat → Bool
  | .unspecified, a, n => Config.dmaOk a n
  | .fixed windows _, a, n => windows.any fun w => decide (w.1 ≤ a) && decide (a + n ≤ w.1 + w.2)

/-- DMA_COHERENT of the platform (00 R8). -/
def Platform.coherent : Platform → Bool
  | .unspecified => Config.dmaCoherent
  | .fixed _ c => c

/-- A range is valid: empty, or inside the address space and allowed by DMA_OK (20 R106). -/
def rangeOk (p : Platform) (a n : Nat) : Bool := n == 0 || (decide (a + n ≤ addressSpace) && p.dmaOk a n)

/-! ### Launch, error, success, completion (40 R185 to R189) -/

/-- Launch of a word (40 R185). -/
def launch (w : Word) (s : State) : State :=
  { s with cmdLatch := w, busy := true, err := .ok, verifyOk := false, done := false }

/-- The effects of an error (40 R188): the one way a command's exception is taken. Nothing else changes (60 R442); there is
no trap entry beside it (60 R451). -/
def raiseError (e : ErrCode) (s : State) : State :=
  { s with err := e, verifyOk := false, outLen := 0 }

/-- The host's acknowledgement, a write to IRQ_STATUS (10 R35): the engine's only counterpart of a return from an exception
(60 R452). A 1 clears its bit, a 0 leaves it. -/
def acknowledge (v : Word) (s : State) : State :=
  { s with done := s.done && !v.getLsbD 0, ovr := s.ovr && !v.getLsbD 1 }

/-- The end of every completion (40 R186): BUSY <- 0, DONE <- 1. -/
def finish (s : State) : State := { s with busy := false, done := true }

/-- The ranges whose cache maintenance is due after a store of n bytes at a: on a non-coherent platform one more (20 R110,
log 7). -/
def maintenanceDue (p : Platform) (a n : Nat) (due : List (Nat × Nat)) : List (Nat × Nat) :=
  if n = 0 ∨ p.coherent = true then due else (a, n) :: due

/-- The memory write and OUT_LEN of a command that succeeds (40 R189, 20 R107, R108): all bytes at once, at DST_ADDR. On a
non-coherent platform their invalidation falls to the host (20 R110, log 7). -/
def writeOut (out : List Byte) (s : State) : State :=
  { s with
    mem := memWrite s.mem s.dstAddr.toNat out
    outLen := BitVec.ofNat 32 out.length
    uninvalidated := maintenanceDue s.platform s.dstAddr.toNat out.length s.uninvalidated }

/-- What a command that has passed the checks 1 to 8 (60 R443) will do: the bytes for DST_ADDR, the verdict of the tag check
(step 10; true for a command without one), and the state after its register and internal-state effects. -/
structure Plan where
  out : List Byte
  authentic : Bool
  after : State

/-- One check of 60 R443: the first that fails gives its error, and nothing after it is tried. -/
def require (ok : Bool) (e : ErrCode) (k : Except ErrCode Plan) : Except ErrCode Plan :=
  if ok then k else .error e

/-- Carries a plan out (40 R187): the output range is checked at step 9, the tag at step 10 (60 R443). -/
def conclude (s : State) : Except ErrCode Plan → State
  | .error e => raiseError e s
  | .ok p =>
    if rangeOk s.platform s.dstAddr.toNat p.out.length then
      if p.authentic then writeOut p.out p.after else raiseError .authenticationError s
    else raiseError .busError s

/-- The completion of a command (40 R186, R187). -/
def complete (s : State) (p : Except ErrCode Plan) : Host.Outcome State Fault Refusal := .next (finish (conclude s p))

end Sys2Proof.Machine
end

