-- ==== Sys2Proof/Machine/Operands.lean ====
section
/-! DEFINITION. The operand forms of the commands (30 R142): the key (40 R181), the block cipher under it (00 R14, 40 R180), the
IV (10 R46), the memory ranges (20 R106), and the checks on them (60 R443). -/

namespace Sys2Proof.Machine

/-- The key length CTRL.KEYSZ selects; 3 is illegal (40 R181). -/
def keyLen (k : BitVec 2) : Option Nat :=
  match k.toNat with
  | 0 => some 16
  | 1 => some 24
  | 2 => some 32
  | _ => none

/-- KEYBYTES: the 32 bytes of KEY0 .. KEY7 (10 R45, 40 R181). -/
def keyBytes (s : State) : List Byte := wordsBytes s.key

/-- The cipher key K: the leading 16, 24 or 32 bytes of KEYBYTES (40 R181). The commands read it only after the check that
KEYSZ is legal. -/
def cipherKey (s : State) : List Byte := (keyBytes s).take ((keyLen s.keysz).getD 0)

/-- `E(b)`: BC_ENC under the key (00 R14, 40 R180). -/
def cipherE (s : State) (b : Block) : Block := Config.blockCipher (cipherKey s) b

/-- `D(b)`: BC_DEC under the key (00 R14, 40 R180). -/
def cipherD (s : State) (b : Block) : Block := (Config.blockCipher (cipherKey s)).symm b

/-- IVBYTES (10 R46): BE32 of IV0 .. IV3. -/
def ivBytes (s : State) : List Byte := s.iv.toList.flatMap be32

/-- IVBYTES as a block; as a number it is the CTR counter, IV0 most significant (10 R46, 20 R102). -/
def ivBlock (s : State) : Block := toBlock (ivBytes s)

/-- `IVBYTES <- V` (41 R232): the engine's own write leaves IVW unchanged (10 R47). -/
def setIv (v : Block) (s : State) : State :=
  { s with iv := #v[wordAt (ofBlock v) 0, wordAt (ofBlock v) 1, wordAt (ofBlock v) 2, wordAt (ofBlock v) 3] }

/-- `n = x[SRC_LEN]`. -/
def srcN (s : State) : Nat := s.srcLen.toNat

/-- The input string at SRC_ADDR (10 R38, R39). -/
def srcBytes (s : State) : List Byte := memRead s.mem s.srcAddr.toNat s.srcLen.toNat

/-- The GCM associated data (10 R41, R42). -/
def aadBytes (s : State) : List Byte := memRead s.mem s.aadAddr.toNat s.aadLen.toNat

/-- The GCM nonce (10 R43, R44). -/
def nonceBytes (s : State) : List Byte := memRead s.mem s.nonceAddr.toNat s.nonceLen.toNat

/-- The range (SRC_ADDR, SRC_LEN) is valid (20 R106). -/
def srcOk (s : State) : Bool := rangeOk s.platform s.srcAddr.toNat s.srcLen.toNat

/-- The range (AAD_ADDR, AAD_LEN) is valid (20 R106). -/
def aadOk (s : State) : Bool := rangeOk s.platform s.aadAddr.toNat s.aadLen.toNat

/-- The range (NONCE_ADDR, NONCE_LEN) is valid (20 R106). -/
def nonceOk (s : State) : Bool := rangeOk s.platform s.nonceAddr.toNat s.nonceLen.toNat

/-- The range (DST_ADDR, n) is valid (20 R106). -/
def dstOk (s : State) (n : Nat) : Bool := rangeOk s.platform s.dstAddr.toNat n

/-- Step 3 of 60 R443: KEYSZ is legal. -/
def keyOk (s : State) : Bool := (keyLen s.keysz).isSome

/-- STATUS.IV_VALID (10 R47): IVW = 0b1111. -/
def ivValid (s : State) : Bool := s.ivw == 0b1111

end Sys2Proof.Machine
end

