-- ==== Sys2Proof/Machine/Flags.lean ====
section
/-! DEFINITION. The flag and control registers as words (10 R32, R34, R35), the error codes (60 R440) and the interrupt output
(60 R450). -/

namespace Sys2Proof.Machine

/-- The numbering of the errors (60 R440). -/
def ErrCode.code : ErrCode → BitVec 4
  | .ok => 0
  | .invalidKeyLength => 1
  | .invalidNonceOrIvLength => 2
  | .missingIv => 3
  | .invalidPadding => 4
  | .invalidLength => 5
  | .authenticationError => 6
  | .invalidParameter => 7
  | .illegalCommand => 8
  | .sequenceError => 9
  | .busError => 10

/-- The numbering of HMODE (10 R51). -/
def HMode.code : HMode → BitVec 2
  | .none => 0
  | .sha => 1
  | .hmac => 2

/-- ID (10 R31): constant. -/
def idWord : Word := 0x43430001

/-- CTRL (10 R32): KEYSZ at 1:0, IRQ_EN at 8, all other bits 0. -/
def ctrlWord (s : State) : Word := 0#23 ++ BitVec.ofBool s.irqEn ++ 0#6 ++ s.keysz

/-- STATUS (10 R34): ERR at 11:8, IV_VALID at 4, HMODE at 3:2, VERIFY_OK at 1, BUSY at 0, all other bits 0. -/
def statusWord (s : State) : Word :=
  0#20 ++ s.err.code ++ 0#3 ++ BitVec.ofBool (ivValid s) ++ s.hmode.code ++ BitVec.ofBool s.verifyOk ++ BitVec.ofBool s.busy

/-- IRQ_STATUS (10 R35): OVR at 1, DONE at 0, all other bits 0. -/
def irqStatusWord (s : State) : Word := 0#30 ++ BitVec.ofBool s.ovr ++ BitVec.ofBool s.done

/-- A write to CTRL (10 R32): KEYSZ as written, 3 included, and IRQ_EN; the reserved bits are ignored. -/
def setCtrl (v : Word) (s : State) : State := { s with keysz := v.extractLsb' 0 2, irqEn := v.getLsbD 8 }

/-- The interrupt output (60 R450). -/
def irq (s : State) : Bool := s.irqEn && s.done

/-- What the platform's interrupt controller sees: the line and its priority, when the output is high (60 R450). -/
def interruptRequest (s : State) : Option (Nat × Nat) :=
  if irq s then some (Config.irqLine, Config.irqPriority) else none

end Sys2Proof.Machine
end

