-- ==== Sys2Proof/Machine/Sha256.lean ====
section
/-! DEFINITION. The SHA-256 unit (43 R340 to R362): functions, constants, schedule, compression, absorbing, padding, and the
commands SHA_INIT, SHA_UPDATE, SHA_FINAL. -/

namespace Sys2Proof.Machine

/-! ### Functions and constants (43 R340 to R342) -/

def shaCh (x y z : Word) : Word := (x &&& y) ^^^ (~~~x &&& z)

def shaMaj (x y z : Word) : Word := (x &&& y) ^^^ (x &&& z) ^^^ (y &&& z)

/-- Σ0 -/
def bigSigma0 (x : Word) : Word := x.rotateRight 2 ^^^ x.rotateRight 13 ^^^ x.rotateRight 22

/-- Σ1 -/
def bigSigma1 (x : Word) : Word := x.rotateRight 6 ^^^ x.rotateRight 11 ^^^ x.rotateRight 25

/-- σ0 -/
def smallSigma0 (x : Word) : Word := x.rotateRight 7 ^^^ x.rotateRight 18 ^^^ (x >>> 3)

/-- σ1 -/
def smallSigma1 (x : Word) : Word := x.rotateRight 17 ^^^ x.rotateRight 19 ^^^ (x >>> 10)

/-- The round constants K[0 .. 63] (43 R341). -/
def roundConstants : List Word :=
  [0x428a2f98, 0x71374491, 0xb5c0fbcf, 0xe9b5dba5, 0x3956c25b, 0x59f111f1, 0x923f82a4, 0xab1c5ed5] ++
  [0xd807aa98, 0x12835b01, 0x243185be, 0x550c7dc3, 0x72be5d74, 0x80deb1fe, 0x9bdc06a7, 0xc19bf174] ++
  [0xe49b69c1, 0xefbe4786, 0x0fc19dc6, 0x240ca1cc, 0x2de92c6f, 0x4a7484aa, 0x5cb0a9dc, 0x76f988da] ++
  [0x983e5152, 0xa831c66d, 0xb00327c8, 0xbf597fc7, 0xc6e00bf3, 0xd5a79147, 0x06ca6351, 0x14292967] ++
  [0x27b70a85, 0x2e1b2138, 0x4d2c6dfc, 0x53380d13, 0x650a7354, 0x766a0abb, 0x81c2c92e, 0x92722c85] ++
  [0xa2bfe8a1, 0xa81a664b, 0xc24b8b70, 0xc76c51a3, 0xd192e819, 0xd6990624, 0xf40e3585, 0x106aa070] ++
  [0x19a4c116, 0x1e376c08, 0x2748774c, 0x34b0bcb5, 0x391c0cb3, 0x4ed8aa4a, 0x5b9cca4f, 0x682e6ff3] ++
  [0x748f82ee, 0x78a5636f, 0x84c87814, 0x8cc70208, 0x90befffa, 0xa4506ceb, 0xbef9a3f7, 0xc67178f2]

/-- The initial hash value H0 (43 R342). -/
def initialHash : Vector Word 8 :=
  #v[0x6a09e667, 0xbb67ae85, 0x3c6ef372, 0xa54ff53a, 0x510e527f, 0x9b05688c, 0x1f83d9ab, 0x5be0cd19]

/-! ### Compression (43 R343, R344) -/

/-- W[t] of the words W[0 .. t) (43 R343). -/
def nextW (w : List Word) : Word :=
  smallSigma1 (w.getD (w.length - 2) 0) + w.getD (w.length - 7) 0 + smallSigma0 (w.getD (w.length - 15) 0) +
    w.getD (w.length - 16) 0

/-- Extends a schedule by k words (43 R343). -/
def extendW : Nat → List Word → List Word
  | 0, w => w
  | k + 1, w => extendW k (w ++ [nextW w])

/-- The message schedule W[0 .. 63] of a 64-byte block (43 R343). -/
def schedule (m : List Byte) : List Word :=
  extendW 48 ((List.range 16).map fun t => wordAt m t)

/-- The working variables of the rounds (43 R344). -/
structure Working where
  a : Word
  b : Word
  c : Word
  d : Word
  e : Word
  f : Word
  g : Word
  h : Word
  deriving DecidableEq, Repr

/-- The working variables at the start: (H[0], .., H[7]). -/
def Working.ofHash (h : Vector Word 8) : Working := ⟨h[0], h[1], h[2], h[3], h[4], h[5], h[6], h[7]⟩

/-- One round with its constant and its schedule word (43 R344). -/
def shaRound (v : Working) (kw : Word × Word) : Working :=
  let t1 := v.h + bigSigma1 v.e + shaCh v.e v.f v.g + kw.1 + kw.2
  let t2 := bigSigma0 v.a + shaMaj v.a v.b v.c
  ⟨t1 + t2, v.a, v.b, v.c, v.d + t1, v.e, v.f, v.g⟩

/-- The rounds of a block, 0 .. 63 in order (43 R344). -/
def shaRounds (h : Vector Word 8) (m : List Byte) : Working :=
  (roundConstants.zip (schedule m)).foldl shaRound (Working.ofHash h)

/-- `compress(H, M)` (43 R344). -/
def compress (h : Vector Word 8) (m : List Byte) : Vector Word 8 :=
  let v := shaRounds h m
  #v[h[0] + v.a, h[1] + v.b, h[2] + v.c, h[3] + v.d, h[4] + v.e, h[5] + v.f, h[6] + v.g, h[7] + v.h]

/-! ### Absorbing and digest (43 R345, R346) -/

/-- `absorb(HS, X)` (43 R345). -/
def absorb (hs : HashState) (x : List Byte) : HashState :=
  let s := hs.buf ++ x
  let q := s.length / 64
  { h := (pieces 64 q s).foldl compress hs.h
    buf := s.drop (64 * q)
    bitlen := hs.bitlen + BitVec.ofNat 64 (8 * x.length) }

/-- The padded final string T of `digest` (43 R346); 119 − |BUF| is 55 − |BUF| modulo 64, without going below 0. -/
def digestTail (hs : HashState) : List Byte :=
  hs.buf ++ [0x80] ++ zeros ((119 - hs.buf.length) % 64) ++ be64 hs.bitlen.toNat

/-- `digest(HS)` (43 R346). -/
def digest (hs : HashState) : List Byte :=
  let t := digestTail hs
  wordsBytes ((pieces 64 (t.length / 64) t).foldl compress hs.h)

/-- The fresh hash state (43 R346, R360): (H0, empty, 0). -/
def HashState.init : HashState := ⟨initialHash, [], 0⟩

/-- `SHA256(X)` (43 R346). -/
def sha256 (x : List Byte) : List Byte := digest (absorb HashState.init x)

/-! ### The commands -/

/-- Steps 2, 6 and 7 of an UPDATE command (60 R443): the context's owner, the bit count, the input range. -/
def updateChecks (owner : HMode) (s : State) (k : Except ErrCode Plan) : Except ErrCode Plan :=
  require (s.hmode == owner) .sequenceError <|
  require (decide (s.hs.bitlen.toNat + 8 * srcN s ≤ 2 ^ 64 - 1)) .invalidLength <|
  require (srcOk s) .busError k

/-- The context is gone: HS, OPAD and HMODE at their reset values (43 R362, 44 R408, R410). -/
def endHash (s : State) : State := { s with hs := .zero, hmode := .none, opad := Vector.replicate 64 0 }

/-- DIGESTk <- word k of a 32-byte result (10 R48). -/
def setDigest (d : List Byte) (s : State) : State := { s with digest := bytesWords d }

/-- SHA_INIT (43 R360). -/
def planShaInit (s : State) : Except ErrCode Plan :=
  .ok ⟨[], true, { s with hs := .init, hmode := .sha, opad := Vector.replicate 64 0 }⟩

/-- SHA_UPDATE (43 R361). -/
def planShaUpdate (s : State) : Except ErrCode Plan :=
  updateChecks .sha s <| .ok ⟨[], true, { s with hs := absorb s.hs (srcBytes s) }⟩

/-- SHA_FINAL (43 R362). OPAD is zero already while HMODE = SHA (10 R52), and stays so. -/
def planShaFinal (s : State) : Except ErrCode Plan :=
  require (s.hmode == .sha) .sequenceError <|
  .ok ⟨digest s.hs, true, { setDigest (digest s.hs) s with hs := .zero, hmode := .none }⟩

def execShaInit (s : State) : Host.Outcome State Fault Refusal := complete s (planShaInit s)

def execShaUpdate (s : State) : Host.Outcome State Fault Refusal := complete s (planShaUpdate s)

def execShaFinal (s : State) : Host.Outcome State Fault Refusal := complete s (planShaFinal s)

end Sys2Proof.Machine
end

