-- ==== Sys2Proof/Machine/Clear.lean ====
section
/-! DEFINITION. CLEAR (40 R195). -/

namespace Sys2Proof.Machine

/-- The effects of CLEAR on the secrets (40 R195); CTRL, the operand registers, OVR and memory are unchanged. -/
def clearSecrets (s : State) : State :=
  endHash
    { s with
      key := Vector.replicate 8 0
      iv := Vector.replicate 4 0
      ivw := 0
      digest := Vector.replicate 8 0 }

/-- CLEAR (40 R195): no check after step 1. -/
def planClear (s : State) : Except ErrCode Plan := .ok ⟨[], true, clearSecrets s⟩

def execClear (s : State) : Host.Outcome State Fault Refusal := complete s (planClear s)

end Sys2Proof.Machine
end

