-- ==== Sys2Proof/Machine/Gcm.lean ====
section
/-! DEFINITION. The GCM unit (42 R300 to R321): GF(2^128), GHASH, counters, tag, and the commands GCM_ENC and GCM_DEC. -/

namespace Sys2Proof.Machine

/-! ### GF(2^128) (42 R300, R301)

With a block read by `int_be`, the coefficient of x^i is bit 127 − i of the number, `getMsbD i`. -/

/-- The reduction constant R: 0xE1 followed by 120 zero bits (42 R300). -/
def gfR : Block := 0xE1#8 ++ 0#120

/-- Multiplication by x: shift right by one, and reduce if the coefficient of x^127 was set (42 R301). -/
def gfMulX (v : Block) : Block := if v.getLsbD 0 then (v >>> 1) ^^^ gfR else v >>> 1

/-- The loop of `gf_mult` (42 R301) over the last k of the 128 bits of X, with its running Z and V. -/
def gfLoop (x : Block) : Nat → Block → Block → Block
  | 0, z, _ => z
  | k + 1, z, v => gfLoop x k (if x.getMsbD (127 - k) then z ^^^ v else z) (gfMulX v)

/-- `gf_mult(X, Y)` (42 R301). -/
def gfMult (x y : Block) : Block := gfLoop x 128 0 y

/-! ### GHASH, counters and tag (42 R302 to R308) -/

/-- `zpad(B)` (42 R302). -/
def zpad (bs : List Byte) : List Byte := bs ++ zeros ((16 - bs.length % 16) % 16)

/-- The fold of GHASH: `Y = gf_mult(Y xor B, H)` for each block (42 R303). -/
def ghashFold (h : Block) (y : Block) (ps : List (List Byte)) : Block :=
  ps.foldl (fun y p => gfMult (y ^^^ toBlock p) h) y

/-- `GHASH(H, A, C)` (42 R303). -/
def ghash (h : Block) (a c : List Byte) : Block :=
  ghashFold h 0 (blocks (zpad a ++ zpad c ++ be64 (8 * a.length) ++ be64 (8 * c.length)))

/-- `inc32(CB)` (42 R304): the last 4 bytes plus 1 modulo 2^32, the first 12 bytes kept. -/
def inc32 (cb : Block) : Block := cb.extractLsb' 32 96 ++ (cb.extractLsb' 0 32 + 1)

/-- The pre-counter block J0 (42 R305). -/
def j0 (h : Block) (nonce : List Byte) : Block :=
  if nonce.length = 12 then toBlock (nonce ++ [0x00, 0x00, 0x00, 0x01]) else ghash h [] nonce

/-- The loop of GCTR over the pieces of its input (42 R306). -/
def gctrLoop (e : Block → Block) : Block → List (List Byte) → List Byte
  | _, [] => []
  | cb, p :: ps => xorBytes p (ofBlock (e cb)) ++ gctrLoop e (inc32 cb) ps

/-- `GCTR(CB_1, X)` (42 R306). -/
def gctr (e : Block → Block) (cb : Block) (x : List Byte) : List Byte := gctrLoop e cb (blocks x)

/-- The hash subkey H (42 R320). -/
def hashSubkey (e : Block → Block) : Block := e 0

/-- The tag T (42 R307), its mask being E(J0) (90 C1). -/
def gcmTag (e : Block → Block) (nonce aad c : List Byte) : List Byte :=
  ofBlock (e (j0 (hashSubkey e) nonce) ^^^ ghash (hashSubkey e) aad c)

/-- The data keystream applied to a string: `GCTR(inc32(J0), X)` (42 R306). -/
def gcmCrypt (e : Block → Block) (nonce x : List Byte) : List Byte := gctr e (inc32 (j0 (hashSubkey e) nonce)) x

/-- `C ++ T` (42 R320). -/
def gcmSeal (e : Block → Block) (nonce aad p : List Byte) : List Byte :=
  gcmCrypt e nonce p ++ gcmTag e nonce aad (gcmCrypt e nonce p)

/-! ### The commands -/

/-- The checks 3, 5, 6 and 7 of a GCM command, in order (42 R310, 60 R443). -/
def gcmChecks (lenOk : Bool) (s : State) (k : Except ErrCode Plan) : Except ErrCode Plan :=
  require (keyOk s) .invalidKeyLength <|
  require (s.nonceLen != 0) .invalidNonceOrIvLength <|
  require lenOk .invalidLength <|
  require (srcOk s && aadOk s && nonceOk s) .busError k

/-- GCM_ENC (42 R320). -/
def planGcmEnc (s : State) : Except ErrCode Plan :=
  gcmChecks (decide (srcN s + 16 ≤ maxLen)) s <|
  .ok ⟨gcmSeal (cipherE s) (nonceBytes s) (aadBytes s) (srcBytes s), true, s⟩

/-- The ciphertext part of GCM_DEC's input, X[0..n−16) (42 R321). -/
def gcmDecText (s : State) : List Byte := (srcBytes s).take (srcN s - 16)

/-- The tag part of GCM_DEC's input, X[n−16..n) (42 R321). -/
def gcmDecTag (s : State) : List Byte := (srcBytes s).drop (srcN s - 16)

/-- GCM_DEC (42 R321): the tag is recomputed from the received ciphertext and AAD. -/
def planGcmDec (s : State) : Except ErrCode Plan :=
  gcmChecks (decide (16 ≤ srcN s)) s <|
  .ok ⟨gcmCrypt (cipherE s) (nonceBytes s) (gcmDecText s),
    tagEqual (gcmDecTag s) (gcmTag (cipherE s) (nonceBytes s) (aadBytes s) (gcmDecText s)), s⟩

def execGcmEnc (s : State) : Host.Outcome State Fault Refusal := complete s (planGcmEnc s)

def execGcmDec (s : State) : Host.Outcome State Fault Refusal := complete s (planGcmDec s)

end Sys2Proof.Machine
end

