-- ==== Sys2Proof/Machine/Hmac.lean ====
section
/-! DEFINITION. The HMAC unit over SHA-256 (44 R400 to R410): key preprocessing, inner and outer hash, and the commands
HMAC_INIT, HMAC_UPDATE, HMAC_FINAL, HMAC_VERIFY. -/

namespace Sys2Proof.Machine

/-- `K0(KEY)` (44 R400): a key longer than 64 bytes is hashed, and the result is padded with zero bytes to 64. -/
def hmacK0 (key : List Byte) : List Byte :=
  let k := if 64 < key.length then sha256 key else key
  k ++ zeros (64 - k.length)

/-- IPAD (44 R400). -/
def hmacIpad (key : List Byte) : List Byte := xorBytes (hmacK0 key) (List.replicate 64 0x36)

/-- OPADK (44 R400). -/
def hmacOpad (key : List Byte) : List Byte := xorBytes (hmacK0 key) (List.replicate 64 0x5c)

/-- `HMAC(KEY, X)` (44 R401). -/
def hmac (key x : List Byte) : List Byte := sha256 (hmacOpad key ++ sha256 (hmacIpad key ++ x))

/-- The tag of the context: `SHA256(OPAD ++ digest(HS))` (44 R408, R410). -/
def hmacResult (s : State) : List Byte := sha256 (s.opad.toList ++ digest s.hs)

/-- HMAC_INIT (44 R405). -/
def planHmacInit (s : State) : Except ErrCode Plan :=
  require (srcOk s) .busError <|
  .ok ⟨[], true,
    { s with
      hs := absorb .init (hmacIpad (srcBytes s))
      opad := toPad64 (hmacOpad (srcBytes s))
      hmode := .hmac }⟩

/-- HMAC_UPDATE (44 R406). -/
def planHmacUpdate (s : State) : Except ErrCode Plan :=
  updateChecks .hmac s <| .ok ⟨[], true, { s with hs := absorb s.hs (srcBytes s) }⟩

/-- HMAC_FINAL (44 R408). -/
def planHmacFinal (s : State) : Except ErrCode Plan :=
  require (s.hmode == .hmac) .sequenceError <|
  .ok ⟨hmacResult s, true, endHash (setDigest (hmacResult s) s)⟩

/-- HMAC_VERIFY (44 R410): a mismatch is a result, not an error (90 C2). -/
def planHmacVerify (s : State) : Except ErrCode Plan :=
  require (s.hmode == .hmac) .sequenceError <|
  require (srcN s == 32) .invalidLength <|
  require (srcOk s) .busError <|
  .ok ⟨[], true, endHash { s with verifyOk := tagEqual (hmacResult s) (srcBytes s) }⟩

def execHmacInit (s : State) : Host.Outcome State Fault Refusal := complete s (planHmacInit s)

def execHmacUpdate (s : State) : Host.Outcome State Fault Refusal := complete s (planHmacUpdate s)

def execHmacFinal (s : State) : Host.Outcome State Fault Refusal := complete s (planHmacFinal s)

def execHmacVerify (s : State) : Host.Outcome State Fault Refusal := complete s (planHmacVerify s)

end Sys2Proof.Machine
end

