-- ==== Sys2Proof/Machine/Modes.lean ====
section
/-! DEFINITION. The ten block-cipher mode commands (41 R230 to R273): padding, the transforms over any block function, the
checks, and one meaning for each command. -/

namespace Sys2Proof.Machine

/-! ### PKCS#7 padding (40 R182, R183) -/

/-- The pad length of a string of n bytes: 16 − (n mod 16), between 1 and 16 (40 R182). -/
def padLen (n : Nat) : Nat := 16 - n % 16

/-- `pad(P)` (40 R182). -/
def pad (bs : List Byte) : List Byte := bs ++ List.replicate (padLen bs.length) (BitVec.ofNat 8 (padLen bs.length))

/-- `unpad(M)` (40 R183): `none` is InvalidPadding. -/
def unpad (m : List Byte) : Option (List Byte) :=
  let p := (m.getD (m.length - 1) 0).toNat
  if p < 1 ∨ 16 < p then none
  else if (m.drop (m.length - p)).all (fun b => b.toNat == p) then some (m.take (m.length - p))
  else none

/-- FINAL = 1 applies the padding (41 R230). -/
def padIf (final : Bool) (bs : List Byte) : List Byte := if final then pad bs else bs

/-- FINAL = 1 checks and strips the padding (41 R230). -/
def unpadIf (final : Bool) (bs : List Byte) : Option (List Byte) := if final then unpad bs else some bs

/-! ### The transforms

Each takes the block function E or D and the pieces of its input (00 R14), and gives the output bytes with the chaining value
after the last piece (41 R232). -/

/-- ECB (41 R240, R241): every block on its own. -/
def ecb (f : Block → Block) (ps : List (List Byte)) : List Byte := ps.flatMap fun p => ofBlock (f (toBlock p))

/-- CBC encryption (41 R245): `C_i = E(M_i xor prev)`, `prev = C_i`. -/
def cbcEncrypt (e : Block → Block) : Block → List (List Byte) → List Byte × Block
  | prev, [] => ([], prev)
  | prev, p :: ps =>
    let c := e (toBlock p ^^^ prev)
    let r := cbcEncrypt e c ps
    (ofBlock c ++ r.1, r.2)

/-- CBC decryption (41 R246): `M_i = D(C_i) xor prev`, `prev = C_i`. -/
def cbcDecrypt (d : Block → Block) : Block → List (List Byte) → List Byte × Block
  | prev, [] => ([], prev)
  | prev, p :: ps =>
    let r := cbcDecrypt d (toBlock p) ps
    (ofBlock (d (toBlock p) ^^^ prev) ++ r.1, r.2)

/-- CFB encryption (41 R250): the feedback is the ciphertext piece, if it is whole. -/
def cfbEncrypt (e : Block → Block) : Block → List (List Byte) → List Byte × Block
  | fb, [] => ([], fb)
  | fb, p :: ps =>
    let c := xorBytes p (ofBlock (e fb))
    let r := cfbEncrypt e (if p.length = 16 then toBlock c else fb) ps
    (c ++ r.1, r.2)

/-- CFB decryption (41 R251): E, not D, and the feedback is the input piece, if it is whole. -/
def cfbDecrypt (e : Block → Block) : Block → List (List Byte) → List Byte × Block
  | fb, [] => ([], fb)
  | fb, p :: ps =>
    let r := cfbDecrypt e (if p.length = 16 then toBlock p else fb) ps
    (xorBytes p (ofBlock (e fb)) ++ r.1, r.2)

/-- OFB, both directions (41 R255, R256): `fb = E(fb)` is the keystream. -/
def ofb (e : Block → Block) : Block → List (List Byte) → List Byte × Block
  | fb, [] => ([], fb)
  | fb, p :: ps =>
    let r := ofb e (e fb) ps
    (xorBytes p (ofBlock (e fb)) ++ r.1, r.2)

/-- CTR, both directions (41 R260, R261): the counter is the whole 128-bit number and wraps at 2^128. -/
def ctr (e : Block → Block) : Block → List (List Byte) → List Byte × Block
  | c, [] => ([], c)
  | c, p :: ps =>
    let r := ctr e (c + 1) ps
    (xorBytes p (ofBlock (e c)) ++ r.1, r.2)

/-! ### Length checks (41 R231) -/

/-- ECB_ENC and CBC_ENC. -/
def encLenOk (final : Bool) (n : Nat) : Bool := if final then decide (n + padLen n ≤ maxLen) else n % 16 == 0

/-- ECB_DEC and CBC_DEC. -/
def decLenOk (final : Bool) (n : Nat) : Bool := n % 16 == 0 && (!final || decide (16 ≤ n))

/-- CFB, OFB and CTR. -/
def streamLenOk (final : Bool) (n : Nat) : Bool := final || n % 16 == 0

/-! ### The commands -/

/-- The checks 3, 4, 6 and 7 of a mode command, in order (41 R233, 60 R443). -/
def modeChecks (usesIv lenOk : Bool) (s : State) (k : Except ErrCode Plan) : Except ErrCode Plan :=
  require (keyOk s) .invalidKeyLength <|
  require (!usesIv || ivValid s) .missingIv <|
  require lenOk .invalidLength <|
  require (srcOk s) .busError k

/-- Check 8 (60 R443): the unpadded output, or InvalidPadding. -/
def unpadded (after : State) : Option (List Byte) → Except ErrCode Plan
  | none => .error .invalidPadding
  | some out => .ok ⟨out, true, after⟩

/-- A transform that writes its output and the next chaining value (41 R232). -/
def chained (s : State) (r : List Byte × Block) : Except ErrCode Plan := .ok ⟨r.1, true, setIv r.2 s⟩

/-- ECB_ENC (41 R240). -/
def planEcbEnc (final : Bool) (s : State) : Except ErrCode Plan :=
  modeChecks false (encLenOk final (srcN s)) s <|
  .ok ⟨ecb (cipherE s) (blocks (padIf final (srcBytes s))), true, s⟩

/-- ECB_DEC (41 R241). -/
def planEcbDec (final : Bool) (s : State) : Except ErrCode Plan :=
  modeChecks false (decLenOk final (srcN s)) s <|
  unpadded s (unpadIf final (ecb (cipherD s) (blocks (srcBytes s))))

/-- CBC_ENC (41 R245). -/
def planCbcEnc (final : Bool) (s : State) : Except ErrCode Plan :=
  modeChecks true (encLenOk final (srcN s)) s <|
  chained s (cbcEncrypt (cipherE s) (ivBlock s) (blocks (padIf final (srcBytes s))))

/-- CBC_DEC (41 R246). -/
def planCbcDec (final : Bool) (s : State) : Except ErrCode Plan :=
  modeChecks true (decLenOk final (srcN s)) s <|
  let r := cbcDecrypt (cipherD s) (ivBlock s) (blocks (srcBytes s))
  unpadded (setIv r.2 s) (unpadIf final r.1)

/-- CFB_ENC (41 R250). -/
def planCfbEnc (final : Bool) (s : State) : Except ErrCode Plan :=
  modeChecks true (streamLenOk final (srcN s)) s <|
  chained s (cfbEncrypt (cipherE s) (ivBlock s) (blocks (srcBytes s)))

/-- CFB_DEC (41 R251). -/
def planCfbDec (final : Bool) (s : State) : Except ErrCode Plan :=
  modeChecks true (streamLenOk final (srcN s)) s <|
  chained s (cfbDecrypt (cipherE s) (ivBlock s) (blocks (srcBytes s)))

/-- OFB_ENC (41 R255). -/
def planOfbEnc (final : Bool) (s : State) : Except ErrCode Plan :=
  modeChecks true (streamLenOk final (srcN s)) s <|
  chained s (ofb (cipherE s) (ivBlock s) (blocks (srcBytes s)))

/-- OFB_DEC (41 R256): the same transform as OFB_ENC. -/
def planOfbDec (final : Bool) (s : State) : Except ErrCode Plan :=
  modeChecks true (streamLenOk final (srcN s)) s <|
  chained s (ofb (cipherE s) (ivBlock s) (blocks (srcBytes s)))

/-- CTR_ENC (41 R260). -/
def planCtrEnc (final : Bool) (s : State) : Except ErrCode Plan :=
  modeChecks true (streamLenOk final (srcN s)) s <|
  chained s (ctr (cipherE s) (ivBlock s) (blocks (srcBytes s)))

/-- CTR_DEC (41 R261): the same transform as CTR_ENC. -/
def planCtrDec (final : Bool) (s : State) : Except ErrCode Plan :=
  modeChecks true (streamLenOk final (srcN s)) s <|
  chained s (ctr (cipherE s) (ivBlock s) (blocks (srcBytes s)))

def execEcbEnc (final : Bool) (s : State) : Host.Outcome State Fault Refusal := complete s (planEcbEnc final s)

def execEcbDec (final : Bool) (s : State) : Host.Outcome State Fault Refusal := complete s (planEcbDec final s)

def execCbcEnc (final : Bool) (s : State) : Host.Outcome State Fault Refusal := complete s (planCbcEnc final s)

def execCbcDec (final : Bool) (s : State) : Host.Outcome State Fault Refusal := complete s (planCbcDec final s)

def execCfbEnc (final : Bool) (s : State) : Host.Outcome State Fault Refusal := complete s (planCfbEnc final s)

def execCfbDec (final : Bool) (s : State) : Host.Outcome State Fault Refusal := complete s (planCfbDec final s)

def execOfbEnc (final : Bool) (s : State) : Host.Outcome State Fault Refusal := complete s (planOfbEnc final s)

def execOfbDec (final : Bool) (s : State) : Host.Outcome State Fault Refusal := complete s (planOfbDec final s)

def execCtrEnc (final : Bool) (s : State) : Host.Outcome State Fault Refusal := complete s (planCtrEnc final s)

def execCtrDec (final : Bool) (s : State) : Host.Outcome State Fault Refusal := complete s (planCtrDec final s)

end Sys2Proof.Machine
end

