-- ==== Sys2Proof/Machine/Dispatch.lean ====
section
/-! DEFINITION. The meaning of every command, one arm each (40 R187). -/

namespace Sys2Proof.Machine

def exec (i : Instr) (s : State) : Host.Outcome State Fault Refusal :=
  match i with
  | .ecbEnc f => Sys2Proof.Machine.execEcbEnc f s
  | .ecbDec f => Sys2Proof.Machine.execEcbDec f s
  | .cbcEnc f => Sys2Proof.Machine.execCbcEnc f s
  | .cbcDec f => Sys2Proof.Machine.execCbcDec f s
  | .cfbEnc f => Sys2Proof.Machine.execCfbEnc f s
  | .cfbDec f => Sys2Proof.Machine.execCfbDec f s
  | .ofbEnc f => Sys2Proof.Machine.execOfbEnc f s
  | .ofbDec f => Sys2Proof.Machine.execOfbDec f s
  | .ctrEnc f => Sys2Proof.Machine.execCtrEnc f s
  | .ctrDec f => Sys2Proof.Machine.execCtrDec f s
  | .gcmEnc => Sys2Proof.Machine.execGcmEnc s
  | .gcmDec => Sys2Proof.Machine.execGcmDec s
  | .shaInit => Sys2Proof.Machine.execShaInit s
  | .shaUpdate => Sys2Proof.Machine.execShaUpdate s
  | .shaFinal => Sys2Proof.Machine.execShaFinal s
  | .hmacInit => Sys2Proof.Machine.execHmacInit s
  | .hmacUpdate => Sys2Proof.Machine.execHmacUpdate s
  | .hmacFinal => Sys2Proof.Machine.execHmacFinal s
  | .hmacVerify => Sys2Proof.Machine.execHmacVerify s
  | .clear => Sys2Proof.Machine.execClear s

end Sys2Proof.Machine
end

