-- ==== Sys2Proof/WellFormed.lean ====
section
/-! DEFINITION. Which command words are commands (30 R141, R145) and which host accesses the interface has (20 R100, R103).
Every `Instr` is well formed by its type; the checks below are on the raw forms (`Instr.wellFormed` of Decode.lean
asks them of a command's own word). -/

namespace Sys2Proof

/-- The operation codes of the ten mode commands (30 R141): the only ones that take FINAL = 1. -/
def modeOps : List (BitVec 8) := [0x01, 0x02, 0x03, 0x04, 0x05, 0x06, 0x07, 0x08, 0x09, 0x0A]

/-- The operation codes of the other ten commands (30 R143). -/
def plainOps : List (BitVec 8) := [0x10, 0x11, 0x20, 0x21, 0x22, 0x28, 0x29, 0x2A, 0x2B, 0x30]

/-- RSV must be 0 (30 R141). -/
def CommandWord.rsvZero (c : CommandWord) : Bool := c.rsv == 0

/-- OP must be assigned (30 R143). -/
def CommandWord.opAssigned (c : CommandWord) : Bool := modeOps.contains c.op || plainOps.contains c.op

/-- FINAL = 1 only with a mode command (30 R141). -/
def CommandWord.finalAllowed (c : CommandWord) : Bool := !c.final || modeOps.contains c.op

/-- The word is a command and not Illegal (30 R144, R145). -/
def CommandWord.wellFormed (c : CommandWord) : Bool := c.rsvZero && c.opAssigned && c.finalAllowed

/-- A host action within the interface: register accesses as 20 R103, memory accesses inside the address space (20 R100). -/
def HostAction.wellFormed : HostAction → Bool
  | .regWrite width off _ => width == 4 && off % 4 == 0 && decide (off < 0x100)
  | .regRead width off => width == 4 && off % 4 == 0 && decide (off < 0x100)
  | .memWrite a bs => decide (a + bs.length ≤ addressSpace)
  | .memRead a n => decide (a + n ≤ addressSpace)
  | .cacheMaintenance => true
  | .senseIrq => true

end Sys2Proof
end

