-- ==== Sys2Proof/Decode.lean ====
section
/-! DEFINITION. Decoding of command words, total and rejecting by name (30 R144, R145), the encoder (30 R143), and the
register map (10 R30). -/

namespace Sys2Proof

/-- Why a word is Illegal (30 R144), in the order of the checks. -/
inductive Illegal where
  | reservedBits
  | unassignedOp
  | finalNotAllowed
  deriving DecidableEq, Repr

/-- The fields of a word (30 R141). -/
def splitWord (w : Word) : CommandWord := ⟨w.extractLsb' 0 8, w.getLsbD 8, w.extractLsb' 9 23⟩

/-- The word of given fields (30 R141). -/
def joinWord (c : CommandWord) : Word := c.rsv ++ BitVec.ofBool c.final ++ c.op

/-- The opcode map (30 R143): the command of an operation code with the FINAL bit of the word. For a command without FINAL
the bit is not looked at here; `decode` rejects it. -/
def opcodeMap (op : BitVec 8) (final : Bool) : Option Instr :=
  match op.toNat with
  | 0x01 => some (.ecbEnc final)
  | 0x02 => some (.ecbDec final)
  | 0x03 => some (.cbcEnc final)
  | 0x04 => some (.cbcDec final)
  | 0x05 => some (.cfbEnc final)
  | 0x06 => some (.cfbDec final)
  | 0x07 => some (.ofbEnc final)
  | 0x08 => some (.ofbDec final)
  | 0x09 => some (.ctrEnc final)
  | 0x0A => some (.ctrDec final)
  | 0x10 => some .gcmEnc
  | 0x11 => some .gcmDec
  | 0x20 => some .shaInit
  | 0x21 => some .shaUpdate
  | 0x22 => some .shaFinal
  | 0x28 => some .hmacInit
  | 0x29 => some .hmacUpdate
  | 0x2A => some .hmacFinal
  | 0x2B => some .hmacVerify
  | 0x30 => some .clear
  | _ => none

/-- The operation codes 0x01 .. 0x0A, which take FINAL (30 R144). -/
def takesFinal (op : BitVec 8) : Bool := decide (0x01 ≤ op.toNat) && decide (op.toNat ≤ 0x0A)

/-- The decoder, total on every 32-bit word (30 R144). -/
def decode (w : Word) : Except Illegal Instr :=
  let c := splitWord w
  if c.rsv ≠ 0 then .error .reservedBits
  else
    match opcodeMap c.op c.final with
    | none => .error .unassignedOp
    | some i => if c.final && !takesFinal c.op then .error .finalNotAllowed else .ok i

/-- The fields the encoding tables of 30 R143 give a command. -/
def Instr.fields : Instr → CommandWord
  | .ecbEnc f => ⟨0x01, f, 0⟩
  | .ecbDec f => ⟨0x02, f, 0⟩
  | .cbcEnc f => ⟨0x03, f, 0⟩
  | .cbcDec f => ⟨0x04, f, 0⟩
  | .cfbEnc f => ⟨0x05, f, 0⟩
  | .cfbDec f => ⟨0x06, f, 0⟩
  | .ofbEnc f => ⟨0x07, f, 0⟩
  | .ofbDec f => ⟨0x08, f, 0⟩
  | .ctrEnc f => ⟨0x09, f, 0⟩
  | .ctrDec f => ⟨0x0A, f, 0⟩
  | .gcmEnc => ⟨0x10, false, 0⟩
  | .gcmDec => ⟨0x11, false, 0⟩
  | .shaInit => ⟨0x20, false, 0⟩
  | .shaUpdate => ⟨0x21, false, 0⟩
  | .shaFinal => ⟨0x22, false, 0⟩
  | .hmacInit => ⟨0x28, false, 0⟩
  | .hmacUpdate => ⟨0x29, false, 0⟩
  | .hmacFinal => ⟨0x2A, false, 0⟩
  | .hmacVerify => ⟨0x2B, false, 0⟩
  | .clear => ⟨0x30, false, 0⟩

/-- A command is well formed when its word is (WellFormed.lean). -/
def Instr.wellFormed (i : Instr) : Bool := i.fields.wellFormed

/-- The encoder: the 32-bit pattern of a command (30 R143). -/
def encode (i : Instr) : Word := joinWord i.fields

/-- The command the decoder reads from a row's word, numbered as the opcode table numbers its bits: one 32-bit word
(30 R140), the bits above `nbits` zero. -/
def decodeTableWord (nbits w : Nat) : Option Instr :=
  match decode (BitVec.ofNat 32 (w % 2 ^ nbits)) with
  | .ok i => some i
  | .error _ => none

/-- The register of a window offset (10 R30): every aligned offset that the map does not name is reserved. -/
def regAt (off : Nat) : Reg :=
  match off with
  | 0x000 => .id
  | 0x004 => .ctrl
  | 0x008 => .cmd
  | 0x00C => .status
  | 0x010 => .irqStatus
  | 0x014 => .outLen
  | 0x020 => .srcAddr
  | 0x024 => .srcLen
  | 0x028 => .dstAddr
  | 0x02C => .aadAddr
  | 0x030 => .aadLen
  | 0x034 => .nonceAddr
  | 0x038 => .nonceLen
  | 0x040 => .key 0
  | 0x044 => .key 1
  | 0x048 => .key 2
  | 0x04C => .key 3
  | 0x050 => .key 4
  | 0x054 => .key 5
  | 0x058 => .key 6
  | 0x05C => .key 7
  | 0x060 => .iv 0
  | 0x064 => .iv 1
  | 0x068 => .iv 2
  | 0x06C => .iv 3
  | 0x080 => .digest 0
  | 0x084 => .digest 1
  | 0x088 => .digest 2
  | 0x08C => .digest 3
  | 0x090 => .digest 4
  | 0x094 => .digest 5
  | 0x098 => .digest 6
  | 0x09C => .digest 7
  | _ => .reserved

/-- The offset of a named register (10 R30); the reserved offsets have no one offset, and 0x018 stands for them. -/
def Reg.offset : Reg → Nat
  | .id => 0x000
  | .ctrl => 0x004
  | .cmd => 0x008
  | .status => 0x00C
  | .irqStatus => 0x010
  | .outLen => 0x014
  | .srcAddr => 0x020
  | .srcLen => 0x024
  | .dstAddr => 0x028
  | .aadAddr => 0x02C
  | .aadLen => 0x030
  | .nonceAddr => 0x034
  | .nonceLen => 0x038
  | .key k => 0x040 + 4 * k.val
  | .iv k => 0x060 + 4 * k.val
  | .digest k => 0x080 + 4 * k.val
  | .reserved => 0x018

end Sys2Proof
end

