-- ==== Sys2Proof/Machine/HostAccess.lean ====
section
/-! DEFINITION. What the host and the platform do to the machine: register reads and writes (10 R57 to R59), memory accesses
under the rules of a pending command (20 R110, R111), sensing IRQ (60 R450), and reset (70 R490, R491). -/

namespace Sys2Proof.Machine

/-! ### The ranges of a command (20 R106, R111) -/

/-- The input ranges a command's rule names (60 R443 step 7). -/
def inRanges (i : Instr) (s : State) : List (Nat × Nat) :=
  match i with
  | .ecbEnc _ | .ecbDec _ | .cbcEnc _ | .cbcDec _ | .cfbEnc _ | .cfbDec _ | .ofbEnc _ | .ofbDec _ | .ctrEnc _ | .ctrDec _
  | .shaUpdate | .hmacInit | .hmacUpdate | .hmacVerify => [(s.srcAddr.toNat, s.srcLen.toNat)]
  | .gcmEnc | .gcmDec =>
    [(s.srcAddr.toNat, s.srcLen.toNat), (s.aadAddr.toNat, s.aadLen.toNat), (s.nonceAddr.toNat, s.nonceLen.toNat)]
  | .shaInit | .shaFinal | .hmacFinal | .clear => []

/-- The bytes a plan writes; none if a check before step 9 fails. -/
def plannedLen : Except ErrCode Plan → Nat
  | .error _ => 0
  | .ok p => p.out.length

/-- The length of a command's output range (41 R273, 60 R443 step 9). With FINAL = 1 the length of ECB_DEC and CBC_DEC is
n − p, which exists only when the padding is good (log 9). -/
def outLength (i : Instr) (s : State) : Nat :=
  match i with
  | .ecbEnc f | .cbcEnc f => if f then srcN s + padLen (srcN s) else srcN s
  | .ecbDec f => if f then plannedLen (planEcbDec true s) else srcN s
  | .cbcDec f => if f then plannedLen (planCbcDec true s) else srcN s
  | .cfbEnc _ | .cfbDec _ | .ofbEnc _ | .ofbDec _ | .ctrEnc _ | .ctrDec _ => srcN s
  | .gcmEnc => srcN s + 16
  | .gcmDec => srcN s - 16
  | .shaFinal | .hmacFinal => 32
  | .shaInit | .shaUpdate | .hmacInit | .hmacUpdate | .hmacVerify | .clear => 0

/-- The ranges of a command, from the operand registers as they stand (20 R106). -/
def footprint (i : Instr) (s : State) : Footprint := ⟨inRanges i s, (s.dstAddr.toNat, outLength i s)⟩

/-- All ranges of a footprint. -/
def Footprint.ranges (f : Footprint) : List (Nat × Nat) := f.output :: f.inputs

/-- The ranges of the pending command; none when no command is pending or its word is Illegal. -/
def pendingFootprint (s : State) : List Footprint :=
  if s.busy then
    match decode s.cmdLatch with
    | .ok i => [footprint i s]
    | .error _ => []
  else []

/-- The commands from whose launch to whose observed completion the duties of 20 R111 run: the pending one, and those that
completed and were not yet observed (log 10). -/
def guarded (s : State) : List Footprint := pendingFootprint s ++ s.unobserved

/-- The completion of a command starts the time in which the host has not observed it (20 R111, log 10). -/
def awaitObservation (i : Instr) (s : State) : State := { s with unobserved := footprint i s :: s.unobserved }

/-- An address lies in a range. -/
def inRange (a : Nat) (r : Nat × Nat) : Bool := decide (r.1 ≤ a) && decide (a < r.1 + r.2)

/-- Two ranges (base, length) share an address. -/
def overlaps (r q : Nat × Nat) : Bool := decide (r.1 < q.1 + q.2) && decide (q.1 < r.1 + r.2) && r.2 != 0 && q.2 != 0

/-- A byte whose output is not to be relied on: in the output range of a guarded command (20 R111). -/
def inGuardedOutput (s : State) (a : Nat) : Bool := (guarded s).any fun f => inRange a f.output

/-- A range of addresses meets a range of a guarded command (20 R111). -/
def meetsGuarded (s : State) (r : Nat × Nat) : Bool := (guarded s).any fun f => f.ranges.any (overlaps r)

/-! ### Register accesses (10 R57 to R59) -/

/-- A register access the interface has: 32 bits wide and aligned in the window (20 R103). -/
def regAccessOk (width off : Nat) : Bool := width == 4 && off % 4 == 0 && decide (off < 0x100)

/-- The value a register holds for a read (10 R31 to R49, R57): write-only registers and reserved offsets read 0. -/
def regValue (r : Reg) (s : State) : Word :=
  match r with
  | .id => idWord
  | .ctrl => ctrlWord s
  | .cmd => 0
  | .status => statusWord s
  | .irqStatus => irqStatusWord s
  | .outLen => s.outLen
  | .srcAddr => s.srcAddr
  | .srcLen => s.srcLen
  | .dstAddr => s.dstAddr
  | .aadAddr => s.aadAddr
  | .aadLen => s.aadLen
  | .nonceAddr => s.nonceAddr
  | .nonceLen => s.nonceLen
  | .key _ => 0
  | .iv k => s.iv.get k
  | .digest k => s.digest.get k
  | .reserved => 0

/-- The registers whose value is unspecified while BUSY = 1 (10 R59). -/
def drawnWhileBusy : Reg → Bool
  | .outLen | .iv _ | .digest _ => true
  | _ => false

/-- The read shows the host that no command is pending: BUSY = 0 in STATUS, or DONE = 1 in IRQ_STATUS (20 R110; log 10). -/
def showsCompletion (r : Reg) (s : State) : Bool :=
  match r with
  | .status => !s.busy
  | .irqStatus => s.done
  | _ => false

/-- What is left unobserved once the host has, or has not, seen that no command is pending (20 R111, log 10). -/
def leftUnobserved (seen : Bool) (s : State) : List Footprint := if seen then [] else s.unobserved

/-- A host read (10 R57, R59): it changes no register; the model keeps what was read, and that the host has observed the
completion if the read shows it. -/
def readReg (r : Reg) (s : State) : State :=
  if s.busy && drawnWhileBusy r then
    { s with observed := .word r (Config.freeWord s.draws) :: s.observed, draws := s.draws + 1 }
  else
    { s with
      observed := .word r (regValue r s) :: s.observed
      unobserved := leftUnobserved (showsCompletion r s) s }

/-- A write to a writable register other than IRQ_STATUS (10 R58): while BUSY = 1 it is ignored and sets OVR. -/
def unlessBusy (s t : State) : State := if s.busy then { s with ovr := true } else t

/-- A host write (10 R30 to R58): read-only registers and reserved offsets ignore it (10 R49). -/
def writeReg (r : Reg) (v : Word) (s : State) : State :=
  match r with
  | .id | .status | .outLen | .digest _ | .reserved => s
  | .irqStatus => acknowledge v s
  | .ctrl => unlessBusy s (setCtrl v s)
  | .cmd => unlessBusy s (launch v s)
  | .srcAddr => unlessBusy s { s with srcAddr := v }
  | .srcLen => unlessBusy s { s with srcLen := v }
  | .dstAddr => unlessBusy s { s with dstAddr := v }
  | .aadAddr => unlessBusy s { s with aadAddr := v }
  | .aadLen => unlessBusy s { s with aadLen := v }
  | .nonceAddr => unlessBusy s { s with nonceAddr := v }
  | .nonceLen => unlessBusy s { s with nonceLen := v }
  | .key k => unlessBusy s { s with key := s.key.set k.val v k.isLt }
  | .iv k => unlessBusy s { s with iv := s.iv.set k.val v k.isLt, ivw := s.ivw ||| (1#4 <<< k.val) }

/-- The write launches a command while host stores in its ranges are not yet visible to DMA (20 R110, log 7). -/
def launchesUnflushed (r : Reg) (v : Word) (s : State) : Bool :=
  r == .cmd && !s.busy &&
    match decode v with
    | .ok i => (footprint i s).ranges.any fun q => s.unflushed.any (overlaps q)
    | .error _ => false

/-! ### Memory accesses of the host (20 R110, R111) -/

/-- A store of the host: on a non-coherent platform it is to be written back before a launch that uses it (log 7). -/
def hostStore (a : Nat) (bs : List Byte) (s : State) : State :=
  { s with mem := memWrite s.mem a bs, unflushed := maintenanceDue s.platform a bs.length s.unflushed }

/-- A byte of which the host may hold a stale copy (20 R110, log 7); in a guarded output a draw stands for it (20 R111). -/
def staleByte (s : State) (a : Nat) : Bool := s.uninvalidated.any (inRange a) && !inGuardedOutput s a

/-- The byte a host load returns: drawn inside the output range of a guarded command (20 R111, log 8, 9, 10). -/
def hostByte (s : State) (a draw : Nat) : Byte :=
  if inGuardedOutput s a then Config.freeByte draw else readByte s.mem a

/-- The bytes a host load returns, one draw number for each. -/
def hostBytes (s : State) : Nat → Nat → Nat → List Byte
  | _, _, 0 => []
  | a, draw, n + 1 => hostByte s a draw :: hostBytes s (a + 1) (draw + 1) n

/-- A load of the host: it changes nothing but what the model keeps of it. -/
def hostLoad (a n : Nat) (s : State) : State :=
  { s with observed := .bytes a (hostBytes s a s.draws n) :: s.observed, draws := s.draws + n }

/-- Cache maintenance by the platform's means (20 R110, log 7). -/
def maintainCaches (s : State) : State := { s with unflushed := [], uninvalidated := [] }

/-- Sensing the IRQ output (60 R450): a high level shows DONE = 1, so the completion is then observed (log 10). -/
def senseIrq (s : State) : State :=
  { s with observed := .irq (irq s) :: s.observed, unobserved := leftUnobserved (irq s) s }

/-- One action of the host, with the moves the spec does not give it refused by name (20 R103, R110, R111). -/
def hostAct (a : HostAction) (s : State) : Host.Outcome State Fault Refusal :=
  match a with
  | .regWrite width off v =>
    if regAccessOk width off then
      if launchesUnflushed (regAt off) v s then .refused .cacheNotMaintained else .next (writeReg (regAt off) v s)
    else .refused (.outsideInterface width off)
  | .regRead width off =>
    if regAccessOk width off then .next (readReg (regAt off) s) else .refused (.outsideInterface width off)
  | .memWrite a bs =>
    if addressSpace < a + bs.length then .fault (.noSuchAddress a)
    else if meetsGuarded s (a, bs.length) then .refused (.rangeInUse a)
    else .next (hostStore a bs s)
  | .memRead a n =>
    if addressSpace < a + n then .fault (.noSuchAddress a)
    else if (List.range n).any (fun j => staleByte s (a + j)) then .refused .cacheNotMaintained
    else .next (hostLoad a n s)
  | .cacheMaintenance => .next (maintainCaches s)
  | .senseIrq => .next (senseIrq s)

/-! ### Reset (70 R490, R491) -/

/-- The platform's reset: every register and internal state element takes its reset value, a pending command is abandoned, and
system memory is unchanged. The model's own fields and the platform are not the engine's and are kept (log 16). -/
def hardReset (s : State) : State :=
  { State.reset with
    mem := s.mem
    platform := s.platform
    inputs := s.inputs
    observed := s.observed
    draws := s.draws
    unobserved := s.unobserved
    unflushed := s.unflushed
    uninvalidated := s.uninvalidated }

/-! ### The bus address of the window (10 R30) -/

/-- The bus address of a register (10 R30). -/
def busAddress (r : Reg) : Nat := Config.engineBase + r.offset

/-- The window offset of a bus address, if it lies in the window of 256 bytes (10 R30). -/
def windowOffset (a : Nat) : Option Nat :=
  if Config.engineBase ≤ a ∧ a < Config.engineBase + 0x100 then some (a - Config.engineBase) else none

end Sys2Proof.Machine
end

