-- ==== Sys2Proof/Machine/Cycle.lean ====
section
/-! DEFINITION. The turns of the agents (00 R9): the engine's completion of the latched command (40 R186, R187), the host's
actions, the reset input; and how the next command is placed. -/

namespace Sys2Proof.Machine

/-- The word the engine completes: CMD_LATCH (10 R53, 40 R186). -/
def fetchWord (s : State) : Word := s.cmdLatch

/-- The completion of the latched word (40 R187): decode it and perform the command, whose completion then waits to be observed
(20 R111, log 10); an Illegal word, which names no range, completes with IllegalCommand (30 R144, 60 R443 step 1). -/
def completion (s : State) : Host.Outcome State Fault Refusal :=
  match decode (fetchWord s) with
  | .ok i => exec i (awaitObservation i s)
  | .error _ => complete s (.error .illegalCommand)

/-- The engine's turn (40 R186): with BUSY = 1 its one step is the completion; with BUSY = 0 it has no step and all state is
kept (60 R461, log 2). -/
def engineTurn (s : State) : Host.Outcome State Fault Refusal := if s.busy then completion s else .next s

/-- One turn (93 U20, log 1): the agent that the head of `inputs` names moves; with nothing listed it is the engine's turn, so
that a pending command completes (40 R190). -/
def turn (s : State) : Host.Outcome State Fault Refusal :=
  match s.inputs with
  | [] => engineTurn s
  | .engine :: rest => engineTurn { s with inputs := rest }
  | .host a :: rest => hostAct a { s with inputs := rest }
  | .reset :: rest => .next (hardReset { s with inputs := rest })

/-- The state in which the very next step runs a given word: the word is launched as a write to CMD launches it (40 R185), and
the engine's turn comes first (log 13). -/
def placeWord (w : Word) (s : State) : State :=
  let t := launch w s
  { t with inputs := .engine :: t.inputs }

end Sys2Proof.Machine
end

