-- ==== Sys2Proof/Machine/Step.lean ====
section
/-! DEFINITION. The one step of the machine, and the placing of its next command word. -/

namespace Sys2Proof.Machine

/-- One step: one turn of one agent. -/
def step (s : State) : Host.Outcome State Fault Refusal := turn s

/-- `s` with the word w of a command placed where the next step completes it (log 13). -/
def State.withFetchWord (s : State) (nbits w : Nat) : State := placeWord (BitVec.ofNat 32 (w % 2 ^ nbits)) s

end Sys2Proof.Machine
end

