-- ==== Sys2Proof/Safety.lean ====
section
/-! DEFINITION. The invariant of the machine's states, in the words of the spec, and what a safe run is. -/

namespace Sys2Proof

open Machine

/-- HS.BUF holds 0 to 63 bytes (10 R50), and they are exactly the bits of BITLEN that no whole 64-byte block has taken
(43 R345). -/
def hashBufferInv (s : State) : Prop :=
  s.hs.buf.length < 64 ∧ s.hs.bitlen.toNat % 512 = 8 * s.hs.buf.length

/-- HS is at its reset value while no hash is in progress (10 R50), and OPAD is zero unless an HMAC is (10 R52). -/
def hashContextInv (s : State) : Prop :=
  (s.hmode = .none → s.hs = .zero) ∧ (s.hmode ≠ .hmac → s.opad = Vector.replicate 64 0)

/-- While a command is pending, ERR, VERIFY_OK and DONE are 0 (40 R185). -/
def pendingFlagsInv (s : State) : Prop :=
  s.busy = true → s.err = .ok ∧ s.verifyOk = false ∧ s.done = false

/-- After an error OUT_LEN and VERIFY_OK are 0 (60 R441); VERIFY_OK = 1 only after an HMAC_VERIFY, which left no context and
wrote nothing (44 R410); the engine never sets InvalidParameter (60 R440). -/
def resultFlagsInv (s : State) : Prop :=
  (s.err ≠ .ok → s.outLen = 0 ∧ s.verifyOk = false) ∧
  (s.verifyOk = true → s.hmode = .none ∧ s.outLen = 0) ∧
  s.err ≠ .invalidParameter

/-- The invariant: memory in canonical form, the hash context, and the flags. -/
structure Inv (s : State) : Prop where
  memory : Memory.wf s.mem
  hashBuffer : hashBufferInv s
  hashContext : hashContextInv s
  pendingFlags : pendingFlagsInv s
  resultFlags : resultFlagsInv s

/-- A run of k steps that ends in a state (and not in a refused or impossible access of the host) ends within the
invariant. -/
def SafeRun (k : Nat) (s : State) : Prop :=
  match Host.Core.run { State := State, Fault := Fault, Refusal := Refusal, step := step, reset := State.reset } k s with
  | .next t => Inv t
  | .fault _ => True
  | .refused _ => True

end Sys2Proof
end

