-- ==== Sys2Proof/Certificates/Slice0/Obligations.lean ====
section
/-! DEFINITION. The statements about the machine, each a rule of the spec or a law that rests on its rules. -/

/-! ### The words of the statements -/

namespace Sys2Proof.Claims

open Sys2Proof Sys2Proof.Machine

/-- IV0 .. IV3 as one 128-bit number, IV0 most significant (10 R46, 20 R102). -/
def ivNumber (s : State) : Block := s.iv[0] ++ s.iv[1] ++ s.iv[2] ++ s.iv[3]

/-- IV0 .. IV3 of a 128-bit number (20 R102). -/
def ivWords (v : Block) : Vector Word 4 :=
  #v[v.extractLsb' 96 32, v.extractLsb' 64 32, v.extractLsb' 32 32, v.extractLsb' 0 32]

/-- `B_i` of 00 R14: bytes 16i up to 16i + 16 of a string. -/
def piece (bs : List Byte) (i : Nat) : List Byte := (bs.drop (16 * i)).take 16

/-- `P ++ [p]*p` with `p = 16 − (|P| mod 16)` (40 R182). -/
def padded (p : List Byte) : List Byte :=
  p ++ List.replicate (16 - p.length % 16) (BitVec.ofNat 8 (16 - p.length % 16))

/-- The last p bytes of a string are all p (40 R183). -/
def endsInPad (m : List Byte) (p : Nat) : Prop :=
  1 ≤ p ∧ p ≤ 16 ∧ p ≤ m.length ∧ ∀ j, m.length - p ≤ j → j < m.length → m.getD j 0 = BitVec.ofNat 8 p

/-- The state after a command that raised an error: 40 R188 and the end of the completion (40 R186), and nothing else. -/
def raised (e : ErrCode) (s : State) : State :=
  { s with busy := false, done := true, err := e, verifyOk := false, outLen := 0 }

/-- The state after a command that wrote `out` at DST_ADDR and OUT_LEN, and the end of the completion (40 R186, R189). -/
def written (out : List Byte) (s : State) : State :=
  { s with
    busy := false
    done := true
    mem := memWrite s.mem s.dstAddr.toNat out
    outLen := BitVec.ofNat 32 out.length }

/-- The command answers the next state t, all of it but the model's own cache field, on which no rule speaks (log 7). -/
def completesIn (i : Instr) (s t : State) : Prop := ∃ u : List (Nat × Nat), exec i s = .next { t with uninvalidated := u }

/-- The address x lies in the range (base, length). -/
abbrev within (r : Nat × Nat) (x : Nat) : Prop := r.1 ≤ x ∧ x < r.1 + r.2

/-- f holds the ranges of a command in the time of 20 R111: the pending command, or one whose completion the host has not
observed (log 10; the length of the pending output range is that of log 9). -/
def guards (s : State) (f : Footprint) : Prop :=
  f ∈ s.unobserved ∨
  (s.busy = true ∧ ∃ i, decode s.cmdLatch = .ok i ∧ f = ⟨inRanges i s, (s.dstAddr.toNat, outLength i s)⟩)

/-- The operation code of a command as a number (30 R143). -/
def opNumber (i : Instr) : Nat := i.fields.op.toNat

/-! The conditions of the check order (60 R443), step by step. -/

/-- Step 2. -/
def sequenceFails (i : Instr) (s : State) : Prop :=
  ((i = .shaUpdate ∨ i = .shaFinal) ∧ s.hmode ≠ .sha) ∨
  ((i = .hmacUpdate ∨ i = .hmacFinal ∨ i = .hmacVerify) ∧ s.hmode ≠ .hmac)

/-- Step 3: mode commands, GCM_ENC, GCM_DEC. -/
def keyFails (i : Instr) (s : State) : Prop := opNumber i ≤ 0x11 ∧ s.keysz = 3

/-- Step 4: OP 0x03 .. 0x0A. -/
def ivFails (i : Instr) (s : State) : Prop := 0x03 ≤ opNumber i ∧ opNumber i ≤ 0x0A ∧ s.ivw ≠ 0b1111

/-- Step 5. -/
def nonceFails (i : Instr) (s : State) : Prop := (i = .gcmEnc ∨ i = .gcmDec) ∧ s.nonceLen = 0

/-- Step 6, with the length rules of the mode commands (41 R231). -/
def lengthFails (i : Instr) (s : State) : Prop :=
  match i with
  | .ecbEnc f | .cbcEnc f => if f then 2 ^ 32 - 16 ≤ s.srcLen.toNat else s.srcLen.toNat % 16 ≠ 0
  | .ecbDec f | .cbcDec f => s.srcLen.toNat % 16 ≠ 0 ∨ (f = true ∧ s.srcLen.toNat < 16)
  | .cfbEnc f | .cfbDec f | .ofbEnc f | .ofbDec f | .ctrEnc f | .ctrDec f => f = false ∧ s.srcLen.toNat % 16 ≠ 0
  | .gcmEnc => 2 ^ 32 - 1 < s.srcLen.toNat + 16
  | .gcmDec => s.srcLen.toNat < 16
  | .shaUpdate | .hmacUpdate => 2 ^ 64 - 1 < s.hs.bitlen.toNat + 8 * s.srcLen.toNat
  | .hmacVerify => s.srcLen.toNat ≠ 32
  | .shaInit | .shaFinal | .hmacInit | .hmacFinal | .clear => False

/-- Step 7: some input range of the command is invalid. -/
def inputFails (i : Instr) (s : State) : Prop := ∃ r ∈ inRanges i s, rangeOk s.platform r.1 r.2 = false

/-- Step 8: the decrypted string of ECB_DEC or CBC_DEC with FINAL = 1 has no valid padding. -/
def paddingFails (i : Instr) (s : State) : Prop :=
  (i = .ecbDec true ∧ ∀ p, ¬ endsInPad (ecb (cipherD s) (blocks (srcBytes s))) p) ∨
  (i = .cbcDec true ∧ ∀ p, ¬ endsInPad (cbcDecrypt (cipherD s) (ivBlock s) (blocks (srcBytes s))).1 p)

/-- Step 9: the output range is invalid. -/
def outputFails (i : Instr) (s : State) : Prop := rangeOk s.platform s.dstAddr.toNat (outLength i s) = false

/-- Step 10: the received tag is not the computed one. -/
def tagFails (i : Instr) (s : State) : Prop :=
  i = .gcmDec ∧ gcmDecTag s ≠ gcmTag (cipherE s) (nonceBytes s) (aadBytes s) (gcmDecText s)

/-- No check of 60 R443 from step 2 on fails. -/
def checksPass (i : Instr) (s : State) : Prop :=
  ¬ sequenceFails i s ∧ ¬ keyFails i s ∧ ¬ ivFails i s ∧ ¬ nonceFails i s ∧ ¬ lengthFails i s ∧ ¬ inputFails i s ∧
  ¬ paddingFails i s ∧ ¬ outputFails i s ∧ ¬ tagFails i s

/-- What the ten mode commands and their chaining need to pass the checks up to step 7 (41 R233). -/
def modeReady (s : State) : Prop := s.keysz ≠ 3 ∧ s.ivw = 0b1111 ∧ srcOk s = true

/-- What GCM needs to pass the checks 3, 5 and 7 (42 R310). -/
def gcmReady (s : State) : Prop :=
  s.keysz ≠ 3 ∧ s.nonceLen ≠ 0 ∧ srcOk s = true ∧ aadOk s = true ∧ nonceOk s = true

/-- J0 (42 R305). -/
def preCounter (s : State) : Block :=
  if s.nonceLen = 12 then toBlock (nonceBytes s ++ [0x00, 0x00, 0x00, 0x01])
  else ghash (cipherE s 0) [] (nonceBytes s)

/-- The j-th 64-byte block of a string (43 R345). -/
def shaBlock (bs : List Byte) (j : Nat) : List Byte := (bs.drop (64 * j)).take 64

/-- The hash words after compressing the first q blocks of a string (43 R345, R346). -/
def compressed (h : Vector Word 8) (bs : List Byte) : Nat → Vector Word 8
  | 0 => h
  | q + 1 => compress (compressed h bs q) (shaBlock bs q)

/-- The padded final string T of 43 R346. -/
def finalString (hs : HashState) : List Byte :=
  hs.buf ++ [0x80] ++ List.replicate ((55 + 64 - hs.buf.length) % 64) 0 ++ be64 hs.bitlen.toNat

/-- The words of the digest of a hash state (43 R346). -/
def digestWords (hs : HashState) : Vector Word 8 :=
  compressed hs.h (finalString hs) ((finalString hs).length / 64)

/-- `absorb(HS, X)` (43 R345), written out. -/
def absorbed (hs : HashState) (x : List Byte) : HashState where
  h := compressed hs.h (hs.buf ++ x) ((hs.buf.length + x.length) / 64)
  buf := (hs.buf ++ x).drop (64 * ((hs.buf.length + x.length) / 64))
  bitlen := BitVec.ofNat 64 (hs.bitlen.toNat + 8 * x.length)

/-- An UPDATE command for every chunk (address, length) in turn; `none` if one of them ends with an error. -/
def feed (i : Instr) : List (Word × Word) → State → Option State
  | [], s => some s
  | c :: cs, s =>
    match exec i { s with srcAddr := c.1, srcLen := c.2 } with
    | .next t => if t.err = .ok then feed i cs t else none
    | .fault _ => none
    | .refused _ => none

/-- The bytes of the chunks, joined. -/
def chunkBytes (m : Memory) (cs : List (Word × Word)) : List Byte :=
  cs.flatMap fun c => memRead m c.1.toNat c.2.toNat

/-- The five modes, each as its encryption and its decryption command (30 R143). -/
def modePairs : List ((Bool → Instr) × (Bool → Instr)) :=
  [(.ecbEnc, .ecbDec), (.cbcEnc, .cbcDec), (.cfbEnc, .cfbDec), (.ofbEnc, .ofbDec), (.ctrEnc, .ctrDec)]

end Sys2Proof.Claims

open Sys2Proof Sys2Proof.Machine Sys2Proof.Claims

/-! ### Encoding (30 R140 to R145) -/

/-- 30 R143, R144: the decoder and the encoder are inverse to each other on all 2^32 words. -/
def Obligations.DecodeIsTheInverseOfEncode : Prop :=
  ∀ (w : Word) (i : Instr), decode w = .ok i ↔ w = encode i

/-- 30 R145: exactly the words with RSV ≠ 0, with an unassigned OP, or with FINAL = 1 and a non-mode OP are Illegal. -/
def Obligations.IllegalWordsAreExactlyThese : Prop :=
  ∀ w : Word, (∃ e, decode w = .error e) ↔
    (w.extractLsb' 9 23 ≠ 0 ∨
     (let op := (w.extractLsb' 0 8).toNat
      op = 0x00 ∨ (0x0B ≤ op ∧ op ≤ 0x0F) ∨ (0x12 ≤ op ∧ op ≤ 0x1F) ∨ (0x23 ≤ op ∧ op ≤ 0x27) ∨
        (0x2C ≤ op ∧ op ≤ 0x2F) ∨ 0x31 ≤ op) ∨
     (w.getLsbD 8 = true ∧ ¬ (0x01 ≤ (w.extractLsb' 0 8).toNat ∧ (w.extractLsb' 0 8).toNat ≤ 0x0A)))

/-- 30 R143: words of every family, written out from the table, decode to their commands. -/
def Obligations.TableWordsDecodeToTheirCommands : Prop :=
  decode 0b00000000000000000000000000000001#32 = .ok (.ecbEnc false) ∧
  decode 0b00000000000000000000000100000100#32 = .ok (.cbcDec true) ∧
  decode 0b00000000000000000000000100000101#32 = .ok (.cfbEnc true) ∧
  decode 0b00000000000000000000000000001000#32 = .ok (.ofbDec false) ∧
  decode 0b00000000000000000000000100001010#32 = .ok (.ctrDec true) ∧
  decode 0b00000000000000000000000000010001#32 = .ok .gcmDec ∧
  decode 0b00000000000000000000000000100010#32 = .ok .shaFinal ∧
  decode 0b00000000000000000000000000101011#32 = .ok .hmacVerify ∧
  decode 0b00000000000000000000000000110000#32 = .ok .clear

/-! ### The step (00 R9, 40 R186, R187) -/

/-- 40 R186, R187: with BUSY = 1 the engine's turn is the completion of the latched command, which the host has then yet to
observe (log 10); the turn is the engine's when `inputs` is empty or names the engine (log 1), and `withFetchWord` makes it so
(log 13). -/
def Obligations.StepRunsTheLatchedCommand : Prop :=
  ∀ (s : State) (i : Instr),
    let waiting := fun u : State =>
      { u with unobserved := ⟨inRanges i u, (u.dstAddr.toNat, outLength i u)⟩ :: u.unobserved }
    (s.busy = true → decode s.cmdLatch = .ok i →
      (s.inputs = [] → step s = exec i (waiting s)) ∧
      (∀ rest, s.inputs = .engine :: rest → step s = exec i (waiting { s with inputs := rest }))) ∧
    (∀ w : Nat, decode (BitVec.ofNat 32 (w % 2 ^ 32)) = .ok i →
      step (s.withFetchWord 32 w) = exec i (waiting (launch (BitVec.ofNat 32 (w % 2 ^ 32)) s)))

/-- 30 R144, R145: an Illegal word that was launched completes with IllegalCommand and no other effect. -/
def Obligations.IllegalWordCompletesWithIllegalCommand : Prop :=
  ∀ (s : State) (e : Illegal), s.busy = true → decode s.cmdLatch = .error e →
    (s.inputs = [] → step s = .next (raised .illegalCommand s)) ∧
    (∀ rest, s.inputs = .engine :: rest → step s = .next (raised .illegalCommand { s with inputs := rest }))

/-- 60 R461, 93 U20: with BUSY = 0 the engine's turn keeps all state (the stutter is the model's choice, log 2); a host action or
a reset at the head of `inputs` is what the step does (log 1). -/
def Obligations.StepTakesTheTurnThatIsListed : Prop :=
  ∀ s : State,
    (s.busy = false → s.inputs = [] → step s = .next s) ∧
    (∀ rest, s.busy = false → s.inputs = .engine :: rest → step s = .next { s with inputs := rest }) ∧
    (∀ a rest, s.inputs = .host a :: rest → step s = hostAct a { s with inputs := rest }) ∧
    (∀ rest, s.inputs = .reset :: rest → step s = .next (hardReset { s with inputs := rest }))

/-- 70 R490, R491: reset, also of a busy engine, gives every register and internal state element its reset value and leaves
system memory alone. -/
def Obligations.ResetGivesEveryRegisterItsResetValue : Prop :=
  ∀ (s : State) (rest : List Input), s.inputs = .reset :: rest →
    ∃ t, step s = .next t ∧
      regValue .id t = 0x43430001 ∧ regValue .ctrl t = 0 ∧ regValue .status t = 0 ∧ regValue .irqStatus t = 0 ∧
      t.outLen = 0 ∧ t.srcAddr = 0 ∧ t.srcLen = 0 ∧ t.dstAddr = 0 ∧ t.aadAddr = 0 ∧ t.aadLen = 0 ∧ t.nonceAddr = 0 ∧
      t.nonceLen = 0 ∧ t.key = Vector.replicate 8 0 ∧ t.iv = Vector.replicate 4 0 ∧ t.ivw = 0 ∧
      t.digest = Vector.replicate 8 0 ∧ t.hs = ⟨Vector.replicate 8 0, [], 0⟩ ∧ t.hmode = .none ∧
      t.opad = Vector.replicate 64 0 ∧ t.cmdLatch = 0 ∧ irq t = false ∧ t.busy = false ∧ t.mem = s.mem

/-! ### The invariant -/

/-- The invariant of Safety.lean holds after reset (10 R50 to R53, 70 R490). -/
def Obligations.ResetStateMeetsTheInvariant : Prop := Sys2Proof.Inv State.reset

/-- Every step keeps the invariant, from every state that meets it: memory stays canonical, HS.BUF and BITLEN agree (10 R50,
43 R345), OPAD and HS are clear when unused (10 R50, R52), the flags obey 40 R185 and 60 R441, and code 7 is never set
(60 R440). -/
def Obligations.StepKeepsTheInvariant : Prop :=
  ∀ s t : State, Sys2Proof.Inv s → step s = .next t → Sys2Proof.Inv t

/-! ### Registers and the host (10 R30 to R59, 60 R450) -/

/-- 40 R185: a CMD write while BUSY = 0 launches the word, whatever it is, unless host stores in the ranges of its command wait
for their write-back (log 7); while BUSY = 1 it is ignored and sets OVR. -/
def Obligations.CmdWriteLaunchesWhenIdle : Prop :=
  ∀ (s : State) (w : Word),
    (s.busy = false →
      (∀ i, decode w = .ok i → ∀ r ∈ (s.dstAddr.toNat, outLength i s) :: inRanges i s, ∀ q ∈ s.unflushed,
        ∀ x, ¬ (within r x ∧ within q x)) →
      hostAct (.regWrite 4 0x008 w) s =
        .next { s with cmdLatch := w, busy := true, err := .ok, verifyOk := false, done := false }) ∧
    (s.busy = true → hostAct (.regWrite 4 0x008 w) s = .next { s with ovr := true })

/-- 10 R58: while BUSY = 1 a write to any writable register other than IRQ_STATUS is ignored and sets OVR, and a write to
IRQ_STATUS takes effect. -/
def Obligations.WritesWhileBusyAreLost : Prop :=
  ∀ (s : State) (off : Nat) (v : Word), s.busy = true → off % 4 = 0 →
    (off = 0x004 ∨ off = 0x008 ∨ (0x020 ≤ off ∧ off ≤ 0x038) ∨ (0x040 ≤ off ∧ off ≤ 0x06C) →
      hostAct (.regWrite 4 off v) s = .next { s with ovr := true }) ∧
    hostAct (.regWrite 4 0x010 v) s =
      .next { s with done := s.done && !v.getLsbD 0, ovr := s.ovr && !v.getLsbD 1 }

/-- 10 R49, R30: writes to reserved offsets and to read-only registers change nothing and set no OVR, busy or not; reserved
offsets read 0, and the write-only registers read 0. -/
def Obligations.ReservedOffsetsIgnoreWritesAndReadZero : Prop :=
  ∀ (s : State) (off : Nat) (v : Word), off % 4 = 0 →
    (off = 0x018 ∨ off = 0x01C ∨ off = 0x03C ∨ (0x070 ≤ off ∧ off ≤ 0x07C) ∨ (0x0A0 ≤ off ∧ off ≤ 0x0FC) →
      hostAct (.regWrite 4 off v) s = .next s ∧
      ∃ r, hostAct (.regRead 4 off) s = .next { s with observed := .word r 0 :: s.observed }) ∧
    (off = 0x000 ∨ off = 0x00C ∨ off = 0x014 ∨ (0x080 ≤ off ∧ off ≤ 0x09C) →
      hostAct (.regWrite 4 off v) s = .next s) ∧
    (off = 0x008 ∨ (0x040 ≤ off ∧ off ≤ 0x05C) →
      ∃ r, hostAct (.regRead 4 off) s = .next { s with observed := .word r 0 :: s.observed })

/-- 10 R38 to R47, R57: a write to an operand register or IV word while BUSY = 0 is what a read of it then returns; it changes no
other register's value (STATUS apart, which shows IV_VALID) and no other state; a write to IVk sets bit k of IVW, a write to an
operand register leaves IVW; a write to a key word changes that word only. -/
def Obligations.IdleWritesReadBackAndTouchNothingElse : Prop :=
  ∀ (s : State) (r : Reg) (v : Word), s.busy = false →
    (r ∈ [.srcAddr, .srcLen, .dstAddr, .aadAddr, .aadLen, .nonceAddr, .nonceLen, .iv 0, .iv 1, .iv 2, .iv 3] →
      ∃ t, hostAct (.regWrite 4 r.offset v) s = .next t ∧ regValue r t = v ∧
        (∀ q, q ≠ r → q ≠ .status → regValue q t = regValue q s) ∧
        t = { s with
          srcAddr := t.srcAddr, srcLen := t.srcLen, dstAddr := t.dstAddr, aadAddr := t.aadAddr, aadLen := t.aadLen
          nonceAddr := t.nonceAddr, nonceLen := t.nonceLen, iv := t.iv, ivw := t.ivw } ∧
        (∀ k : Fin 4, r = .iv k → t.ivw = s.ivw ||| (1#4 <<< k.val)) ∧
        ((∀ k : Fin 4, r ≠ .iv k) → t.ivw = s.ivw)) ∧
    (∀ k : Fin 8, r = .key k →
      hostAct (.regWrite 4 r.offset v) s = .next { s with key := s.key.set k.val v k.isLt })

/-- 10 R32: CTRL keeps KEYSZ (3 included) and IRQ_EN of what is written, and reads back with all other bits 0. -/
def Obligations.CtrlWriteReadsBackMasked : Prop :=
  ∀ (s : State) (v : Word), s.busy = false →
    ∃ t, hostAct (.regWrite 4 0x004 v) s = .next t ∧ t = { s with keysz := t.keysz, irqEn := t.irqEn } ∧
      t.keysz = v.extractLsb' 0 2 ∧ t.irqEn = v.getLsbD 8 ∧ regValue .ctrl t = v &&& 0x00000103#32

/-- 10 R34, 60 R440: the fields of STATUS, with the numbering of HMODE and of the errors. -/
def Obligations.StatusShowsItsFields : Prop :=
  ∀ s : State,
    (regValue .status s).getLsbD 0 = s.busy ∧ (regValue .status s).getLsbD 1 = s.verifyOk ∧
    (regValue .status s).extractLsb' 2 2 = (match s.hmode with | .none => 0#2 | .sha => 1#2 | .hmac => 2#2) ∧
    ((regValue .status s).getLsbD 4 = true ↔ s.ivw = 0b1111) ∧
    (regValue .status s).extractLsb' 5 3 = 0 ∧ (regValue .status s).extractLsb' 12 20 = 0 ∧
    (regValue .status s).extractLsb' 8 4 =
      (match s.err with
        | .ok => 0#4 | .invalidKeyLength => 1#4 | .invalidNonceOrIvLength => 2#4 | .missingIv => 3#4 | .invalidPadding => 4#4
        | .invalidLength => 5#4 | .authenticationError => 6#4 | .invalidParameter => 7#4 | .illegalCommand => 8#4
        | .sequenceError => 9#4 | .busError => 10#4)

/-- 10 R35: IRQ_STATUS shows DONE and OVR; writing 1 clears a bit, writing 0 leaves it, busy or not. -/
def Obligations.IrqStatusClearsOnlyWrittenOnes : Prop :=
  ∀ (s : State) (v : Word),
    ∃ t, hostAct (.regWrite 4 0x010 v) s = .next t ∧ t = { s with done := t.done, ovr := t.ovr } ∧
      regValue .irqStatus t = regValue .irqStatus s &&& ~~~v ∧
      regValue .irqStatus s = (if s.done then 1#32 else 0#32) ||| (if s.ovr then 2#32 else 0#32)

/-- 10 R45, R47: over every step, KEY and IVW change only by a reset, by CLEAR, or by an effective host write of one of their
words; the engine's own writes of IV0..3 leave IVW as it is. -/
def Obligations.KeyAndIvwChangeOnlyByHostClearOrReset : Prop :=
  ∀ s t : State, step s = .next t →
    (t.key = s.key ∧ t.ivw = s.ivw) ∨
    (∃ rest, s.inputs = .reset :: rest) ∨
    (s.busy = true ∧ decode s.cmdLatch = .ok .clear ∧ t.key = Vector.replicate 8 0 ∧ t.ivw = 0) ∨
    (∃ (k : Fin 8) (v : Word) (rest : List Input), s.busy = false ∧
      s.inputs = .host (.regWrite 4 (0x040 + 4 * k.val) v) :: rest ∧
      t.key = s.key.set k.val v k.isLt ∧ t.ivw = s.ivw) ∨
    (∃ (k : Fin 4) (v : Word) (rest : List Input), s.busy = false ∧
      s.inputs = .host (.regWrite 4 (0x060 + 4 * k.val) v) :: rest ∧
      t.key = s.key ∧ ∀ b < 4, t.ivw.getLsbD b = (s.ivw.getLsbD b || b == k.val))

/-- 60 R455: no register read depends on the key, on the hash state or on OPAD: with other secrets the host reads the same. -/
def Obligations.RegisterReadsRevealNoSecret : Prop :=
  ∀ (s t : State) (width off : Nat) (k : Vector Word 8) (h : HashState) (o : Vector Byte 64),
    hostAct (.regRead width off) s = .next t →
    hostAct (.regRead width off) { s with key := k, hs := h, opad := o } = .next { t with key := k, hs := h, opad := o }

/-- 10 R57, R59: a register read changes no register, no memory and no internal state; a read of STATUS with BUSY = 0 or of
IRQ_STATUS with DONE = 1 is the host's observation of the completions before it (20 R110, log 10). While BUSY = 0 it returns the
register's value; while BUSY = 1 OUT_LEN, IV0..3 and DIGEST0..7 return a drawn word (log 8), and all others their value. ID reads
0x43430001 (10 R31), and OUT_LEN, the operand registers, IV0..3 and DIGEST0..7 read what State holds under their names. -/
def Obligations.ReadsReturnValuesOrDrawnWords : Prop :=
  ∀ (s : State),
    (∀ off : Nat, off % 4 = 0 → off < 0x100 →
      let drawn := off = 0x014 ∨ (0x060 ≤ off ∧ off ≤ 0x06C) ∨ (0x080 ≤ off ∧ off ≤ 0x09C)
      let seen := (off = 0x00C ∧ s.busy = false) ∨ (off = 0x010 ∧ s.done = true)
      (s.busy = false ∨ ¬ drawn → hostAct (.regRead 4 off) s =
        .next { s with
          observed := .word (regAt off) (regValue (regAt off) s) :: s.observed
          unobserved := if seen then [] else s.unobserved }) ∧
      (s.busy = true ∧ drawn → hostAct (.regRead 4 off) s =
        .next { s with observed := .word (regAt off) (Config.freeWord s.draws) :: s.observed, draws := s.draws + 1 })) ∧
    regValue (regAt 0x000) s = 0x43430001 ∧ regValue (regAt 0x014) s = s.outLen ∧
    regValue (regAt 0x020) s = s.srcAddr ∧ regValue (regAt 0x024) s = s.srcLen ∧ regValue (regAt 0x028) s = s.dstAddr ∧
    regValue (regAt 0x02C) s = s.aadAddr ∧ regValue (regAt 0x030) s = s.aadLen ∧
    regValue (regAt 0x034) s = s.nonceAddr ∧ regValue (regAt 0x038) s = s.nonceLen ∧
    (∀ k : Fin 4, regValue (regAt (0x060 + 4 * k.val)) s = s.iv.get k) ∧
    (∀ k : Fin 8, regValue (regAt (0x080 + 4 * k.val)) s = s.digest.get k)

/-- 60 R450: IRQ is IRQ_EN and DONE; every command's completion raises it if enabled, a launch and the acknowledgement of DONE
lower it, and OVR does not matter. -/
def Obligations.InterruptFollowsDone : Prop :=
  (∀ s : State, irq s = (s.irqEn && s.done)) ∧
  (∀ (i : Instr) (s : State), ∃ t, exec i s = .next t ∧ t.done = true ∧ irq t = s.irqEn) ∧
  (∀ (s : State) (w : Word), irq (launch w s) = false) ∧
  (∀ (s : State) (v : Word), ∃ t, hostAct (.regWrite 4 0x010 v) s = .next t ∧ irq t = (irq s && !v.getLsbD 0)) ∧
  (∀ (s : State) (b : Bool), irq { s with ovr := b } = irq s)

/-- 20 R103, R110, 93 U4, U17: the host moves without a meaning stop by name: accesses of another width or unaligned (log 11), a
launch whose ranges hold bytes not yet written back and a load of bytes not yet invalidated on a non-coherent platform (log 7),
and accesses outside the address space (log 12). Cache maintenance falls due for the bytes a store of either side wrote there,
and the host does it (log 7). -/
def Obligations.HostMovesWithoutMeaningStop : Prop :=
  ∀ s : State,
    (∀ width off v, ¬ (width = 4 ∧ off % 4 = 0 ∧ off < 0x100) →
      hostAct (.regWrite width off v) s = .refused (.outsideInterface width off) ∧
      hostAct (.regRead width off) s = .refused (.outsideInterface width off)) ∧
    (∀ w i r q x, s.busy = false → decode w = .ok i → r ∈ (s.dstAddr.toNat, outLength i s) :: inRanges i s →
      q ∈ s.unflushed → within r x → within q x → hostAct (.regWrite 4 0x008 w) s = .refused .cacheNotMaintained) ∧
    (∀ a bs, 2 ^ 32 < a + bs.length → hostAct (.memWrite a bs) s = .fault (.noSuchAddress a)) ∧
    (∀ a n, 2 ^ 32 < a + n → hostAct (.memRead a n) s = .fault (.noSuchAddress a)) ∧
    (∀ a n q x, a + n ≤ 2 ^ 32 → q ∈ s.uninvalidated → within q x → within (a, n) x →
      (∀ f, guards s f → ¬ within f.output x) → hostAct (.memRead a n) s = .refused .cacheNotMaintained) ∧
    (∀ i t, exec i s = .next t → t.uninvalidated =
      if t.outLen = 0 ∨ s.platform.coherent = true then s.uninvalidated
      else (s.dstAddr.toNat, t.outLen.toNat) :: s.uninvalidated) ∧
    (∀ a bs t, hostAct (.memWrite a bs) s = .next t → t.unflushed =
      if bs = [] ∨ s.platform.coherent = true then s.unflushed else (a, bs.length) :: s.unflushed) ∧
    hostAct .cacheMaintenance s = .next { s with unflushed := [], uninvalidated := [] }

/-- 20 R110, R111, 93 U2, U3: a host store to a byte of the ranges of the pending command, or of one whose completion the host has
not observed, is no move, and a store elsewhere is performed; a load returns a drawn byte for every byte of such a command's
output range and memory's byte elsewhere. With BUSY = 0 or an Illegal word pending, and nothing unobserved, no range is guarded.
Stores change memory, loads nothing; a high IRQ shows the completion. Model's choices: the refusal and the end of the guarded
time (log 10), the drawn byte's form (log 8), the output length before completion (log 9), stale bytes (log 7). -/
def Obligations.PendingRangesAreGuarded : Prop :=
  ∀ s : State,
    (∀ a bs, a + bs.length ≤ 2 ^ 32 →
      ((∃ f, guards s f ∧ ∃ r ∈ f.output :: f.inputs, ∃ x, within r x ∧ within (a, bs.length) x) →
        hostAct (.memWrite a bs) s = .refused (.rangeInUse a)) ∧
      ((∀ f, guards s f → ∀ r ∈ f.output :: f.inputs, ∀ x, within (a, bs.length) x → ¬ within r x) →
        ∃ u, hostAct (.memWrite a bs) s = .next { s with mem := memWrite s.mem a bs, unflushed := u })) ∧
    (∀ a n, a + n ≤ 2 ^ 32 →
      (∀ x, within (a, n) x → (∃ q ∈ s.uninvalidated, within q x) → ∃ f, guards s f ∧ within f.output x) →
      ∃ bs, bs.length = n ∧
        hostAct (.memRead a n) s = .next { s with observed := .bytes a bs :: s.observed, draws := s.draws + n } ∧
        ∀ j < n,
          ((∃ f, guards s f ∧ within f.output (a + j)) → bs.getD j 0 = Config.freeByte (s.draws + j)) ∧
          ((∀ f, guards s f → ¬ within f.output (a + j)) → bs.getD j 0 = readByte s.mem (a + j))) ∧
    ((s.busy = false ∨ ∃ e, decode s.cmdLatch = .error e) → s.unobserved = [] → ∀ f, ¬ guards s f) ∧
    hostAct .senseIrq s = .next { s with
      observed := .irq (irq s) :: s.observed
      unobserved := if irq s then [] else s.unobserved }

/-! ### System memory (20 R101, R106) -/

/-- 20 R101: byte v[i] goes to address a + i, and every other byte is unchanged; reading the range back gives v (in the
canonical form of log 4, which every step keeps). -/
def Obligations.MemoryWritesExactlyItsBytes : Prop :=
  ∀ (m : Memory) (a : Nat) (bs : List Byte), Memory.wf m →
    (∀ x, readByte (memWrite m a bs) x = if a ≤ x ∧ x < a + bs.length then bs.getD (x - a) 0 else readByte m x) ∧
    memRead (memWrite m a bs) a bs.length = bs

/-! ### Errors, completion and frames (40 R188, R189, 60 R442, R443) -/

/-- 40 R188, 60 R442: a command that ends with an error changes ERR, VERIFY_OK, OUT_LEN and the completion flags, and nothing else:
every register, the internal state and all of memory are as before. -/
def Obligations.ErrorsChangeNothingElse : Prop :=
  ∀ (i : Instr) (s t : State), s.err = .ok → exec i s = .next t → t.err ≠ .ok → t = raised t.err s

/-- 60 R443: the ten checks in their order; the first that fails gives the error. 20 R106: a range is valid if it is empty, or
ends at 2^32 at the latest and DMA_OK allows it. -/
def Obligations.ChecksAreTriedInOrder : Prop :=
  ∀ (i : Instr) (s : State),
    (∀ e, decode s.cmdLatch = .error e → completion s = .next (raised .illegalCommand s)) ∧
    (sequenceFails i s → exec i s = .next (raised .sequenceError s)) ∧
    (¬ sequenceFails i s → keyFails i s → exec i s = .next (raised .invalidKeyLength s)) ∧
    (¬ sequenceFails i s → ¬ keyFails i s → ivFails i s → exec i s = .next (raised .missingIv s)) ∧
    (¬ sequenceFails i s → ¬ keyFails i s → ¬ ivFails i s → nonceFails i s →
      exec i s = .next (raised .invalidNonceOrIvLength s)) ∧
    (¬ sequenceFails i s → ¬ keyFails i s → ¬ ivFails i s → ¬ nonceFails i s → lengthFails i s →
      exec i s = .next (raised .invalidLength s)) ∧
    (¬ sequenceFails i s → ¬ keyFails i s → ¬ ivFails i s → ¬ nonceFails i s → ¬ lengthFails i s → inputFails i s →
      exec i s = .next (raised .busError s)) ∧
    (¬ sequenceFails i s → ¬ keyFails i s → ¬ ivFails i s → ¬ nonceFails i s → ¬ lengthFails i s → ¬ inputFails i s →
      paddingFails i s → exec i s = .next (raised .invalidPadding s)) ∧
    (¬ sequenceFails i s → ¬ keyFails i s → ¬ ivFails i s → ¬ nonceFails i s → ¬ lengthFails i s → ¬ inputFails i s →
      ¬ paddingFails i s → outputFails i s → exec i s = .next (raised .busError s)) ∧
    (¬ sequenceFails i s → ¬ keyFails i s → ¬ ivFails i s → ¬ nonceFails i s → ¬ lengthFails i s → ¬ inputFails i s →
      ¬ paddingFails i s → ¬ outputFails i s → tagFails i s → exec i s = .next (raised .authenticationError s)) ∧
    (∀ (p : Platform) (a n : Nat), rangeOk p a n = true ↔ n = 0 ∨ (a + n ≤ 2 ^ 32 ∧ p.dmaOk a n = true))

/-- 40 R189, 41 R273: every command whose checks pass completes: BUSY 0, DONE 1, ERR as the launch left it, and OUT_LEN the length
of its output range. -/
def Obligations.CommandsThatPassTheChecksComplete : Prop :=
  ∀ (i : Instr) (s : State), checksPass i s →
    ∃ t, exec i s = .next t ∧ t.busy = false ∧ t.done = true ∧ t.err = s.err ∧ t.outLen.toNat = outLength i s ∧
      (i ≠ .hmacVerify → t.verifyOk = s.verifyOk)

/-- 20 R107, 40 R189: a command stores to its output range, (DST_ADDR, the length its rule gives), and to no other byte of memory. -/
def Obligations.OutputStaysInItsRange : Prop :=
  ∀ (i : Instr) (s t : State), exec i s = .next t →
    ∀ a, ¬ (s.dstAddr.toNat ≤ a ∧ a < s.dstAddr.toNat + outLength i s) → readByte t.mem a = readByte s.mem a

/-- 30 R146: the registers and the internal state that each command leaves unchanged, whether it succeeds or errs. -/
def Obligations.CommandsKeepTheirFrame : Prop :=
  ∀ (i : Instr) (s t : State), exec i s = .next t →
    (t.keysz = s.keysz ∧ t.irqEn = s.irqEn ∧ t.ovr = s.ovr ∧ t.srcAddr = s.srcAddr ∧ t.srcLen = s.srcLen ∧
      t.dstAddr = s.dstAddr ∧ t.aadAddr = s.aadAddr ∧ t.aadLen = s.aadLen ∧ t.nonceAddr = s.nonceAddr ∧
      t.nonceLen = s.nonceLen ∧ t.cmdLatch = s.cmdLatch ∧ t.platform = s.platform ∧ t.inputs = s.inputs ∧
      t.observed = s.observed ∧ t.draws = s.draws ∧ t.unobserved = s.unobserved ∧ t.unflushed = s.unflushed) ∧
    (i ≠ .clear → t.key = s.key ∧ t.ivw = s.ivw) ∧
    (¬ (0x03 ≤ opNumber i ∧ opNumber i ≤ 0x0A) → i ≠ .clear → t.iv = s.iv) ∧
    (opNumber i ≤ 0x11 → t.hs = s.hs ∧ t.hmode = s.hmode ∧ t.opad = s.opad) ∧
    (i ≠ .shaFinal → i ≠ .hmacFinal → i ≠ .clear → t.digest = s.digest) ∧
    (i = .shaUpdate ∨ i = .hmacUpdate → t.hmode = s.hmode ∧ t.opad = s.opad) ∧
    (i = .shaFinal → t.opad = s.opad) ∧
    (i ≠ .hmacVerify → t.verifyOk = s.verifyOk ∨ t.verifyOk = false)

/-! ### Operands (40 R181, 20 R102) -/

/-- 10 R45, R46, 40 R181: the cipher key is the leading 16, 24 or 32 of the 32 bytes of KEY0 .. KEY7, each word most significant byte
first, and IVBYTES as a number is IV0·2^96 + IV1·2^64 + IV2·2^32 + IV3. -/
def Obligations.KeyAndIvAreBigEndian : Prop :=
  ∀ s : State,
    (s.keysz = 0 → (cipherKey s).length = 16) ∧ (s.keysz = 1 → (cipherKey s).length = 24) ∧
    (s.keysz = 2 → (cipherKey s).length = 32) ∧
    (∀ (k : Fin 8) (j : Nat), j < 4 → 4 * k.val + j < (cipherKey s).length →
      (cipherKey s).getD (4 * k.val + j) 0 = (s.key.get k).extractLsb' (24 - 8 * j) 8) ∧
    (ivBlock s).toNat =
      s.iv[0].toNat * 2 ^ 96 + s.iv[1].toNat * 2 ^ 64 + s.iv[2].toNat * 2 ^ 32 + s.iv[3].toNat

/-! ### The mode commands (41 R240 to R261) -/

/-- 41 R240: ECB_ENC encrypts every block of the (padded) input on its own; IV is neither read nor written. -/
def Obligations.EcbEncEncryptsEachBlock : Prop :=
  ∀ (final : Bool) (s : State) (m : List Byte), s.keysz ≠ 3 → srcOk s = true → ¬ lengthFails (.ecbEnc final) s →
    m = (if final then padded (srcBytes s) else srcBytes s) → dstOk s m.length = true →
    ∃ out, completesIn (.ecbEnc final) s (written out s) ∧ out.length = m.length ∧
      ∀ i < m.length / 16, piece out i = ofBlock (cipherE s (toBlock (piece m i)))

/-- 41 R241, 40 R183: ECB_DEC decrypts every block on its own; with FINAL = 1 it strips the p bytes of padding, or raises
InvalidPadding when there is none, writing nothing. -/
def Obligations.EcbDecDecryptsEachBlock : Prop :=
  ∀ s : State, s.keysz ≠ 3 → srcOk s = true → srcN s % 16 = 0 →
    ∃ m : List Byte, m.length = srcN s ∧
      (∀ i < srcN s / 16, piece m i = ofBlock (cipherD s (toBlock (piece (srcBytes s) i)))) ∧
      (dstOk s (srcN s) = true → completesIn (.ecbDec false) s (written m s)) ∧
      (∀ p, 16 ≤ srcN s → endsInPad m p → dstOk s (srcN s - p) = true →
        completesIn (.ecbDec true) s (written (m.take (srcN s - p)) s)) ∧
      (16 ≤ srcN s → (∀ p, ¬ endsInPad m p) → exec (.ecbDec true) s = .next (raised .invalidPadding s))

/-- 41 R245, R232: CBC_ENC XORs each block with the previous ciphertext block (IV for the first) before encryption; the new IV is
the last ciphertext block, or the old one if there is none. -/
def Obligations.CbcEncChainsCiphertext : Prop :=
  ∀ (final : Bool) (s : State) (m : List Byte), modeReady s → ¬ lengthFails (.cbcEnc final) s →
    m = (if final then padded (srcBytes s) else srcBytes s) → dstOk s m.length = true →
    ∃ out, out.length = m.length ∧
      (∀ i < m.length / 16, piece out i =
        ofBlock (cipherE s (toBlock (piece m i) ^^^ if i = 0 then ivNumber s else toBlock (piece out (i - 1))))) ∧
      completesIn (.cbcEnc final) s { written out s with
        iv := ivWords (if m.length = 0 then ivNumber s else toBlock (piece out (m.length / 16 - 1))) }

/-- 41 R246, R232: CBC_DEC XORs each decrypted block with the previous ciphertext block; the new IV is the last ciphertext block
read; padding as ECB_DEC, and on InvalidPadding the IV is unchanged. -/
def Obligations.CbcDecChainsCiphertext : Prop :=
  ∀ s : State, modeReady s → srcN s % 16 = 0 →
    let iv' := ivWords (if srcN s = 0 then ivNumber s else toBlock (piece (srcBytes s) (srcN s / 16 - 1)))
    ∃ m : List Byte, m.length = srcN s ∧
      (∀ i < srcN s / 16, piece m i = ofBlock (cipherD s (toBlock (piece (srcBytes s) i)) ^^^
        if i = 0 then ivNumber s else toBlock (piece (srcBytes s) (i - 1)))) ∧
      (dstOk s (srcN s) = true → completesIn (.cbcDec false) s { written m s with iv := iv' }) ∧
      (∀ p, 16 ≤ srcN s → endsInPad m p → dstOk s (srcN s - p) = true →
        completesIn (.cbcDec true) s { written (m.take (srcN s - p)) s with iv := iv' }) ∧
      (16 ≤ srcN s → (∀ p, ¬ endsInPad m p) → exec (.cbcDec true) s = .next (raised .invalidPadding s))

/-- 41 R250, R232: CFB_ENC XORs piece i with E of the previous ciphertext block (IV for the first); the feedback after the last
piece is that piece if it is whole, else the value its keystream came from. -/
def Obligations.CfbEncFeedsBackCiphertext : Prop :=
  ∀ (final : Bool) (s : State), modeReady s → (final = false → srcN s % 16 = 0) → dstOk s (srcN s) = true →
    ∃ out, out.length = srcN s ∧
      (let fb := fun i => if i = 0 then ivNumber s else toBlock (piece out (i - 1))
       (∀ i < (srcN s + 15) / 16, piece out i = xorBytes (piece (srcBytes s) i) (ofBlock (cipherE s (fb i)))) ∧
       completesIn (.cfbEnc final) s { written out s with iv := ivWords (fb (srcN s / 16)) })

/-- 41 R251, R232: CFB_DEC is CFB with the feedback taken from the input pieces, E in both directions. -/
def Obligations.CfbDecFeedsBackInput : Prop :=
  ∀ (final : Bool) (s : State), modeReady s → (final = false → srcN s % 16 = 0) → dstOk s (srcN s) = true →
    ∃ out, out.length = srcN s ∧
      (let fb := fun i => if i = 0 then ivNumber s else toBlock (piece (srcBytes s) (i - 1))
       (∀ i < (srcN s + 15) / 16, piece out i = xorBytes (piece (srcBytes s) i) (ofBlock (cipherE s (fb i)))) ∧
       completesIn (.cfbDec final) s { written out s with iv := ivWords (fb (srcN s / 16)) })

/-- 41 R255, R256, R232: OFB in both directions XORs piece i with the (i+1)-fold encryption of the IV; the new IV is the last
keystream block, also of a partial piece. -/
def Obligations.OfbXorsIteratedKeystream : Prop :=
  ∀ (final : Bool) (s : State), modeReady s → (final = false → srcN s % 16 = 0) → dstOk s (srcN s) = true →
    ∃ out, out.length = srcN s ∧
      (∀ i < (srcN s + 15) / 16,
        piece out i = xorBytes (piece (srcBytes s) i) (ofBlock ((cipherE s)^[i + 1] (ivNumber s)))) ∧
      completesIn (.ofbEnc final) s { written out s with iv := ivWords ((cipherE s)^[(srcN s + 15) / 16] (ivNumber s)) } ∧
      exec (.ofbDec final) s = exec (.ofbEnc final) s

/-- 41 R260, R261, R232: CTR in both directions XORs piece i with E of the 128-bit counter plus i, modulo 2^128; the new counter has
advanced by the number of pieces, a partial one included. -/
def Obligations.CtrXorsCounterKeystream : Prop :=
  ∀ (final : Bool) (s : State), modeReady s → (final = false → srcN s % 16 = 0) → dstOk s (srcN s) = true →
    ∃ out, out.length = srcN s ∧
      (∀ i < (srcN s + 15) / 16, piece out i = xorBytes (piece (srcBytes s) i)
        (ofBlock (cipherE s (BitVec.ofNat 128 (((ivNumber s).toNat + i) % 2 ^ 128))))) ∧
      completesIn (.ctrEnc final) s { written out s with
        iv := ivWords (BitVec.ofNat 128 (((ivNumber s).toNat + (srcN s + 15) / 16) % 2 ^ 128)) } ∧
      exec (.ctrDec final) s = exec (.ctrEnc final) s

/-- 41 R270: two segments, the first a multiple of 16 bytes with FINAL = 0 and the second with FINAL = 1, give the memory and the IV
of the one command with FINAL = 1 on the whole message, when the first segment's output does not overwrite the input still to
be read. -/
def Obligations.SegmentsComposeToTheWholeMessage : Prop :=
  ∀ (p : (Bool → Instr) × (Bool → Instr)) (c : Bool → Instr) (s t t₁ t₂ : State) (k : Nat),
    p ∈ modePairs → (c = p.1 ∨ c = p.2) → s.err = .ok → k ≤ srcN s → k % 16 = 0 →
    (∀ j, k ≤ j → j < srcN s → ¬ (s.dstAddr.toNat ≤ s.srcAddr.toNat + j ∧ s.srcAddr.toNat + j < s.dstAddr.toNat + k)) →
    exec (c true) s = .next t → t.err = .ok →
    exec (c false) { s with srcLen := BitVec.ofNat 32 k } = .next t₁ → t₁.err = .ok →
    exec (c true) { t₁ with
      srcAddr := s.srcAddr + BitVec.ofNat 32 k
      srcLen := BitVec.ofNat 32 (srcN s - k)
      dstAddr := s.dstAddr + BitVec.ofNat 32 k } = .next t₂ → t₂.err = .ok →
    t₂.mem = t.mem ∧ t₂.iv = t.iv

/-- 41 R271: decrypting with FINAL = 1 what encryption with FINAL = 1 wrote, with the same key and initial IV, succeeds and writes
the plaintext. -/
def Obligations.ModesDecryptWhatTheyEncrypted : Prop :=
  ∀ (p : (Bool → Instr) × (Bool → Instr)) (s t : State) (d : Word), p ∈ modePairs → Memory.wf s.mem → s.err = .ok →
    exec (p.1 true) s = .next t → t.err = .ok → rangeOk s.platform d.toNat (srcN s) = true →
    ∃ u, exec (p.2 true) { t with srcAddr := s.dstAddr, srcLen := t.outLen, dstAddr := d, iv := s.iv } = .next u ∧
      u.err = .ok ∧ u.outLen = s.srcLen ∧ memRead u.mem d.toNat (srcN s) = srcBytes s

/-- 41 R272: for OFB and CTR the encryption command applied twice with the same key and initial IV gives the original data back. -/
def Obligations.OfbAndCtrUndoThemselves : Prop :=
  ∀ (c : Bool → Instr) (final : Bool) (s t : State) (d : Word), (c = .ofbEnc ∨ c = .ctrEnc) → Memory.wf s.mem → s.err = .ok →
    exec (c final) s = .next t → t.err = .ok → rangeOk s.platform d.toNat (srcN s) = true →
    ∃ u, exec (c final) { t with srcAddr := s.dstAddr, dstAddr := d, iv := s.iv } = .next u ∧
      u.err = .ok ∧ memRead u.mem d.toNat (srcN s) = srcBytes s ∧ u.iv = t.iv

/-! ### GCM (42 R300 to R331) -/

/-- 42 R300, R301: the product is commutative, associative and distributes over xor; 80 00..00 is one, 00..00 absorbs; the product
with x = 40 00..00 is the right shift, with e1 00..00 added when the coefficient of x^127 (integer bit 0) was 1. These fix the
product: every block is a sum of powers of x. So x^127 · x = e1 00..00. -/
def Obligations.GfProductIsTheFieldProduct : Prop :=
  (∀ x y : Block, gfMult x y = gfMult y x) ∧
  (∀ x y z : Block, gfMult (gfMult x y) z = gfMult x (gfMult y z)) ∧
  (∀ x y z : Block, gfMult (x ^^^ y) z = gfMult x z ^^^ gfMult y z) ∧
  (∀ x : Block, gfMult (BitVec.twoPow 128 127) x = x ∧ gfMult 0 x = 0) ∧
  (∀ y : Block, gfMult (BitVec.twoPow 128 126) y = if y.getLsbD 0 then (y >>> 1) ^^^ (0xE1#8 ++ 0#120) else y >>> 1) ∧
  gfMult (BitVec.twoPow 128 0) (BitVec.twoPow 128 126) = 0xE1#8 ++ 0#120

/-- 42 R303, with the distributivity of 42 R301: GHASH is the polynomial of its blocks in H, the xor over all blocks X_i of X_i
multiplied m − i times by H, for the m blocks of zpad(A), zpad(C) and the two 64-bit bit lengths. -/
def Obligations.GhashIsThePolynomialInH : Prop :=
  ∀ (h : Block) (a c : List Byte), a.length < 2 ^ 32 → c.length < 2 ^ 32 →
    let m := (a.length + 15) / 16 + (c.length + 15) / 16 + 1
    let x := fun i : Nat =>
      if i < (a.length + 15) / 16 then toBlock (piece a i ++ List.replicate (16 - (piece a i).length) 0)
      else if i < (a.length + 15) / 16 + (c.length + 15) / 16 then
        toBlock (piece c (i - (a.length + 15) / 16) ++
          List.replicate (16 - (piece c (i - (a.length + 15) / 16)).length) 0)
      else BitVec.ofNat 64 (8 * a.length) ++ BitVec.ofNat 64 (8 * c.length)
    ghash h a c = (List.range m).foldl (fun y i => y ^^^ (fun z => gfMult z h)^[m - i] (x i)) 0

/-- 42 R304: inc32 keeps the first 12 bytes and adds 1 modulo 2^32 to the last 4. -/
def Obligations.Inc32KeepsTheUpperTwelveBytes : Prop :=
  ∀ b : Block,
    (inc32 b).toNat = (b.toNat / 2 ^ 32) * 2 ^ 32 + (b.toNat % 2 ^ 32 + 1) % 2 ^ 32 ∧
    (ofBlock (inc32 b)).take 12 = (ofBlock b).take 12

/-- 42 R320, R305 to R307: GCM_ENC writes the ciphertext, whose piece i is XORed with E of the (i+1)-fold inc32 of J0, and then the tag
E(J0) xor GHASH(H, A, C). -/
def Obligations.GcmEncWritesCiphertextAndTag : Prop :=
  ∀ s : State, gcmReady s → srcN s + 16 ≤ 2 ^ 32 - 1 → dstOk s (srcN s + 16) = true →
    ∃ c : List Byte, c.length = srcN s ∧
      (∀ i < (srcN s + 15) / 16, piece c i =
        xorBytes (piece (srcBytes s) i) (ofBlock (cipherE s (inc32^[i + 1] (preCounter s))))) ∧
      completesIn .gcmEnc s
        (written (c ++ ofBlock (cipherE s (preCounter s) ^^^ ghash (cipherE s 0) (aadBytes s) c)) s)

/-- 42 R321: GCM_DEC recomputes the tag of the received ciphertext; on a match it writes the plaintext, on a mismatch it raises
AuthenticationError and writes nothing. -/
def Obligations.GcmDecChecksTheTagBeforeOutput : Prop :=
  ∀ s : State, gcmReady s → 16 ≤ srcN s → dstOk s (srcN s - 16) = true →
    let c := (srcBytes s).take (srcN s - 16)
    let tag := ofBlock (cipherE s (preCounter s) ^^^ ghash (cipherE s 0) (aadBytes s) c)
    ((srcBytes s).drop (srcN s - 16) ≠ tag → exec .gcmDec s = .next (raised .authenticationError s)) ∧
    ((srcBytes s).drop (srcN s - 16) = tag →
      ∃ p : List Byte, p.length = srcN s - 16 ∧
        (∀ i < (srcN s - 16 + 15) / 16, piece p i =
          xorBytes (piece c i) (ofBlock (cipherE s (inc32^[i + 1] (preCounter s))))) ∧
        completesIn .gcmDec s (written p s))

/-- 42 R330: GCM_DEC on what GCM_ENC wrote, with the same key, nonce and AAD still in memory, succeeds and writes the plaintext. -/
def Obligations.GcmDecryptsWhatItEncrypted : Prop :=
  ∀ (s t : State) (d : Word), Memory.wf s.mem → s.err = .ok → exec .gcmEnc s = .next t → t.err = .ok →
    aadBytes t = aadBytes s → nonceBytes t = nonceBytes s → rangeOk s.platform d.toNat (srcN s) = true →
    ∃ u, exec .gcmDec { t with srcAddr := s.dstAddr, srcLen := t.outLen, dstAddr := d } = .next u ∧
      u.err = .ok ∧ u.outLen = s.srcLen ∧ memRead u.mem d.toNat (srcN s) = srcBytes s

/-- 42 R331, R321: after GCM_ENC, any change of the 16 tag bytes (a single bit or more), all else as it was, makes GCM_DEC raise
AuthenticationError and write nothing. -/
def Obligations.GcmDetectsEveryTagChange : Prop :=
  ∀ (s t : State) (d : Word) (bad : List Byte), Memory.wf s.mem → s.err = .ok → exec .gcmEnc s = .next t →
    t.err = .ok →
    aadBytes t = aadBytes s → nonceBytes t = nonceBytes s → rangeOk s.platform d.toNat (srcN s) = true →
    bad.length = 16 → bad ≠ memRead t.mem (s.dstAddr.toNat + srcN s) 16 →
    let v := { t with
      mem := memWrite t.mem (s.dstAddr.toNat + srcN s) bad
      srcAddr := s.dstAddr
      srcLen := t.outLen
      dstAddr := d }
    aadBytes v = aadBytes s → nonceBytes v = nonceBytes s →
    exec .gcmDec v = .next (raised .authenticationError v)

/-! ### SHA-256 (43 R343 to R370) -/

/-- 43 R343: the schedule: 16 big-endian words of the block, then the recurrence. -/
def Obligations.ScheduleFollowsTheRecurrence : Prop :=
  ∀ m : List Byte, m.length = 64 →
    (schedule m).length = 64 ∧
    (∀ t < 16, ∀ j < 4, ((schedule m).getD t 0).extractLsb' (24 - 8 * j) 8 = m.getD (4 * t + j) 0) ∧
    (∀ t, 16 ≤ t → t < 64 → (schedule m).getD t 0 =
      smallSigma1 ((schedule m).getD (t - 2) 0) + (schedule m).getD (t - 7) 0 +
      smallSigma0 ((schedule m).getD (t - 15) 0) + (schedule m).getD (t - 16) 0)

/-- 43 R344: 64 rounds, each with its constant and its schedule word, from the hash words, and the sums at the end. -/
def Obligations.CompressionRunsSixtyFourRounds : Prop :=
  ∀ (h : Vector Word 8) (m : List Byte), m.length = 64 →
    ∃ v : Nat → Working,
      v 0 = ⟨h[0], h[1], h[2], h[3], h[4], h[5], h[6], h[7]⟩ ∧
      (∀ t < 64,
        let t1 := (v t).h + bigSigma1 (v t).e + shaCh (v t).e (v t).f (v t).g + roundConstants.getD t 0 + (schedule m).getD t 0
        let t2 := bigSigma0 (v t).a + shaMaj (v t).a (v t).b (v t).c
        v (t + 1) = ⟨t1 + t2, (v t).a, (v t).b, (v t).c, (v t).d + t1, (v t).e, (v t).f, (v t).g⟩) ∧
      compress h m = #v[h[0] + (v 64).a, h[1] + (v 64).b, h[2] + (v 64).c, h[3] + (v 64).d,
        h[4] + (v 64).e, h[5] + (v 64).f, h[6] + (v 64).g, h[7] + (v 64).h]

/-- 43 R345: absorbing two strings one after the other is absorbing their concatenation. -/
def Obligations.AbsorbingDoesNotDependOnTheCut : Prop :=
  ∀ (hs : HashState) (x y : List Byte), absorb (absorb hs x) y = absorb hs (x ++ y)

/-- 43 R360, R361, R345: SHA_INIT starts a fresh context in every HMODE; SHA_UPDATE absorbs SRC and touches nothing else. -/
def Obligations.ShaInitAndUpdateDriveTheContext : Prop :=
  ∀ s : State,
    exec .shaInit s = .next { s with
      busy := false, done := true, outLen := 0, hmode := .sha, opad := Vector.replicate 64 0
      hs := ⟨#v[0x6a09e667, 0xbb67ae85, 0x3c6ef372, 0xa54ff53a, 0x510e527f, 0x9b05688c, 0x1f83d9ab, 0x5be0cd19], [], 0⟩ } ∧
    (s.hmode = .sha → s.hs.bitlen.toNat + 8 * srcN s ≤ 2 ^ 64 - 1 → srcOk s = true →
      exec .shaUpdate s = .next { s with busy := false, done := true, outLen := 0, hs := absorbed s.hs (srcBytes s) })

/-- 43 R362, R346: SHA_FINAL pads BUF, compresses, writes the eight words big-endian at DST and into DIGEST, and consumes the
context. -/
def Obligations.ShaFinalWritesTheDigest : Prop :=
  ∀ s : State, s.hmode = .sha → hashBufferInv s → dstOk s 32 = true →
    (finalString s.hs).length = (if s.hs.buf.length ≤ 55 then 64 else 128) ∧
    completesIn .shaFinal s { written ((digestWords s.hs).toList.flatMap be32) s with
      digest := digestWords s.hs, hs := ⟨Vector.replicate 8 0, [], 0⟩, hmode := .none }

/-- 43 R370: SHA_INIT, an SHA_UPDATE for each of any number of chunks, and SHA_FINAL write SHA256 of the chunks' concatenation, to
memory and to DIGEST. -/
def Obligations.ShaOfChunksIsShaOfTheWhole : Prop :=
  ∀ (s s₀ t u : State) (cs : List (Word × Word)), Memory.wf s.mem → s.err = .ok → exec .shaInit s = .next s₀ →
    feed .shaUpdate cs s₀ = some t → exec .shaFinal t = .next u → u.err = .ok →
    memRead u.mem s.dstAddr.toNat 32 = sha256 (chunkBytes s.mem cs) ∧
    wordsBytes u.digest = sha256 (chunkBytes s.mem cs) ∧ u.outLen = 32 ∧ u.hmode = .none

/-! ### HMAC (44 R400 to R412) -/

/-- 44 R400: K0 has 64 bytes: a key of at most 64 bytes padded with zeros, a longer one hashed first; IPAD and OPADK are its bytes
xor 0x36 and xor 0x5c. -/
def Obligations.HmacKeyIsPreprocessed : Prop :=
  ∀ key : List Byte,
    (key.length ≤ 64 → hmacK0 key = key ++ List.replicate (64 - key.length) 0) ∧
    (64 < key.length → hmacK0 key = sha256 key ++ List.replicate 32 0) ∧
    (hmacK0 key).length = 64 ∧
    (∀ j < 64, (hmacIpad key).getD j 0 = (hmacK0 key).getD j 0 ^^^ 0x36 ∧
      (hmacOpad key).getD j 0 = (hmacK0 key).getD j 0 ^^^ 0x5c) ∧
    (hmacIpad key).length = 64 ∧ (hmacOpad key).length = 64

/-- 44 R405, R406: HMAC_INIT, legal in every HMODE, absorbs IPAD in one compression and keeps OPADK; HMAC_UPDATE absorbs SRC and
touches nothing else. -/
def Obligations.HmacInitAndUpdateDriveTheContext : Prop :=
  ∀ s : State, srcOk s = true →
    (∃ o : Vector Byte 64, o.toList = hmacOpad (srcBytes s) ∧
      exec .hmacInit s = .next { s with
        busy := false, done := true, outLen := 0, hmode := .hmac, opad := o
        hs := ⟨compress initialHash (hmacIpad (srcBytes s)), [], 512⟩ }) ∧
    (s.hmode = .hmac → s.hs.bitlen.toNat + 8 * srcN s ≤ 2 ^ 64 - 1 →
      exec .hmacUpdate s = .next { s with busy := false, done := true, outLen := 0, hs := absorbed s.hs (srcBytes s) })

/-- 44 R408: HMAC_FINAL writes SHA256(OPAD ++ digest(HS)) at DST and into DIGEST and consumes the context. -/
def Obligations.HmacFinalWritesTheTag : Prop :=
  ∀ s : State, s.hmode = .hmac → dstOk s 32 = true →
    ∃ g : Vector Word 8, wordsBytes g = sha256 (s.opad.toList ++ wordsBytes (digestWords s.hs)) ∧
      completesIn .hmacFinal s { written (wordsBytes g) s with
        digest := g, hs := ⟨Vector.replicate 8 0, [], 0⟩, opad := Vector.replicate 64 0, hmode := .none }

/-- 44 R410: HMAC_VERIFY sets VERIFY_OK exactly when the 32 bytes at SRC are the tag, with ERR unchanged either way; it consumes the
context and writes neither memory nor DIGEST. -/
def Obligations.HmacVerifyComparesTheTag : Prop :=
  ∀ s : State, s.hmode = .hmac → srcN s = 32 → srcOk s = true →
    ∃ t, exec .hmacVerify s = .next t ∧
      (t.verifyOk = true ↔ srcBytes s = sha256 (s.opad.toList ++ wordsBytes (digestWords s.hs))) ∧
      t = { s with
        busy := false, done := true, outLen := 0, verifyOk := t.verifyOk
        hs := ⟨Vector.replicate 8 0, [], 0⟩, opad := Vector.replicate 64 0, hmode := .none }

/-- 44 R412, R401: HMAC_INIT with a key, an HMAC_UPDATE for each chunk, and HMAC_FINAL write HMAC(key, chunks' concatenation);
HMAC_VERIFY instead sets VERIFY_OK exactly when the expected tag is that value. -/
def Obligations.HmacSequenceComputesHmac : Prop :=
  ∀ (s s₀ t : State) (cs : List (Word × Word)), Memory.wf s.mem → s.err = .ok → exec .hmacInit s = .next s₀ →
    s₀.err = .ok →
    feed .hmacUpdate cs s₀ = some t →
    (∀ u, exec .hmacFinal t = .next u → u.err = .ok →
      memRead u.mem s.dstAddr.toNat 32 = hmac (srcBytes s) (chunkBytes s.mem cs)) ∧
    (∀ u a, exec .hmacVerify { t with srcAddr := a, srcLen := 32 } = .next u → u.err = .ok →
      (u.verifyOk = true ↔ memRead s.mem a.toNat 32 = hmac (srcBytes s) (chunkBytes s.mem cs)))

/-! ### CLEAR and the independence of the units (40 R192, R195) -/

/-- 40 R195: CLEAR zeroes the key, IV, IVW, DIGEST and the hash context, and changes nothing else but the completion flags and
OUT_LEN. -/
def Obligations.ClearErasesEverySecret : Prop :=
  ∀ s : State,
    exec .clear s = .next { s with
      busy := false, done := true, outLen := 0
      key := Vector.replicate 8 0, iv := Vector.replicate 4 0, ivw := 0, digest := Vector.replicate 8 0
      hs := ⟨Vector.replicate 8 0, [], 0⟩, hmode := .none, opad := Vector.replicate 64 0 }

/-- 40 R192: mode and GCM commands give the same result whatever the hash unit holds and leave it alone; hash and HMAC commands give
the same result whatever the key, KEYSZ and IV are and leave them alone. -/
def Obligations.CipherAndHashUnitsAreIndependent : Prop :=
  ∀ (i : Instr) (s t : State), exec i s = .next t →
    (opNumber i ≤ 0x11 → ∀ (h : HashState) (m : HMode) (o : Vector Byte 64) (d : Vector Word 8),
      exec i { s with hs := h, hmode := m, opad := o, digest := d } =
        .next { t with hs := h, hmode := m, opad := o, digest := d }) ∧
    (0x20 ≤ opNumber i → opNumber i ≤ 0x2B → ∀ (k : Vector Word 8) (z : BitVec 2) (v : Vector Word 4) (w : BitVec 4),
      exec i { s with key := k, keysz := z, iv := v, ivw := w } = .next { t with key := k, keysz := z, iv := v, ivw := w })
end

