-- ==== Sys2Proof/Laws/Bytes.lean ====
section
/-! SUPPORT. What the byte-string operations of Ops.lean do (00 R10 to R14): big-endian numbers, pieces, xor, tag comparison. -/

namespace Sys2Proof.Machine

/-! ### Big-endian numbers -/

@[simp] theorem zeros_length (n : Nat) : (zeros n).length = n := by simp [zeros]

@[simp] theorem beBytes_length (k v : Nat) : (beBytes k v).length = k := by
  induction k with
  | zero => rfl
  | succ k ih => simp [beBytes, ih]

@[simp] theorem be32_length (w : Word) : (be32 w).length = 4 := by simp [be32]

@[simp] theorem be64_length (v : Nat) : (be64 v).length = 8 := by simp [be64]

@[simp] theorem ofBlock_length (b : Block) : (ofBlock b).length = 16 := by simp [ofBlock]

@[simp] theorem intBE_nil : intBE [] = 0 := rfl

theorem intBE_foldl (bs : List Byte) (n : Nat) :
    bs.foldl (fun acc b => acc * 256 + b.toNat) n = n * 256 ^ bs.length + intBE bs := by
  induction bs generalizing n with
  | nil => simp
  | cons b bs ih =>
    have h0 := ih (0 * 256 + b.toNat)
    simp only [intBE, List.foldl_cons, List.length_cons] at *
    rw [ih (n * 256 + b.toNat), h0]
    ring

theorem intBE_cons (b : Byte) (bs : List Byte) : intBE (b :: bs) = b.toNat * 256 ^ bs.length + intBE bs := by
  have h := intBE_foldl bs (0 * 256 + b.toNat)
  simpa [intBE] using h

theorem intBE_append (a b : List Byte) : intBE (a ++ b) = intBE a * 256 ^ b.length + intBE b := by
  have h := intBE_foldl b (intBE a)
  simpa [intBE, List.foldl_append] using h

theorem intBE_lt (bs : List Byte) : intBE bs < 256 ^ bs.length := by
  induction bs with
  | nil => simp
  | cons b bs ih =>
    rw [intBE_cons, List.length_cons, pow_succ]
    have hb : b.toNat < 256 := b.isLt
    nlinarith [Nat.zero_le (256 ^ bs.length)]

theorem intBE_beBytes (k v : Nat) : intBE (beBytes k v) = v % 256 ^ k := by
  induction k with
  | zero => simp [beBytes, Nat.mod_one]
  | succ k ih =>
    have h := Nat.mod_mul (x := v) (a := 256 ^ k) (b := 256)
    rw [beBytes, intBE_cons, ih, beBytes_length, BitVec.toNat_ofNat, pow_succ 256 k, h]
    norm_num
    ring

/-- A string is the big-endian string of its own number. -/
theorem beBytes_mod (k v : Nat) : beBytes k (v % 256 ^ k) = beBytes k v := by
  have aux : ∀ j, j ≤ k → beBytes j (v % 256 ^ k) = beBytes j v := by
    intro j
    induction j with
    | zero => intro _; rfl
    | succ j ih =>
      intro hj
      rw [beBytes, beBytes, ih (by omega)]
      congr 1
      apply BitVec.eq_of_toNat_eq
      simp only [BitVec.toNat_ofNat]
      obtain ⟨d, rfl⟩ : ∃ d, k = j + (1 + d) := ⟨k - j - 1, by omega⟩
      rw [pow_add, Nat.mod_mul_right_div_self, pow_add, pow_one, show (2 : Nat) ^ 8 = 256 from rfl,
        Nat.mod_mul_right_mod]
  exact aux k (le_refl k)

theorem beBytes_add (k v n : Nat) : beBytes k (n * 256 ^ k + v) = beBytes k v := by
  rw [← beBytes_mod k (n * 256 ^ k + v), Nat.mul_add_mod_self_right, beBytes_mod]

theorem beBytes_intBE (bs : List Byte) : beBytes bs.length (intBE bs) = bs := by
  induction bs with
  | nil => rfl
  | cons b bs ih =>
    rw [List.length_cons, beBytes, intBE_cons, beBytes_add, ih]
    congr 1
    apply BitVec.eq_of_toNat_eq
    rw [BitVec.toNat_ofNat]
    have h1 : (b.toNat * 256 ^ bs.length + intBE bs) / 256 ^ bs.length = b.toNat := by
      rw [mul_comm, Nat.mul_add_div (by positivity), Nat.div_eq_of_lt (intBE_lt bs), Nat.add_zero]
    rw [h1]
    exact Nat.mod_eq_of_lt b.isLt

theorem beBytes_add_length (k j v : Nat) : beBytes (k + j) v = beBytes k (v / 256 ^ j) ++ beBytes j v := by
  induction k with
  | zero => simp [beBytes]
  | succ k ih =>
    rw [Nat.succ_add_eq_add_succ k j] at *
    rw [show k + j.succ = (k + j) + 1 from rfl, beBytes, beBytes, ih, List.cons_append]
    congr 2
    rw [Nat.div_div_eq_div_mul, ← pow_add, Nat.add_comm k j]

theorem beBytes_getD (k v j : Nat) (h : j < k) :
    (beBytes k v).getD j 0 = BitVec.ofNat 8 (v / 256 ^ (k - 1 - j)) := by
  induction k generalizing j with
  | zero => omega
  | succ k ih =>
    cases j with
    | zero => simp [beBytes]
    | succ j =>
      rw [beBytes, List.getD_cons_succ, ih j (by omega)]
      congr 3
      omega

@[simp] theorem toBlock_ofBlock (b : Block) : toBlock (ofBlock b) = b := by
  apply BitVec.eq_of_toNat_eq
  rw [toBlock, ofBlock, intBE_beBytes, BitVec.toNat_ofNat]
  have := b.isLt
  rw [show (256 : Nat) ^ 16 = 2 ^ 128 by norm_num, Nat.mod_mod, Nat.mod_eq_of_lt this]

theorem ofBlock_toBlock {bs : List Byte} (h : bs.length = 16) : ofBlock (toBlock bs) = bs := by
  rw [ofBlock, toBlock, BitVec.toNat_ofNat, show (2 : Nat) ^ 128 = 256 ^ 16 by norm_num, beBytes_mod, ← h, beBytes_intBE]

theorem ofBlock_injective {a b : Block} (h : ofBlock a = ofBlock b) : a = b := by
  rw [← toBlock_ofBlock a, h, toBlock_ofBlock]

@[simp] theorem wordBE_be32 (w : Word) : wordBE (be32 w) = w := by
  apply BitVec.eq_of_toNat_eq
  rw [wordBE, be32, intBE_beBytes, BitVec.toNat_ofNat]
  have := w.isLt
  rw [show (256 : Nat) ^ 4 = 2 ^ 32 by norm_num, Nat.mod_mod, Nat.mod_eq_of_lt this]

theorem be32_wordBE {bs : List Byte} (h : bs.length = 4) : be32 (wordBE bs) = bs := by
  rw [be32, wordBE, BitVec.toNat_ofNat, show (2 : Nat) ^ 32 = 256 ^ 4 by norm_num, beBytes_mod, ← h, beBytes_intBE]

theorem ofNat8_div (w : Nat) (x : BitVec w) (k : Nat) : BitVec.ofNat 8 (x.toNat / 256 ^ k) = x.extractLsb' (8 * k) 8 := by
  apply BitVec.eq_of_toNat_eq
  rw [BitVec.toNat_ofNat, BitVec.extractLsb'_toNat, Nat.shiftRight_eq_div_pow, pow_mul]
  norm_num

/-- Byte j of `BE32(w)` is bits 31 − 8j .. 24 − 8j of w (20 R102). -/
theorem be32_getD (w : Word) (j : Nat) (h : j < 4) : (be32 w).getD j 0 = w.extractLsb' (24 - 8 * j) 8 := by
  rw [be32, beBytes_getD _ _ _ h, ofNat8_div]
  congr 1
  omega

/-- `BE128` of two 64-bit halves, for example the GHASH length block (42 R303). -/
theorem toBlock_be64_append (a b : Nat) : toBlock (be64 a ++ be64 b) = BitVec.ofNat 64 a ++ BitVec.ofNat 64 b := by
  apply BitVec.eq_of_toNat_eq
  rw [toBlock, BitVec.toNat_ofNat, intBE_append, be64_length, be64, be64, intBE_beBytes, intBE_beBytes,
    BitVec.toNat_append, BitVec.toNat_ofNat, BitVec.toNat_ofNat, show (256 : Nat) ^ 8 = 2 ^ 64 by norm_num,
    Nat.shiftLeft_eq]
  have h1 := Nat.mod_lt a (show 0 < 2 ^ 64 by norm_num)
  have h2 := Nat.mod_lt b (show 0 < 2 ^ 64 by norm_num)
  rw [Nat.mod_eq_of_lt (by omega), mul_comm, Nat.two_pow_add_eq_or_of_lt h2, mul_comm]

/-! ### Words in strings (20 R102) -/

theorem flatMap_be32_length (ws : List Word) : (ws.flatMap be32).length = 4 * ws.length := by
  induction ws with
  | nil => rfl
  | cons w ws ih => simp [ih]; omega

@[simp] theorem wordsBytes_length (v : Vector Word 8) : (wordsBytes v).length = 32 := by
  rw [wordsBytes, flatMap_be32_length, Vector.length_toList]

theorem flatMap_be32_drop (ws : List Word) (k : Nat) : (ws.flatMap be32).drop (4 * k) = (ws.drop k).flatMap be32 := by
  induction k generalizing ws with
  | zero => simp
  | succ k ih =>
    cases ws with
    | nil => simp
    | cons w ws =>
      rw [List.flatMap_cons, List.drop_succ_cons, ← ih,
        show 4 * (k + 1) = (be32 w).length + 4 * k by rw [be32_length]; omega, List.drop_append]
      simp

theorem wordAt_flatMap (ws : List Word) (k : Nat) (h : k < ws.length) : wordAt (ws.flatMap be32) k = ws[k] := by
  rw [wordAt, flatMap_be32_drop, List.drop_eq_getElem_cons h, List.flatMap_cons, List.take_append_of_le_length (by simp),
    List.take_of_length_le (by simp), wordBE_be32]

theorem bytesWords_wordsBytes (v : Vector Word 8) : bytesWords (wordsBytes v) = v := by
  have h : ∀ k (hk : k < 8), wordAt (wordsBytes v) k = v[k] := by
    intro k hk
    rw [wordsBytes, wordAt_flatMap _ _ (by simpa using hk)]
    simp
  rw [bytesWords, h 0 (by omega), h 1 (by omega), h 2 (by omega), h 3 (by omega), h 4 (by omega), h 5 (by omega),
    h 6 (by omega), h 7 (by omega)]
  apply Vector.ext
  intro i hi
  match i, hi with
  | 0, _ | 1, _ | 2, _ | 3, _ | 4, _ | 5, _ | 6, _ | 7, _ => rfl

theorem be32_wordAt (bs : List Byte) (k : Nat) (h : 4 * k + 4 ≤ bs.length) :
    be32 (wordAt bs k) = (bs.drop (4 * k)).take 4 := by
  rw [wordAt, be32_wordBE]
  rw [List.length_take, List.length_drop]
  omega

theorem take_four_append (bs : List Byte) (k : Nat) :
    (bs.drop (4 * k)).take 4 ++ bs.drop (4 * (k + 1)) = bs.drop (4 * k) := by
  have h := List.take_append_drop 4 (bs.drop (4 * k))
  rw [List.drop_drop] at h
  exact h

theorem wordsBytes_bytesWords {bs : List Byte} (h : bs.length = 32) : wordsBytes (bytesWords bs) = bs := by
  have e : wordsBytes (bytesWords bs) = be32 (wordAt bs 0) ++ (be32 (wordAt bs 1) ++ (be32 (wordAt bs 2) ++
    (be32 (wordAt bs 3) ++ (be32 (wordAt bs 4) ++ (be32 (wordAt bs 5) ++ (be32 (wordAt bs 6) ++
    (be32 (wordAt bs 7) ++ []))))))) := rfl
  have e8 : ([] : List Byte) = bs.drop (4 * (7 + 1)) := by
    rw [List.drop_eq_nil_of_le (by omega)]
  rw [e, e8, be32_wordAt bs 7 (by omega), take_four_append bs 7, be32_wordAt bs 6 (by omega), take_four_append bs 6,
    be32_wordAt bs 5 (by omega), take_four_append bs 5, be32_wordAt bs 4 (by omega), take_four_append bs 4,
    be32_wordAt bs 3 (by omega), take_four_append bs 3, be32_wordAt bs 2 (by omega), take_four_append bs 2,
    be32_wordAt bs 1 (by omega), take_four_append bs 1, be32_wordAt bs 0 (by omega), take_four_append bs 0]
  rfl

theorem toPad64_toList {bs : List Byte} (h : bs.length = 64) : (toPad64 bs).toList = bs := by
  simp [toPad64, Vector.toList, List.take_append_of_le_length (le_of_eq h.symm), List.take_of_length_le (le_of_eq h)]

/-! ### The IV registers (10 R46) -/

@[simp] theorem ivBytes_length (s : State) : (ivBytes s).length = 16 := by
  rw [ivBytes, flatMap_be32_length, Vector.length_toList]

/-- The number of four words, the first most significant. -/
theorem toBlock_four (a b c d : Word) :
    (toBlock ([a, b, c, d].flatMap be32)).toNat =
      a.toNat * 2 ^ 96 + b.toNat * 2 ^ 64 + c.toNat * 2 ^ 32 + d.toNat := by
  have h : ∀ w : Word, intBE (be32 w) = w.toNat := by
    intro w
    rw [be32, intBE_beBytes]
    exact Nat.mod_eq_of_lt w.isLt
  have e : [a, b, c, d].flatMap be32 = be32 a ++ (be32 b ++ (be32 c ++ (be32 d ++ []))) := rfl
  rw [toBlock, BitVec.toNat_ofNat, e, intBE_append, intBE_append, intBE_append, intBE_append]
  simp only [h, List.length_append, be32_length, List.length_nil, intBE_nil]
  have ha := a.isLt
  have hb := b.isLt
  have hc := c.isLt
  have hd := d.isLt
  norm_num
  omega

theorem toList_four (v : Vector Word 4) : v.toList = [v[0], v[1], v[2], v[3]] := by
  apply List.ext_getElem
  · simp
  · intro i h1 h2
    have : i < 4 := by simpa using h1
    match i, this with
    | 0, _ | 1, _ | 2, _ | 3, _ => simp

theorem ivBlock_toNat (s : State) :
    (ivBlock s).toNat = s.iv[0].toNat * 2 ^ 96 + s.iv[1].toNat * 2 ^ 64 + s.iv[2].toNat * 2 ^ 32 + s.iv[3].toNat := by
  rw [ivBlock, ivBytes, toList_four, toBlock_four]

theorem ivBlock_eq_append (s : State) : ivBlock s = s.iv[0] ++ s.iv[1] ++ s.iv[2] ++ s.iv[3] := by
  apply BitVec.eq_of_toNat_eq
  rw [ivBlock_toNat]
  have h1 := s.iv[1].isLt
  have h2 := s.iv[2].isLt
  have h3 := s.iv[3].isLt
  rw [BitVec.toNat_append, ← Nat.shiftLeft_add_eq_or_of_lt h3, BitVec.toNat_append, ← Nat.shiftLeft_add_eq_or_of_lt h2,
    BitVec.toNat_append, ← Nat.shiftLeft_add_eq_or_of_lt h1]
  simp only [Nat.shiftLeft_eq]
  ring

theorem wordAt_ofBlock (v : Block) (k : Nat) (h : k < 4) : wordAt (ofBlock v) k = v.extractLsb' (96 - 32 * k) 32 := by
  have e : ofBlock v = (beBytes (4 * k) (v.toNat / 256 ^ (16 - 4 * k))) ++
      (beBytes 4 (v.toNat / 256 ^ (12 - 4 * k)) ++ beBytes (12 - 4 * k) v.toNat) := by
    rw [ofBlock, ← beBytes_add_length]
    rw [show 4 + (12 - 4 * k) = 16 - 4 * k by omega, ← beBytes_add_length]
    congr 1
    omega
  rw [wordAt, e, List.drop_append_of_le_length (by simp), List.drop_of_length_le (by simp), List.nil_append,
    List.take_append_of_le_length (by simp), List.take_of_length_le (by simp), wordBE, intBE_beBytes]
  apply BitVec.eq_of_toNat_eq
  rw [BitVec.toNat_ofNat, BitVec.extractLsb'_toNat, Nat.shiftRight_eq_div_pow, show (256 : Nat) ^ 4 = 2 ^ 32 by norm_num,
    Nat.mod_mod, show (256 : Nat) ^ (12 - 4 * k) = 2 ^ (96 - 32 * k) by
      rw [show (256 : Nat) = 2 ^ 8 by norm_num, ← pow_mul]
      congr 1
      omega]

@[simp] theorem ivBlock_setIv (v : Block) (s : State) : ivBlock (setIv v s) = v := by
  have e : ivBytes (setIv v s) = be32 (wordAt (ofBlock v) 0) ++ (be32 (wordAt (ofBlock v) 1) ++
      (be32 (wordAt (ofBlock v) 2) ++ (be32 (wordAt (ofBlock v) 3) ++ []))) := rfl
  have e4 : ([] : List Byte) = (ofBlock v).drop (4 * (3 + 1)) := by
    rw [List.drop_eq_nil_of_le (by simp)]
  rw [ivBlock, e, e4, be32_wordAt _ 3 (by simp), take_four_append _ 3, be32_wordAt _ 2 (by simp), take_four_append _ 2,
    be32_wordAt _ 1 (by simp), take_four_append _ 1, be32_wordAt _ 0 (by simp), take_four_append _ 0]
  simp

theorem setIv_ivBlock (s : State) : setIv (ivBlock s) s = s := by
  have h : ∀ k (hk : k < 4), wordAt (ofBlock (ivBlock s)) k = s.iv[k] := by
    intro k hk
    rw [ivBlock, ofBlock_toBlock (ivBytes_length s), ivBytes, wordAt_flatMap _ _ (by simpa using hk)]
    simp
  have hv : #v[wordAt (ofBlock (ivBlock s)) 0, wordAt (ofBlock (ivBlock s)) 1, wordAt (ofBlock (ivBlock s)) 2,
      wordAt (ofBlock (ivBlock s)) 3] = s.iv := by
    rw [h 0 (by omega), h 1 (by omega), h 2 (by omega), h 3 (by omega)]
    apply Vector.ext
    intro i hi
    match i, hi with
    | 0, _ | 1, _ | 2, _ | 3, _ => rfl
  rw [setIv, hv]

/-! ### Pieces (00 R14) -/

@[simp] theorem pieces_length (m k : Nat) (bs : List Byte) : (pieces m k bs).length = k := by
  induction k generalizing bs with
  | zero => rfl
  | succ k ih => simp [pieces, ih]

theorem pieces_getElem (m k : Nat) (bs : List Byte) (i : Nat) (h : i < (pieces m k bs).length) :
    (pieces m k bs)[i] = (bs.drop (m * i)).take m := by
  induction k generalizing bs i with
  | zero => simp [pieces] at h
  | succ k ih =>
    cases i with
    | zero => simp [pieces]
    | succ i =>
      simp only [pieces, List.getElem_cons_succ]
      rw [ih, List.drop_drop]
      congr 2
      ring

theorem pieces_append_of_length (m k j : Nat) (a b : List Byte) (h : a.length = m * k) :
    pieces m (k + j) (a ++ b) = pieces m k a ++ pieces m j b := by
  induction k generalizing a with
  | zero =>
    have : a = [] := List.length_eq_zero_iff.mp (by simpa using h)
    subst this
    simp [pieces]
  | succ k ih =>
    have hm : m ≤ a.length := by rw [h]; nlinarith
    rw [show k + 1 + j = (k + j) + 1 by omega, pieces, pieces, List.take_append_of_le_length hm,
      List.drop_append_of_le_length hm, ih (a.drop m) (by rw [List.length_drop, h]; simp [Nat.mul_add]), List.cons_append]

theorem pieces_flatten (m k : Nat) (bs : List Byte) : (pieces m k bs).flatten = bs.take (m * k) := by
  induction k generalizing bs with
  | zero => simp [pieces]
  | succ k ih => rw [pieces, List.flatten_cons, ih, Nat.mul_add, mul_one, Nat.add_comm, List.take_add]

@[simp] theorem blocks_nil : blocks [] = [] := rfl

@[simp] theorem blocks_length (bs : List Byte) : (blocks bs).length = (bs.length + 15) / 16 := by simp [blocks]

/-- The first piece and the pieces of the rest. -/
theorem blocks_of_ne_nil {bs : List Byte} (h : bs ≠ []) : blocks bs = bs.take 16 :: blocks (bs.drop 16) := by
  have hp : 0 < bs.length := List.length_pos_iff.mpr h
  rw [blocks, show (bs.length + 15) / 16 = ((bs.drop 16).length + 15) / 16 + 1 by rw [List.length_drop]; omega, pieces,
    blocks]

theorem blocks_cons {p bs : List Byte} (h : p.length = 16) : blocks (p ++ bs) = p :: blocks bs := by
  have hne : p ++ bs ≠ [] := by
    intro h0
    have := congrArg List.length h0
    simp [h] at this
  rw [blocks_of_ne_nil hne, List.take_append_of_le_length (le_of_eq h.symm), List.take_of_length_le (le_of_eq h),
    List.drop_append_of_le_length (le_of_eq h.symm), List.drop_of_length_le (le_of_eq h), List.nil_append]

/-- A string of 1 to 16 bytes is one piece. -/
theorem blocks_short {p : List Byte} (h : p ≠ []) (h16 : p.length ≤ 16) : blocks p = [p] := by
  rw [blocks_of_ne_nil h, List.take_of_length_le h16, List.drop_of_length_le h16, blocks_nil]

/-- Cutting a string at a multiple of 16 cuts its pieces (41 R230). -/
theorem blocks_append {a b : List Byte} (h : a.length % 16 = 0) : blocks (a ++ b) = blocks a ++ blocks b := by
  rw [blocks, blocks, blocks, List.length_append,
    show (a.length + b.length + 15) / 16 = a.length / 16 + (b.length + 15) / 16 by omega,
    show (a.length + 15) / 16 = a.length / 16 by omega]
  exact pieces_append_of_length 16 _ _ a b (by omega)

theorem blocks_flatten (bs : List Byte) : (blocks bs).flatten = bs := by
  rw [blocks, pieces_flatten, List.take_of_length_le (by omega)]

theorem blocks_getElem (bs : List Byte) (i : Nat) (h : i < (blocks bs).length) :
    (blocks bs)[i] = (bs.drop (16 * i)).take 16 := by
  simp only [blocks] at h ⊢
  exact pieces_getElem 16 _ bs i h

/-- Induction over the pieces of a string: a last piece of fewer than 16 bytes, or a whole piece in front. -/
theorem blocks_induction {motive : List Byte → Prop} (nil : motive [])
    (last : ∀ p, p ≠ [] → p.length < 16 → motive p)
    (whole : ∀ p bs, p.length = 16 → motive bs → motive (p ++ bs)) (bs : List Byte) : motive bs := by
  induction hn : bs.length using Nat.strong_induction_on generalizing bs with
  | _ n ih =>
    by_cases h0 : bs = []
    · exact h0 ▸ nil
    · by_cases h16 : bs.length < 16
      · exact last bs h0 h16
      · have e := List.take_append_drop 16 bs
        rw [← e]
        exact whole _ _ (by rw [List.length_take]; omega)
          (ih (bs.drop 16).length (by rw [List.length_drop]; omega) (bs.drop 16) rfl)

/-! ### Xor and tag comparison (00 R12, 42 R308) -/

@[simp] theorem xorBytes_length (x s : List Byte) : (xorBytes x s).length = min x.length s.length := by
  simp [xorBytes]

@[simp] theorem xorBytes_nil (s : List Byte) : xorBytes [] s = [] := by simp [xorBytes]

/-- Xoring the same string again gives the first string back (41 R272). -/
theorem xorBytes_cancel {x s : List Byte} (h : x.length ≤ s.length) : xorBytes (xorBytes x s) s = x := by
  induction x generalizing s with
  | nil => simp [xorBytes]
  | cons b x ih =>
    cases s with
    | nil => simp at h
    | cons c s =>
      have := ih (s := s) (by simpa using h)
      simp only [xorBytes, List.zipWith_cons_cons] at this ⊢
      rw [this, BitVec.xor_assoc, BitVec.xor_self, BitVec.xor_zero]

theorem or_eq_zero {a b : Byte} : a ||| b = 0 ↔ a = 0 ∧ b = 0 := by
  constructor
  · intro h
    constructor <;>
    · apply BitVec.eq_of_getLsbD_eq
      intro i hi
      have := congrArg (fun v => v.getLsbD i) h
      simp at this ⊢
      simp [this]
  · rintro ⟨rfl, rfl⟩
    simp

theorem xor_eq_zero {a b : Byte} : a ^^^ b = 0 ↔ a = b := by
  constructor
  · intro h
    have := congrArg (· ^^^ b) h
    simpa [BitVec.xor_assoc] using this
  · rintro rfl
    simp

theorem foldl_or_eq_zero (l : List Byte) (x : Byte) : l.foldl (· ||| ·) x = 0 ↔ x = 0 ∧ ∀ b ∈ l, b = 0 := by
  induction l generalizing x with
  | nil => simp
  | cons b l ih =>
    rw [List.foldl_cons, ih, or_eq_zero]
    simp [and_assoc]

/-- The comparison of equal-length strings is equality (42 R308). -/
theorem tagEqual_iff {t u : List Byte} (h : t.length = u.length) : tagEqual t u = true ↔ t = u := by
  rw [tagEqual, beq_iff_eq, foldl_or_eq_zero]
  simp only [true_and]
  induction t generalizing u with
  | nil =>
    cases u with
    | nil => simp [xorBytes]
    | cons c u => simp at h
  | cons b t ih =>
    cases u with
    | nil => simp at h
    | cons c u =>
      have := ih (u := u) (by simpa using h)
      simp only [xorBytes, List.zipWith_cons_cons, List.mem_cons, forall_eq_or_imp, xor_eq_zero, List.cons.injEq] at this ⊢
      rw [this]

end Sys2Proof.Machine
end

