-- ==== Sys2Proof/Laws/Memory.lean ====
section
/-! SUPPORT. What the memory operations do (20 R101): read after write, frames, ranges, and that every write keeps the canonical
form. -/

namespace Sys2Proof.Machine

/-! ### One byte -/

theorem readByte_cons (c : Host.Cell) (m : Memory) (a : Nat) :
    readByte (c :: m) a = if c.1 = a then c.2 else readByte m a := rfl

theorem readByte_of_forall_ne {m : Memory} {a : Nat} (h : ∀ c ∈ m, c.1 ≠ a) : readByte m a = memDefault := by
  induction m with
  | nil => rfl
  | cons c m ih =>
    rw [readByte_cons, if_neg (h c (by simp)), ih fun d hd => h d (by simp [hd])]

theorem readByte_of_mem {m : Memory} {c : Host.Cell} (hm : m.Pairwise fun c d => c.1 < d.1) (h : c ∈ m) :
    readByte m c.1 = c.2 := by
  induction m with
  | nil => simp at h
  | cons d m ih =>
    rw [List.pairwise_cons] at hm
    rcases List.mem_cons.mp h with rfl | h'
    · simp [readByte_cons]
    · rw [readByte_cons, if_neg (by have := hm.1 c h'; omega), ih hm.2 h']

theorem readByte_consByte_ne {m : Memory} {a x : Nat} {b : Byte} (h : x ≠ a) :
    readByte (consByte a b m) x = readByte m x := by
  unfold consByte
  split
  · rfl
  · rw [readByte_cons, if_neg (by simpa using Ne.symm h)]

theorem readByte_consByte_self {m : Memory} {a : Nat} {b : Byte} (h : ∀ c ∈ m, a < c.1) :
    readByte (consByte a b m) a = b := by
  unfold consByte
  split
  · next hb => rw [hb, readByte_of_forall_ne fun c hc => by have := h c hc; omega]
  · simp [readByte_cons]

/-- A store leaves every other address alone. -/
theorem readByte_writeByte_ne {m : Memory} {a x : Nat} {b : Byte} (h : x ≠ a) :
    readByte (writeByte m a b) x = readByte m x := by
  induction m with
  | nil => exact readByte_consByte_ne h
  | cons c m ih =>
    unfold writeByte
    split_ifs with h1 h2
    · exact readByte_consByte_ne h
    · rw [readByte_consByte_ne h, readByte_cons, if_neg (by omega)]
    · rw [readByte_cons, readByte_cons, ih]

/-- A store is read back, from a memory whose addresses rise. -/
theorem readByte_writeByte_self {m : Memory} (hm : m.Pairwise fun c d => c.1 < d.1) (a : Nat) (b : Byte) :
    readByte (writeByte m a b) a = b := by
  induction m with
  | nil => exact readByte_consByte_self (by simp)
  | cons c m ih =>
    rw [List.pairwise_cons] at hm
    unfold writeByte
    split_ifs with h1 h2
    · refine readByte_consByte_self fun d hd => ?_
      rcases List.mem_cons.mp hd with rfl | hd
      · exact h1
      · have := hm.1 d hd
        omega
    · exact readByte_consByte_self fun d hd => by have := hm.1 d hd; omega
    · rw [readByte_cons, if_neg (by omega), ih hm.2]

/-! ### The canonical form -/

theorem mem_consByte {a : Nat} {b : Byte} {m : Memory} {d : Host.Cell} (h : d ∈ consByte a b m) :
    (d = (a, b) ∧ b ≠ memDefault) ∨ d ∈ m := by
  unfold consByte at h
  split at h
  · exact .inr h
  · next hb =>
    rcases List.mem_cons.mp h with rfl | h
    · exact .inl ⟨rfl, hb⟩
    · exact .inr h

theorem mem_writeByte {a : Nat} {b : Byte} {m : Memory} {d : Host.Cell} (h : d ∈ writeByte m a b) :
    (d = (a, b) ∧ b ≠ memDefault) ∨ d ∈ m := by
  induction m with
  | nil => exact mem_consByte h
  | cons c m ih =>
    unfold writeByte at h
    split_ifs at h with h1 h2
    · exact mem_consByte h
    · rcases mem_consByte h with h | h
      · exact .inl h
      · exact .inr (by simp [h])
    · rcases List.mem_cons.mp h with rfl | h
      · exact .inr (by simp)
      · rcases ih h with h | h
        · exact .inl h
        · exact .inr (by simp [h])

theorem consByte_pairwise {a : Nat} {b : Byte} {m : Memory} (hm : m.Pairwise fun c d => c.1 < d.1)
    (h : ∀ c ∈ m, a < c.1) : (consByte a b m).Pairwise fun c d => c.1 < d.1 := by
  unfold consByte
  split
  · exact hm
  · exact List.pairwise_cons.mpr ⟨h, hm⟩

theorem writeByte_pairwise {m : Memory} (hm : m.Pairwise fun c d => c.1 < d.1) (a : Nat) (b : Byte) :
    (writeByte m a b).Pairwise fun c d => c.1 < d.1 := by
  induction m with
  | nil => exact consByte_pairwise hm (by simp)
  | cons c m ih =>
    have hc := List.pairwise_cons.mp hm
    unfold writeByte
    split_ifs with h1 h2
    · refine consByte_pairwise hm fun d hd => ?_
      rcases List.mem_cons.mp hd with rfl | hd
      · exact h1
      · have := hc.1 d hd
        omega
    · exact consByte_pairwise hc.2 fun d hd => by have := hc.1 d hd; omega
    · refine List.pairwise_cons.mpr ⟨fun d hd => ?_, ih hc.2⟩
      rcases mem_writeByte hd with ⟨rfl, _⟩ | hd
      · simp only
        omega
      · exact hc.1 d hd

/-- Storing a byte inside the address space keeps the canonical form. -/
theorem writeByte_wf {m : Memory} (hm : Memory.wf m) {a : Nat} (ha : a < addressSpace) (b : Byte) :
    Memory.wf (writeByte m a b) := by
  refine ⟨writeByte_pairwise hm.1 a b, fun d hd => ?_⟩
  rcases mem_writeByte hd with ⟨rfl, hb⟩ | hd
  · exact ⟨hb, ha⟩
  · exact hm.2 d hd

/-- Storing a string inside the address space keeps the canonical form. -/
theorem memWrite_wf {m : Memory} (hm : Memory.wf m) {a : Nat} {bs : List Byte} (h : a + bs.length ≤ addressSpace) :
    Memory.wf (memWrite m a bs) := by
  induction bs generalizing m a with
  | nil => exact hm
  | cons b bs ih =>
    rw [List.length_cons] at h
    exact ih (writeByte_wf hm (by omega) b) (by omega)

theorem memWrite_pairwise {m : Memory} (hm : m.Pairwise fun c d => c.1 < d.1) (a : Nat) (bs : List Byte) :
    (memWrite m a bs).Pairwise fun c d => c.1 < d.1 := by
  induction bs generalizing m a with
  | nil => exact hm
  | cons b bs ih => exact ih (writeByte_pairwise hm a b) (a + 1)

/-- Memories in canonical form that read alike at every address are equal. -/
theorem Memory.wf_ext {m n : Memory} (hm : Memory.wf m) (hn : Memory.wf n) (h : ∀ a, readByte m a = readByte n a) :
    m = n := by
  have key : ∀ (m n : Memory), Memory.wf m → Memory.wf n → (∀ a, readByte m a = readByte n a) → ∀ c ∈ m, c ∈ n := by
    intro m n hm hn h c hc
    by_contra hcn
    have h1 := readByte_of_mem hm.1 hc
    rw [h c.1] at h1
    by_cases he : ∃ d ∈ n, d.1 = c.1
    · obtain ⟨d, hd, hd1⟩ := he
      have h2 := readByte_of_mem hn.1 hd
      rw [hd1, h1] at h2
      exact hcn (by rw [show c = d from Prod.ext hd1.symm h2]; exact hd)
    · rw [readByte_of_forall_ne fun d hd hd1 => he ⟨d, hd, hd1⟩] at h1
      exact (hm.2 c hc).1 h1.symm
  have hsub := key m n hm hn h
  have hsup := key n m hn hm fun a => (h a).symm
  have hperm : m.Perm n := by
    refine (List.perm_ext_iff_of_nodup ?_ ?_).mpr fun c => ⟨hsub c, hsup c⟩
    · exact hm.1.imp fun {c d} hcd hcd' => by subst hcd'; omega
    · exact hn.1.imp fun {c d} hcd hcd' => by subst hcd'; omega
  exact hperm.eq_of_pairwise (le := fun c d : Host.Cell => c.1 < d.1) (fun a b _ _ h1 h2 => by omega) hm.1 hn.1

/-! ### Strings -/

@[simp] theorem memWrite_nil (m : Memory) (a : Nat) : memWrite m a [] = m := rfl

theorem memWrite_append (m : Memory) (a : Nat) (x y : List Byte) :
    memWrite m a (x ++ y) = memWrite (memWrite m a x) (a + x.length) y := by
  induction x generalizing m a with
  | nil => rfl
  | cons b x ih =>
    rw [List.cons_append, memWrite, memWrite, ih, List.length_cons]
    congr 1
    omega

/-- A string stored leaves every address outside its range alone. -/
theorem readByte_memWrite_outside {m : Memory} {a x : Nat} {bs : List Byte} (h : ¬ (a ≤ x ∧ x < a + bs.length)) :
    readByte (memWrite m a bs) x = readByte m x := by
  induction bs generalizing m a with
  | nil => rfl
  | cons b bs ih =>
    rw [List.length_cons] at h
    rw [memWrite, ih (by omega), readByte_writeByte_ne (by omega)]

/-- A string stored is read back byte for byte, from a memory whose addresses rise. -/
theorem readByte_memWrite_inside {m : Memory} (hm : m.Pairwise fun c d => c.1 < d.1) {a x : Nat} {bs : List Byte}
    (h : a ≤ x ∧ x < a + bs.length) : readByte (memWrite m a bs) x = bs.getD (x - a) 0 := by
  induction bs generalizing m a with
  | nil => simp at h; omega
  | cons b bs ih =>
    rw [List.length_cons] at h
    rw [memWrite]
    by_cases hx : x = a
    · subst hx
      rw [readByte_memWrite_outside (by omega), readByte_writeByte_self hm]
      simp
    · rw [ih (writeByte_pairwise hm a b) (by omega), show x - a = (x - (a + 1)) + 1 by omega, List.getD_cons_succ]

@[simp] theorem memRead_length (m : Memory) (a n : Nat) : (memRead m a n).length = n := by
  induction n generalizing a with
  | zero => rfl
  | succ n ih => simp [memRead, ih]

theorem memRead_getD (m : Memory) (a n j : Nat) (h : j < n) : (memRead m a n).getD j 0 = readByte m (a + j) := by
  induction n generalizing a j with
  | zero => omega
  | succ n ih =>
    cases j with
    | zero => simp [memRead]
    | succ j =>
      rw [memRead, List.getD_cons_succ, ih (a + 1) j (by omega)]
      congr 1
      omega

theorem memRead_add (m : Memory) (a n k : Nat) : memRead m a (n + k) = memRead m a n ++ memRead m (a + n) k := by
  induction n generalizing a with
  | zero => simp [memRead]
  | succ n ih =>
    rw [show n + 1 + k = (n + k) + 1 by omega, memRead, memRead, ih, List.cons_append]
    congr 3
    omega

theorem memRead_congr {m n : Memory} {a k : Nat} (h : ∀ x, a ≤ x → x < a + k → readByte m x = readByte n x) :
    memRead m a k = memRead n a k := by
  induction k generalizing a with
  | zero => rfl
  | succ k ih =>
    rw [memRead, memRead, h a (le_refl a) (by omega), ih fun x h1 h2 => h x (by omega) (by omega)]

/-- What was stored is loaded back. -/
theorem memRead_memWrite_self {m : Memory} (hm : m.Pairwise fun c d => c.1 < d.1) (a : Nat) (bs : List Byte) :
    memRead (memWrite m a bs) a bs.length = bs := by
  induction bs generalizing m a with
  | nil => rfl
  | cons b bs ih =>
    rw [memWrite, List.length_cons, memRead, ih (writeByte_pairwise hm a b),
      readByte_memWrite_outside (by omega), readByte_writeByte_self hm]

/-- A range that shares no byte with what is stored is loaded unchanged. -/
theorem memRead_memWrite_disjoint {m : Memory} {a c n : Nat} {bs : List Byte}
    (h : ∀ x, c ≤ x → x < c + n → ¬ (a ≤ x ∧ x < a + bs.length)) : memRead (memWrite m a bs) c n = memRead m c n :=
  memRead_congr fun x h1 h2 => readByte_memWrite_outside (h x h1 h2)

/-! ### DMA ranges (20 R106) -/

theorem rangeOk_iff {p : Platform} {a n : Nat} :
    rangeOk p a n = true ↔ n = 0 ∨ (a + n ≤ addressSpace ∧ p.dmaOk a n = true) := by
  simp [rangeOk]

@[simp] theorem rangeOk_zero (p : Platform) (a : Nat) : rangeOk p a 0 = true := by simp [rangeOk]

/-- A valid range that is not empty lies in the address space. -/
theorem rangeOk_le {p : Platform} {a n : Nat} (h : rangeOk p a n = true) (hn : n ≠ 0) : a + n ≤ addressSpace := by
  rcases rangeOk_iff.mp h with h | h
  · exact absurd h hn
  · exact h.1

end Sys2Proof.Machine
end

