-- ==== Sys2Proof/Laws/State.lean ====
section
/-! SUPPORT. One lemma per field per named update of the state, true by rfl, so that no later proof unfolds a record update. -/

namespace Sys2Proof.Machine

/-! Launch (40 R185) -/

@[simp] theorem launch_keysz (w : Word) (s : State) : (launch w s).keysz = s.keysz := rfl
@[simp] theorem launch_irqEn (w : Word) (s : State) : (launch w s).irqEn = s.irqEn := rfl
@[simp] theorem launch_busy (w : Word) (s : State) : (launch w s).busy = true := rfl
@[simp] theorem launch_verifyOk (w : Word) (s : State) : (launch w s).verifyOk = false := rfl
@[simp] theorem launch_err (w : Word) (s : State) : (launch w s).err = .ok := rfl
@[simp] theorem launch_done (w : Word) (s : State) : (launch w s).done = false := rfl
@[simp] theorem launch_ovr (w : Word) (s : State) : (launch w s).ovr = s.ovr := rfl
@[simp] theorem launch_outLen (w : Word) (s : State) : (launch w s).outLen = s.outLen := rfl
@[simp] theorem launch_srcAddr (w : Word) (s : State) : (launch w s).srcAddr = s.srcAddr := rfl
@[simp] theorem launch_srcLen (w : Word) (s : State) : (launch w s).srcLen = s.srcLen := rfl
@[simp] theorem launch_dstAddr (w : Word) (s : State) : (launch w s).dstAddr = s.dstAddr := rfl
@[simp] theorem launch_aadAddr (w : Word) (s : State) : (launch w s).aadAddr = s.aadAddr := rfl
@[simp] theorem launch_aadLen (w : Word) (s : State) : (launch w s).aadLen = s.aadLen := rfl
@[simp] theorem launch_nonceAddr (w : Word) (s : State) : (launch w s).nonceAddr = s.nonceAddr := rfl
@[simp] theorem launch_nonceLen (w : Word) (s : State) : (launch w s).nonceLen = s.nonceLen := rfl
@[simp] theorem launch_key (w : Word) (s : State) : (launch w s).key = s.key := rfl
@[simp] theorem launch_iv (w : Word) (s : State) : (launch w s).iv = s.iv := rfl
@[simp] theorem launch_ivw (w : Word) (s : State) : (launch w s).ivw = s.ivw := rfl
@[simp] theorem launch_digest (w : Word) (s : State) : (launch w s).digest = s.digest := rfl
@[simp] theorem launch_hmode (w : Word) (s : State) : (launch w s).hmode = s.hmode := rfl
@[simp] theorem launch_hs (w : Word) (s : State) : (launch w s).hs = s.hs := rfl
@[simp] theorem launch_opad (w : Word) (s : State) : (launch w s).opad = s.opad := rfl
@[simp] theorem launch_cmdLatch (w : Word) (s : State) : (launch w s).cmdLatch = w := rfl
@[simp] theorem launch_mem (w : Word) (s : State) : (launch w s).mem = s.mem := rfl
@[simp] theorem launch_platform (w : Word) (s : State) : (launch w s).platform = s.platform := rfl
@[simp] theorem launch_inputs (w : Word) (s : State) : (launch w s).inputs = s.inputs := rfl
@[simp] theorem launch_observed (w : Word) (s : State) : (launch w s).observed = s.observed := rfl
@[simp] theorem launch_draws (w : Word) (s : State) : (launch w s).draws = s.draws := rfl
@[simp] theorem launch_unobserved (w : Word) (s : State) : (launch w s).unobserved = s.unobserved := rfl
@[simp] theorem launch_unflushed (w : Word) (s : State) : (launch w s).unflushed = s.unflushed := rfl
@[simp] theorem launch_uninvalidated (w : Word) (s : State) : (launch w s).uninvalidated = s.uninvalidated := rfl

/-! The effects of an error (40 R188) -/

@[simp] theorem raiseError_keysz (e : ErrCode) (s : State) : (raiseError e s).keysz = s.keysz := rfl
@[simp] theorem raiseError_irqEn (e : ErrCode) (s : State) : (raiseError e s).irqEn = s.irqEn := rfl
@[simp] theorem raiseError_busy (e : ErrCode) (s : State) : (raiseError e s).busy = s.busy := rfl
@[simp] theorem raiseError_verifyOk (e : ErrCode) (s : State) : (raiseError e s).verifyOk = false := rfl
@[simp] theorem raiseError_err (e : ErrCode) (s : State) : (raiseError e s).err = e := rfl
@[simp] theorem raiseError_done (e : ErrCode) (s : State) : (raiseError e s).done = s.done := rfl
@[simp] theorem raiseError_ovr (e : ErrCode) (s : State) : (raiseError e s).ovr = s.ovr := rfl
@[simp] theorem raiseError_outLen (e : ErrCode) (s : State) : (raiseError e s).outLen = 0 := rfl
@[simp] theorem raiseError_srcAddr (e : ErrCode) (s : State) : (raiseError e s).srcAddr = s.srcAddr := rfl
@[simp] theorem raiseError_srcLen (e : ErrCode) (s : State) : (raiseError e s).srcLen = s.srcLen := rfl
@[simp] theorem raiseError_dstAddr (e : ErrCode) (s : State) : (raiseError e s).dstAddr = s.dstAddr := rfl
@[simp] theorem raiseError_aadAddr (e : ErrCode) (s : State) : (raiseError e s).aadAddr = s.aadAddr := rfl
@[simp] theorem raiseError_aadLen (e : ErrCode) (s : State) : (raiseError e s).aadLen = s.aadLen := rfl
@[simp] theorem raiseError_nonceAddr (e : ErrCode) (s : State) : (raiseError e s).nonceAddr = s.nonceAddr := rfl
@[simp] theorem raiseError_nonceLen (e : ErrCode) (s : State) : (raiseError e s).nonceLen = s.nonceLen := rfl
@[simp] theorem raiseError_key (e : ErrCode) (s : State) : (raiseError e s).key = s.key := rfl
@[simp] theorem raiseError_iv (e : ErrCode) (s : State) : (raiseError e s).iv = s.iv := rfl
@[simp] theorem raiseError_ivw (e : ErrCode) (s : State) : (raiseError e s).ivw = s.ivw := rfl
@[simp] theorem raiseError_digest (e : ErrCode) (s : State) : (raiseError e s).digest = s.digest := rfl
@[simp] theorem raiseError_hmode (e : ErrCode) (s : State) : (raiseError e s).hmode = s.hmode := rfl
@[simp] theorem raiseError_hs (e : ErrCode) (s : State) : (raiseError e s).hs = s.hs := rfl
@[simp] theorem raiseError_opad (e : ErrCode) (s : State) : (raiseError e s).opad = s.opad := rfl
@[simp] theorem raiseError_cmdLatch (e : ErrCode) (s : State) : (raiseError e s).cmdLatch = s.cmdLatch := rfl
@[simp] theorem raiseError_mem (e : ErrCode) (s : State) : (raiseError e s).mem = s.mem := rfl
@[simp] theorem raiseError_platform (e : ErrCode) (s : State) : (raiseError e s).platform = s.platform := rfl
@[simp] theorem raiseError_inputs (e : ErrCode) (s : State) : (raiseError e s).inputs = s.inputs := rfl
@[simp] theorem raiseError_observed (e : ErrCode) (s : State) : (raiseError e s).observed = s.observed := rfl
@[simp] theorem raiseError_draws (e : ErrCode) (s : State) : (raiseError e s).draws = s.draws := rfl
@[simp] theorem raiseError_unobserved (e : ErrCode) (s : State) : (raiseError e s).unobserved = s.unobserved := rfl
@[simp] theorem raiseError_unflushed (e : ErrCode) (s : State) : (raiseError e s).unflushed = s.unflushed := rfl
@[simp] theorem raiseError_uninvalidated (e : ErrCode) (s : State) : (raiseError e s).uninvalidated = s.uninvalidated := rfl

/-! A write to IRQ_STATUS (10 R35) -/

@[simp] theorem acknowledge_keysz (v : Word) (s : State) : (acknowledge v s).keysz = s.keysz := rfl
@[simp] theorem acknowledge_irqEn (v : Word) (s : State) : (acknowledge v s).irqEn = s.irqEn := rfl
@[simp] theorem acknowledge_busy (v : Word) (s : State) : (acknowledge v s).busy = s.busy := rfl
@[simp] theorem acknowledge_verifyOk (v : Word) (s : State) : (acknowledge v s).verifyOk = s.verifyOk := rfl
@[simp] theorem acknowledge_err (v : Word) (s : State) : (acknowledge v s).err = s.err := rfl
@[simp] theorem acknowledge_done (v : Word) (s : State) : (acknowledge v s).done = (s.done && !v.getLsbD 0) := rfl
@[simp] theorem acknowledge_ovr (v : Word) (s : State) : (acknowledge v s).ovr = (s.ovr && !v.getLsbD 1) := rfl
@[simp] theorem acknowledge_outLen (v : Word) (s : State) : (acknowledge v s).outLen = s.outLen := rfl
@[simp] theorem acknowledge_srcAddr (v : Word) (s : State) : (acknowledge v s).srcAddr = s.srcAddr := rfl
@[simp] theorem acknowledge_srcLen (v : Word) (s : State) : (acknowledge v s).srcLen = s.srcLen := rfl
@[simp] theorem acknowledge_dstAddr (v : Word) (s : State) : (acknowledge v s).dstAddr = s.dstAddr := rfl
@[simp] theorem acknowledge_aadAddr (v : Word) (s : State) : (acknowledge v s).aadAddr = s.aadAddr := rfl
@[simp] theorem acknowledge_aadLen (v : Word) (s : State) : (acknowledge v s).aadLen = s.aadLen := rfl
@[simp] theorem acknowledge_nonceAddr (v : Word) (s : State) : (acknowledge v s).nonceAddr = s.nonceAddr := rfl
@[simp] theorem acknowledge_nonceLen (v : Word) (s : State) : (acknowledge v s).nonceLen = s.nonceLen := rfl
@[simp] theorem acknowledge_key (v : Word) (s : State) : (acknowledge v s).key = s.key := rfl
@[simp] theorem acknowledge_iv (v : Word) (s : State) : (acknowledge v s).iv = s.iv := rfl
@[simp] theorem acknowledge_ivw (v : Word) (s : State) : (acknowledge v s).ivw = s.ivw := rfl
@[simp] theorem acknowledge_digest (v : Word) (s : State) : (acknowledge v s).digest = s.digest := rfl
@[simp] theorem acknowledge_hmode (v : Word) (s : State) : (acknowledge v s).hmode = s.hmode := rfl
@[simp] theorem acknowledge_hs (v : Word) (s : State) : (acknowledge v s).hs = s.hs := rfl
@[simp] theorem acknowledge_opad (v : Word) (s : State) : (acknowledge v s).opad = s.opad := rfl
@[simp] theorem acknowledge_cmdLatch (v : Word) (s : State) : (acknowledge v s).cmdLatch = s.cmdLatch := rfl
@[simp] theorem acknowledge_mem (v : Word) (s : State) : (acknowledge v s).mem = s.mem := rfl
@[simp] theorem acknowledge_platform (v : Word) (s : State) : (acknowledge v s).platform = s.platform := rfl
@[simp] theorem acknowledge_inputs (v : Word) (s : State) : (acknowledge v s).inputs = s.inputs := rfl
@[simp] theorem acknowledge_observed (v : Word) (s : State) : (acknowledge v s).observed = s.observed := rfl
@[simp] theorem acknowledge_draws (v : Word) (s : State) : (acknowledge v s).draws = s.draws := rfl
@[simp] theorem acknowledge_unobserved (v : Word) (s : State) : (acknowledge v s).unobserved = s.unobserved := rfl
@[simp] theorem acknowledge_unflushed (v : Word) (s : State) : (acknowledge v s).unflushed = s.unflushed := rfl
@[simp] theorem acknowledge_uninvalidated (v : Word) (s : State) : (acknowledge v s).uninvalidated = s.uninvalidated := rfl

/-! The end of a completion (40 R186) -/

@[simp] theorem finish_keysz (s : State) : (finish s).keysz = s.keysz := rfl
@[simp] theorem finish_irqEn (s : State) : (finish s).irqEn = s.irqEn := rfl
@[simp] theorem finish_busy (s : State) : (finish s).busy = false := rfl
@[simp] theorem finish_verifyOk (s : State) : (finish s).verifyOk = s.verifyOk := rfl
@[simp] theorem finish_err (s : State) : (finish s).err = s.err := rfl
@[simp] theorem finish_done (s : State) : (finish s).done = true := rfl
@[simp] theorem finish_ovr (s : State) : (finish s).ovr = s.ovr := rfl
@[simp] theorem finish_outLen (s : State) : (finish s).outLen = s.outLen := rfl
@[simp] theorem finish_srcAddr (s : State) : (finish s).srcAddr = s.srcAddr := rfl
@[simp] theorem finish_srcLen (s : State) : (finish s).srcLen = s.srcLen := rfl
@[simp] theorem finish_dstAddr (s : State) : (finish s).dstAddr = s.dstAddr := rfl
@[simp] theorem finish_aadAddr (s : State) : (finish s).aadAddr = s.aadAddr := rfl
@[simp] theorem finish_aadLen (s : State) : (finish s).aadLen = s.aadLen := rfl
@[simp] theorem finish_nonceAddr (s : State) : (finish s).nonceAddr = s.nonceAddr := rfl
@[simp] theorem finish_nonceLen (s : State) : (finish s).nonceLen = s.nonceLen := rfl
@[simp] theorem finish_key (s : State) : (finish s).key = s.key := rfl
@[simp] theorem finish_iv (s : State) : (finish s).iv = s.iv := rfl
@[simp] theorem finish_ivw (s : State) : (finish s).ivw = s.ivw := rfl
@[simp] theorem finish_digest (s : State) : (finish s).digest = s.digest := rfl
@[simp] theorem finish_hmode (s : State) : (finish s).hmode = s.hmode := rfl
@[simp] theorem finish_hs (s : State) : (finish s).hs = s.hs := rfl
@[simp] theorem finish_opad (s : State) : (finish s).opad = s.opad := rfl
@[simp] theorem finish_cmdLatch (s : State) : (finish s).cmdLatch = s.cmdLatch := rfl
@[simp] theorem finish_mem (s : State) : (finish s).mem = s.mem := rfl
@[simp] theorem finish_platform (s : State) : (finish s).platform = s.platform := rfl
@[simp] theorem finish_inputs (s : State) : (finish s).inputs = s.inputs := rfl
@[simp] theorem finish_observed (s : State) : (finish s).observed = s.observed := rfl
@[simp] theorem finish_draws (s : State) : (finish s).draws = s.draws := rfl
@[simp] theorem finish_unobserved (s : State) : (finish s).unobserved = s.unobserved := rfl
@[simp] theorem finish_unflushed (s : State) : (finish s).unflushed = s.unflushed := rfl
@[simp] theorem finish_uninvalidated (s : State) : (finish s).uninvalidated = s.uninvalidated := rfl

/-! The memory write of a success (40 R189) -/

@[simp] theorem writeOut_keysz (out : List Byte) (s : State) : (writeOut out s).keysz = s.keysz := rfl
@[simp] theorem writeOut_irqEn (out : List Byte) (s : State) : (writeOut out s).irqEn = s.irqEn := rfl
@[simp] theorem writeOut_busy (out : List Byte) (s : State) : (writeOut out s).busy = s.busy := rfl
@[simp] theorem writeOut_verifyOk (out : List Byte) (s : State) : (writeOut out s).verifyOk = s.verifyOk := rfl
@[simp] theorem writeOut_err (out : List Byte) (s : State) : (writeOut out s).err = s.err := rfl
@[simp] theorem writeOut_done (out : List Byte) (s : State) : (writeOut out s).done = s.done := rfl
@[simp] theorem writeOut_ovr (out : List Byte) (s : State) : (writeOut out s).ovr = s.ovr := rfl
@[simp] theorem writeOut_outLen (out : List Byte) (s : State) : (writeOut out s).outLen = BitVec.ofNat 32 out.length := rfl
@[simp] theorem writeOut_srcAddr (out : List Byte) (s : State) : (writeOut out s).srcAddr = s.srcAddr := rfl
@[simp] theorem writeOut_srcLen (out : List Byte) (s : State) : (writeOut out s).srcLen = s.srcLen := rfl
@[simp] theorem writeOut_dstAddr (out : List Byte) (s : State) : (writeOut out s).dstAddr = s.dstAddr := rfl
@[simp] theorem writeOut_aadAddr (out : List Byte) (s : State) : (writeOut out s).aadAddr = s.aadAddr := rfl
@[simp] theorem writeOut_aadLen (out : List Byte) (s : State) : (writeOut out s).aadLen = s.aadLen := rfl
@[simp] theorem writeOut_nonceAddr (out : List Byte) (s : State) : (writeOut out s).nonceAddr = s.nonceAddr := rfl
@[simp] theorem writeOut_nonceLen (out : List Byte) (s : State) : (writeOut out s).nonceLen = s.nonceLen := rfl
@[simp] theorem writeOut_key (out : List Byte) (s : State) : (writeOut out s).key = s.key := rfl
@[simp] theorem writeOut_iv (out : List Byte) (s : State) : (writeOut out s).iv = s.iv := rfl
@[simp] theorem writeOut_ivw (out : List Byte) (s : State) : (writeOut out s).ivw = s.ivw := rfl
@[simp] theorem writeOut_digest (out : List Byte) (s : State) : (writeOut out s).digest = s.digest := rfl
@[simp] theorem writeOut_hmode (out : List Byte) (s : State) : (writeOut out s).hmode = s.hmode := rfl
@[simp] theorem writeOut_hs (out : List Byte) (s : State) : (writeOut out s).hs = s.hs := rfl
@[simp] theorem writeOut_opad (out : List Byte) (s : State) : (writeOut out s).opad = s.opad := rfl
@[simp] theorem writeOut_cmdLatch (out : List Byte) (s : State) : (writeOut out s).cmdLatch = s.cmdLatch := rfl
@[simp] theorem writeOut_mem (out : List Byte) (s : State) : (writeOut out s).mem = memWrite s.mem s.dstAddr.toNat out := rfl
@[simp] theorem writeOut_platform (out : List Byte) (s : State) : (writeOut out s).platform = s.platform := rfl
@[simp] theorem writeOut_inputs (out : List Byte) (s : State) : (writeOut out s).inputs = s.inputs := rfl
@[simp] theorem writeOut_observed (out : List Byte) (s : State) : (writeOut out s).observed = s.observed := rfl
@[simp] theorem writeOut_draws (out : List Byte) (s : State) : (writeOut out s).draws = s.draws := rfl
@[simp] theorem writeOut_unobserved (out : List Byte) (s : State) : (writeOut out s).unobserved = s.unobserved := rfl
@[simp] theorem writeOut_unflushed (out : List Byte) (s : State) : (writeOut out s).unflushed = s.unflushed := rfl
@[simp] theorem writeOut_uninvalidated (out : List Byte) (s : State) : (writeOut out s).uninvalidated = maintenanceDue s.platform s.dstAddr.toNat out.length s.uninvalidated := rfl

/-! The chaining value written back (41 R232) -/

@[simp] theorem setIv_keysz (v : Block) (s : State) : (setIv v s).keysz = s.keysz := rfl
@[simp] theorem setIv_irqEn (v : Block) (s : State) : (setIv v s).irqEn = s.irqEn := rfl
@[simp] theorem setIv_busy (v : Block) (s : State) : (setIv v s).busy = s.busy := rfl
@[simp] theorem setIv_verifyOk (v : Block) (s : State) : (setIv v s).verifyOk = s.verifyOk := rfl
@[simp] theorem setIv_err (v : Block) (s : State) : (setIv v s).err = s.err := rfl
@[simp] theorem setIv_done (v : Block) (s : State) : (setIv v s).done = s.done := rfl
@[simp] theorem setIv_ovr (v : Block) (s : State) : (setIv v s).ovr = s.ovr := rfl
@[simp] theorem setIv_outLen (v : Block) (s : State) : (setIv v s).outLen = s.outLen := rfl
@[simp] theorem setIv_srcAddr (v : Block) (s : State) : (setIv v s).srcAddr = s.srcAddr := rfl
@[simp] theorem setIv_srcLen (v : Block) (s : State) : (setIv v s).srcLen = s.srcLen := rfl
@[simp] theorem setIv_dstAddr (v : Block) (s : State) : (setIv v s).dstAddr = s.dstAddr := rfl
@[simp] theorem setIv_aadAddr (v : Block) (s : State) : (setIv v s).aadAddr = s.aadAddr := rfl
@[simp] theorem setIv_aadLen (v : Block) (s : State) : (setIv v s).aadLen = s.aadLen := rfl
@[simp] theorem setIv_nonceAddr (v : Block) (s : State) : (setIv v s).nonceAddr = s.nonceAddr := rfl
@[simp] theorem setIv_nonceLen (v : Block) (s : State) : (setIv v s).nonceLen = s.nonceLen := rfl
@[simp] theorem setIv_key (v : Block) (s : State) : (setIv v s).key = s.key := rfl
@[simp] theorem setIv_iv (v : Block) (s : State) : (setIv v s).iv = #v[wordAt (ofBlock v) 0, wordAt (ofBlock v) 1, wordAt (ofBlock v) 2, wordAt (ofBlock v) 3] := rfl
@[simp] theorem setIv_ivw (v : Block) (s : State) : (setIv v s).ivw = s.ivw := rfl
@[simp] theorem setIv_digest (v : Block) (s : State) : (setIv v s).digest = s.digest := rfl
@[simp] theorem setIv_hmode (v : Block) (s : State) : (setIv v s).hmode = s.hmode := rfl
@[simp] theorem setIv_hs (v : Block) (s : State) : (setIv v s).hs = s.hs := rfl
@[simp] theorem setIv_opad (v : Block) (s : State) : (setIv v s).opad = s.opad := rfl
@[simp] theorem setIv_cmdLatch (v : Block) (s : State) : (setIv v s).cmdLatch = s.cmdLatch := rfl
@[simp] theorem setIv_mem (v : Block) (s : State) : (setIv v s).mem = s.mem := rfl
@[simp] theorem setIv_platform (v : Block) (s : State) : (setIv v s).platform = s.platform := rfl
@[simp] theorem setIv_inputs (v : Block) (s : State) : (setIv v s).inputs = s.inputs := rfl
@[simp] theorem setIv_observed (v : Block) (s : State) : (setIv v s).observed = s.observed := rfl
@[simp] theorem setIv_draws (v : Block) (s : State) : (setIv v s).draws = s.draws := rfl
@[simp] theorem setIv_unobserved (v : Block) (s : State) : (setIv v s).unobserved = s.unobserved := rfl
@[simp] theorem setIv_unflushed (v : Block) (s : State) : (setIv v s).unflushed = s.unflushed := rfl
@[simp] theorem setIv_uninvalidated (v : Block) (s : State) : (setIv v s).uninvalidated = s.uninvalidated := rfl

/-! A write to CTRL (10 R32) -/

@[simp] theorem setCtrl_keysz (v : Word) (s : State) : (setCtrl v s).keysz = v.extractLsb' 0 2 := rfl
@[simp] theorem setCtrl_irqEn (v : Word) (s : State) : (setCtrl v s).irqEn = v.getLsbD 8 := rfl
@[simp] theorem setCtrl_busy (v : Word) (s : State) : (setCtrl v s).busy = s.busy := rfl
@[simp] theorem setCtrl_verifyOk (v : Word) (s : State) : (setCtrl v s).verifyOk = s.verifyOk := rfl
@[simp] theorem setCtrl_err (v : Word) (s : State) : (setCtrl v s).err = s.err := rfl
@[simp] theorem setCtrl_done (v : Word) (s : State) : (setCtrl v s).done = s.done := rfl
@[simp] theorem setCtrl_ovr (v : Word) (s : State) : (setCtrl v s).ovr = s.ovr := rfl
@[simp] theorem setCtrl_outLen (v : Word) (s : State) : (setCtrl v s).outLen = s.outLen := rfl
@[simp] theorem setCtrl_srcAddr (v : Word) (s : State) : (setCtrl v s).srcAddr = s.srcAddr := rfl
@[simp] theorem setCtrl_srcLen (v : Word) (s : State) : (setCtrl v s).srcLen = s.srcLen := rfl
@[simp] theorem setCtrl_dstAddr (v : Word) (s : State) : (setCtrl v s).dstAddr = s.dstAddr := rfl
@[simp] theorem setCtrl_aadAddr (v : Word) (s : State) : (setCtrl v s).aadAddr = s.aadAddr := rfl
@[simp] theorem setCtrl_aadLen (v : Word) (s : State) : (setCtrl v s).aadLen = s.aadLen := rfl
@[simp] theorem setCtrl_nonceAddr (v : Word) (s : State) : (setCtrl v s).nonceAddr = s.nonceAddr := rfl
@[simp] theorem setCtrl_nonceLen (v : Word) (s : State) : (setCtrl v s).nonceLen = s.nonceLen := rfl
@[simp] theorem setCtrl_key (v : Word) (s : State) : (setCtrl v s).key = s.key := rfl
@[simp] theorem setCtrl_iv (v : Word) (s : State) : (setCtrl v s).iv = s.iv := rfl
@[simp] theorem setCtrl_ivw (v : Word) (s : State) : (setCtrl v s).ivw = s.ivw := rfl
@[simp] theorem setCtrl_digest (v : Word) (s : State) : (setCtrl v s).digest = s.digest := rfl
@[simp] theorem setCtrl_hmode (v : Word) (s : State) : (setCtrl v s).hmode = s.hmode := rfl
@[simp] theorem setCtrl_hs (v : Word) (s : State) : (setCtrl v s).hs = s.hs := rfl
@[simp] theorem setCtrl_opad (v : Word) (s : State) : (setCtrl v s).opad = s.opad := rfl
@[simp] theorem setCtrl_cmdLatch (v : Word) (s : State) : (setCtrl v s).cmdLatch = s.cmdLatch := rfl
@[simp] theorem setCtrl_mem (v : Word) (s : State) : (setCtrl v s).mem = s.mem := rfl
@[simp] theorem setCtrl_platform (v : Word) (s : State) : (setCtrl v s).platform = s.platform := rfl
@[simp] theorem setCtrl_inputs (v : Word) (s : State) : (setCtrl v s).inputs = s.inputs := rfl
@[simp] theorem setCtrl_observed (v : Word) (s : State) : (setCtrl v s).observed = s.observed := rfl
@[simp] theorem setCtrl_draws (v : Word) (s : State) : (setCtrl v s).draws = s.draws := rfl
@[simp] theorem setCtrl_unobserved (v : Word) (s : State) : (setCtrl v s).unobserved = s.unobserved := rfl
@[simp] theorem setCtrl_unflushed (v : Word) (s : State) : (setCtrl v s).unflushed = s.unflushed := rfl
@[simp] theorem setCtrl_uninvalidated (v : Word) (s : State) : (setCtrl v s).uninvalidated = s.uninvalidated := rfl

/-! The result in DIGEST (10 R48) -/

@[simp] theorem setDigest_keysz (d : List Byte) (s : State) : (setDigest d s).keysz = s.keysz := rfl
@[simp] theorem setDigest_irqEn (d : List Byte) (s : State) : (setDigest d s).irqEn = s.irqEn := rfl
@[simp] theorem setDigest_busy (d : List Byte) (s : State) : (setDigest d s).busy = s.busy := rfl
@[simp] theorem setDigest_verifyOk (d : List Byte) (s : State) : (setDigest d s).verifyOk = s.verifyOk := rfl
@[simp] theorem setDigest_err (d : List Byte) (s : State) : (setDigest d s).err = s.err := rfl
@[simp] theorem setDigest_done (d : List Byte) (s : State) : (setDigest d s).done = s.done := rfl
@[simp] theorem setDigest_ovr (d : List Byte) (s : State) : (setDigest d s).ovr = s.ovr := rfl
@[simp] theorem setDigest_outLen (d : List Byte) (s : State) : (setDigest d s).outLen = s.outLen := rfl
@[simp] theorem setDigest_srcAddr (d : List Byte) (s : State) : (setDigest d s).srcAddr = s.srcAddr := rfl
@[simp] theorem setDigest_srcLen (d : List Byte) (s : State) : (setDigest d s).srcLen = s.srcLen := rfl
@[simp] theorem setDigest_dstAddr (d : List Byte) (s : State) : (setDigest d s).dstAddr = s.dstAddr := rfl
@[simp] theorem setDigest_aadAddr (d : List Byte) (s : State) : (setDigest d s).aadAddr = s.aadAddr := rfl
@[simp] theorem setDigest_aadLen (d : List Byte) (s : State) : (setDigest d s).aadLen = s.aadLen := rfl
@[simp] theorem setDigest_nonceAddr (d : List Byte) (s : State) : (setDigest d s).nonceAddr = s.nonceAddr := rfl
@[simp] theorem setDigest_nonceLen (d : List Byte) (s : State) : (setDigest d s).nonceLen = s.nonceLen := rfl
@[simp] theorem setDigest_key (d : List Byte) (s : State) : (setDigest d s).key = s.key := rfl
@[simp] theorem setDigest_iv (d : List Byte) (s : State) : (setDigest d s).iv = s.iv := rfl
@[simp] theorem setDigest_ivw (d : List Byte) (s : State) : (setDigest d s).ivw = s.ivw := rfl
@[simp] theorem setDigest_digest (d : List Byte) (s : State) : (setDigest d s).digest = bytesWords d := rfl
@[simp] theorem setDigest_hmode (d : List Byte) (s : State) : (setDigest d s).hmode = s.hmode := rfl
@[simp] theorem setDigest_hs (d : List Byte) (s : State) : (setDigest d s).hs = s.hs := rfl
@[simp] theorem setDigest_opad (d : List Byte) (s : State) : (setDigest d s).opad = s.opad := rfl
@[simp] theorem setDigest_cmdLatch (d : List Byte) (s : State) : (setDigest d s).cmdLatch = s.cmdLatch := rfl
@[simp] theorem setDigest_mem (d : List Byte) (s : State) : (setDigest d s).mem = s.mem := rfl
@[simp] theorem setDigest_platform (d : List Byte) (s : State) : (setDigest d s).platform = s.platform := rfl
@[simp] theorem setDigest_inputs (d : List Byte) (s : State) : (setDigest d s).inputs = s.inputs := rfl
@[simp] theorem setDigest_observed (d : List Byte) (s : State) : (setDigest d s).observed = s.observed := rfl
@[simp] theorem setDigest_draws (d : List Byte) (s : State) : (setDigest d s).draws = s.draws := rfl
@[simp] theorem setDigest_unobserved (d : List Byte) (s : State) : (setDigest d s).unobserved = s.unobserved := rfl
@[simp] theorem setDigest_unflushed (d : List Byte) (s : State) : (setDigest d s).unflushed = s.unflushed := rfl
@[simp] theorem setDigest_uninvalidated (d : List Byte) (s : State) : (setDigest d s).uninvalidated = s.uninvalidated := rfl

/-! The context consumed (43 R362) -/

@[simp] theorem endHash_keysz (s : State) : (endHash s).keysz = s.keysz := rfl
@[simp] theorem endHash_irqEn (s : State) : (endHash s).irqEn = s.irqEn := rfl
@[simp] theorem endHash_busy (s : State) : (endHash s).busy = s.busy := rfl
@[simp] theorem endHash_verifyOk (s : State) : (endHash s).verifyOk = s.verifyOk := rfl
@[simp] theorem endHash_err (s : State) : (endHash s).err = s.err := rfl
@[simp] theorem endHash_done (s : State) : (endHash s).done = s.done := rfl
@[simp] theorem endHash_ovr (s : State) : (endHash s).ovr = s.ovr := rfl
@[simp] theorem endHash_outLen (s : State) : (endHash s).outLen = s.outLen := rfl
@[simp] theorem endHash_srcAddr (s : State) : (endHash s).srcAddr = s.srcAddr := rfl
@[simp] theorem endHash_srcLen (s : State) : (endHash s).srcLen = s.srcLen := rfl
@[simp] theorem endHash_dstAddr (s : State) : (endHash s).dstAddr = s.dstAddr := rfl
@[simp] theorem endHash_aadAddr (s : State) : (endHash s).aadAddr = s.aadAddr := rfl
@[simp] theorem endHash_aadLen (s : State) : (endHash s).aadLen = s.aadLen := rfl
@[simp] theorem endHash_nonceAddr (s : State) : (endHash s).nonceAddr = s.nonceAddr := rfl
@[simp] theorem endHash_nonceLen (s : State) : (endHash s).nonceLen = s.nonceLen := rfl
@[simp] theorem endHash_key (s : State) : (endHash s).key = s.key := rfl
@[simp] theorem endHash_iv (s : State) : (endHash s).iv = s.iv := rfl
@[simp] theorem endHash_ivw (s : State) : (endHash s).ivw = s.ivw := rfl
@[simp] theorem endHash_digest (s : State) : (endHash s).digest = s.digest := rfl
@[simp] theorem endHash_hmode (s : State) : (endHash s).hmode = .none := rfl
@[simp] theorem endHash_hs (s : State) : (endHash s).hs = .zero := rfl
@[simp] theorem endHash_opad (s : State) : (endHash s).opad = Vector.replicate 64 0 := rfl
@[simp] theorem endHash_cmdLatch (s : State) : (endHash s).cmdLatch = s.cmdLatch := rfl
@[simp] theorem endHash_mem (s : State) : (endHash s).mem = s.mem := rfl
@[simp] theorem endHash_platform (s : State) : (endHash s).platform = s.platform := rfl
@[simp] theorem endHash_inputs (s : State) : (endHash s).inputs = s.inputs := rfl
@[simp] theorem endHash_observed (s : State) : (endHash s).observed = s.observed := rfl
@[simp] theorem endHash_draws (s : State) : (endHash s).draws = s.draws := rfl
@[simp] theorem endHash_unobserved (s : State) : (endHash s).unobserved = s.unobserved := rfl
@[simp] theorem endHash_unflushed (s : State) : (endHash s).unflushed = s.unflushed := rfl
@[simp] theorem endHash_uninvalidated (s : State) : (endHash s).uninvalidated = s.uninvalidated := rfl

/-! CLEAR (40 R195) -/

@[simp] theorem clearSecrets_keysz (s : State) : (clearSecrets s).keysz = s.keysz := rfl
@[simp] theorem clearSecrets_irqEn (s : State) : (clearSecrets s).irqEn = s.irqEn := rfl
@[simp] theorem clearSecrets_busy (s : State) : (clearSecrets s).busy = s.busy := rfl
@[simp] theorem clearSecrets_verifyOk (s : State) : (clearSecrets s).verifyOk = s.verifyOk := rfl
@[simp] theorem clearSecrets_err (s : State) : (clearSecrets s).err = s.err := rfl
@[simp] theorem clearSecrets_done (s : State) : (clearSecrets s).done = s.done := rfl
@[simp] theorem clearSecrets_ovr (s : State) : (clearSecrets s).ovr = s.ovr := rfl
@[simp] theorem clearSecrets_outLen (s : State) : (clearSecrets s).outLen = s.outLen := rfl
@[simp] theorem clearSecrets_srcAddr (s : State) : (clearSecrets s).srcAddr = s.srcAddr := rfl
@[simp] theorem clearSecrets_srcLen (s : State) : (clearSecrets s).srcLen = s.srcLen := rfl
@[simp] theorem clearSecrets_dstAddr (s : State) : (clearSecrets s).dstAddr = s.dstAddr := rfl
@[simp] theorem clearSecrets_aadAddr (s : State) : (clearSecrets s).aadAddr = s.aadAddr := rfl
@[simp] theorem clearSecrets_aadLen (s : State) : (clearSecrets s).aadLen = s.aadLen := rfl
@[simp] theorem clearSecrets_nonceAddr (s : State) : (clearSecrets s).nonceAddr = s.nonceAddr := rfl
@[simp] theorem clearSecrets_nonceLen (s : State) : (clearSecrets s).nonceLen = s.nonceLen := rfl
@[simp] theorem clearSecrets_key (s : State) : (clearSecrets s).key = Vector.replicate 8 0 := rfl
@[simp] theorem clearSecrets_iv (s : State) : (clearSecrets s).iv = Vector.replicate 4 0 := rfl
@[simp] theorem clearSecrets_ivw (s : State) : (clearSecrets s).ivw = 0 := rfl
@[simp] theorem clearSecrets_digest (s : State) : (clearSecrets s).digest = Vector.replicate 8 0 := rfl
@[simp] theorem clearSecrets_hmode (s : State) : (clearSecrets s).hmode = .none := rfl
@[simp] theorem clearSecrets_hs (s : State) : (clearSecrets s).hs = .zero := rfl
@[simp] theorem clearSecrets_opad (s : State) : (clearSecrets s).opad = Vector.replicate 64 0 := rfl
@[simp] theorem clearSecrets_cmdLatch (s : State) : (clearSecrets s).cmdLatch = s.cmdLatch := rfl
@[simp] theorem clearSecrets_mem (s : State) : (clearSecrets s).mem = s.mem := rfl
@[simp] theorem clearSecrets_platform (s : State) : (clearSecrets s).platform = s.platform := rfl
@[simp] theorem clearSecrets_inputs (s : State) : (clearSecrets s).inputs = s.inputs := rfl
@[simp] theorem clearSecrets_observed (s : State) : (clearSecrets s).observed = s.observed := rfl
@[simp] theorem clearSecrets_draws (s : State) : (clearSecrets s).draws = s.draws := rfl
@[simp] theorem clearSecrets_unobserved (s : State) : (clearSecrets s).unobserved = s.unobserved := rfl
@[simp] theorem clearSecrets_unflushed (s : State) : (clearSecrets s).unflushed = s.unflushed := rfl
@[simp] theorem clearSecrets_uninvalidated (s : State) : (clearSecrets s).uninvalidated = s.uninvalidated := rfl

/-! A store of the host (20 R110) -/

@[simp] theorem hostStore_keysz (a : Nat) (bs : List Byte) (s : State) : (hostStore a bs s).keysz = s.keysz := rfl
@[simp] theorem hostStore_irqEn (a : Nat) (bs : List Byte) (s : State) : (hostStore a bs s).irqEn = s.irqEn := rfl
@[simp] theorem hostStore_busy (a : Nat) (bs : List Byte) (s : State) : (hostStore a bs s).busy = s.busy := rfl
@[simp] theorem hostStore_verifyOk (a : Nat) (bs : List Byte) (s : State) : (hostStore a bs s).verifyOk = s.verifyOk := rfl
@[simp] theorem hostStore_err (a : Nat) (bs : List Byte) (s : State) : (hostStore a bs s).err = s.err := rfl
@[simp] theorem hostStore_done (a : Nat) (bs : List Byte) (s : State) : (hostStore a bs s).done = s.done := rfl
@[simp] theorem hostStore_ovr (a : Nat) (bs : List Byte) (s : State) : (hostStore a bs s).ovr = s.ovr := rfl
@[simp] theorem hostStore_outLen (a : Nat) (bs : List Byte) (s : State) : (hostStore a bs s).outLen = s.outLen := rfl
@[simp] theorem hostStore_srcAddr (a : Nat) (bs : List Byte) (s : State) : (hostStore a bs s).srcAddr = s.srcAddr := rfl
@[simp] theorem hostStore_srcLen (a : Nat) (bs : List Byte) (s : State) : (hostStore a bs s).srcLen = s.srcLen := rfl
@[simp] theorem hostStore_dstAddr (a : Nat) (bs : List Byte) (s : State) : (hostStore a bs s).dstAddr = s.dstAddr := rfl
@[simp] theorem hostStore_aadAddr (a : Nat) (bs : List Byte) (s : State) : (hostStore a bs s).aadAddr = s.aadAddr := rfl
@[simp] theorem hostStore_aadLen (a : Nat) (bs : List Byte) (s : State) : (hostStore a bs s).aadLen = s.aadLen := rfl
@[simp] theorem hostStore_nonceAddr (a : Nat) (bs : List Byte) (s : State) : (hostStore a bs s).nonceAddr = s.nonceAddr := rfl
@[simp] theorem hostStore_nonceLen (a : Nat) (bs : List Byte) (s : State) : (hostStore a bs s).nonceLen = s.nonceLen := rfl
@[simp] theorem hostStore_key (a : Nat) (bs : List Byte) (s : State) : (hostStore a bs s).key = s.key := rfl
@[simp] theorem hostStore_iv (a : Nat) (bs : List Byte) (s : State) : (hostStore a bs s).iv = s.iv := rfl
@[simp] theorem hostStore_ivw (a : Nat) (bs : List Byte) (s : State) : (hostStore a bs s).ivw = s.ivw := rfl
@[simp] theorem hostStore_digest (a : Nat) (bs : List Byte) (s : State) : (hostStore a bs s).digest = s.digest := rfl
@[simp] theorem hostStore_hmode (a : Nat) (bs : List Byte) (s : State) : (hostStore a bs s).hmode = s.hmode := rfl
@[simp] theorem hostStore_hs (a : Nat) (bs : List Byte) (s : State) : (hostStore a bs s).hs = s.hs := rfl
@[simp] theorem hostStore_opad (a : Nat) (bs : List Byte) (s : State) : (hostStore a bs s).opad = s.opad := rfl
@[simp] theorem hostStore_cmdLatch (a : Nat) (bs : List Byte) (s : State) : (hostStore a bs s).cmdLatch = s.cmdLatch := rfl
@[simp] theorem hostStore_mem (a : Nat) (bs : List Byte) (s : State) : (hostStore a bs s).mem = memWrite s.mem a bs := rfl
@[simp] theorem hostStore_platform (a : Nat) (bs : List Byte) (s : State) : (hostStore a bs s).platform = s.platform := rfl
@[simp] theorem hostStore_inputs (a : Nat) (bs : List Byte) (s : State) : (hostStore a bs s).inputs = s.inputs := rfl
@[simp] theorem hostStore_observed (a : Nat) (bs : List Byte) (s : State) : (hostStore a bs s).observed = s.observed := rfl
@[simp] theorem hostStore_draws (a : Nat) (bs : List Byte) (s : State) : (hostStore a bs s).draws = s.draws := rfl
@[simp] theorem hostStore_unobserved (a : Nat) (bs : List Byte) (s : State) : (hostStore a bs s).unobserved = s.unobserved := rfl
@[simp] theorem hostStore_unflushed (a : Nat) (bs : List Byte) (s : State) : (hostStore a bs s).unflushed = maintenanceDue s.platform a bs.length s.unflushed := rfl
@[simp] theorem hostStore_uninvalidated (a : Nat) (bs : List Byte) (s : State) : (hostStore a bs s).uninvalidated = s.uninvalidated := rfl

/-! A load of the host (20 R111) -/

@[simp] theorem hostLoad_keysz (a n : Nat) (s : State) : (hostLoad a n s).keysz = s.keysz := rfl
@[simp] theorem hostLoad_irqEn (a n : Nat) (s : State) : (hostLoad a n s).irqEn = s.irqEn := rfl
@[simp] theorem hostLoad_busy (a n : Nat) (s : State) : (hostLoad a n s).busy = s.busy := rfl
@[simp] theorem hostLoad_verifyOk (a n : Nat) (s : State) : (hostLoad a n s).verifyOk = s.verifyOk := rfl
@[simp] theorem hostLoad_err (a n : Nat) (s : State) : (hostLoad a n s).err = s.err := rfl
@[simp] theorem hostLoad_done (a n : Nat) (s : State) : (hostLoad a n s).done = s.done := rfl
@[simp] theorem hostLoad_ovr (a n : Nat) (s : State) : (hostLoad a n s).ovr = s.ovr := rfl
@[simp] theorem hostLoad_outLen (a n : Nat) (s : State) : (hostLoad a n s).outLen = s.outLen := rfl
@[simp] theorem hostLoad_srcAddr (a n : Nat) (s : State) : (hostLoad a n s).srcAddr = s.srcAddr := rfl
@[simp] theorem hostLoad_srcLen (a n : Nat) (s : State) : (hostLoad a n s).srcLen = s.srcLen := rfl
@[simp] theorem hostLoad_dstAddr (a n : Nat) (s : State) : (hostLoad a n s).dstAddr = s.dstAddr := rfl
@[simp] theorem hostLoad_aadAddr (a n : Nat) (s : State) : (hostLoad a n s).aadAddr = s.aadAddr := rfl
@[simp] theorem hostLoad_aadLen (a n : Nat) (s : State) : (hostLoad a n s).aadLen = s.aadLen := rfl
@[simp] theorem hostLoad_nonceAddr (a n : Nat) (s : State) : (hostLoad a n s).nonceAddr = s.nonceAddr := rfl
@[simp] theorem hostLoad_nonceLen (a n : Nat) (s : State) : (hostLoad a n s).nonceLen = s.nonceLen := rfl
@[simp] theorem hostLoad_key (a n : Nat) (s : State) : (hostLoad a n s).key = s.key := rfl
@[simp] theorem hostLoad_iv (a n : Nat) (s : State) : (hostLoad a n s).iv = s.iv := rfl
@[simp] theorem hostLoad_ivw (a n : Nat) (s : State) : (hostLoad a n s).ivw = s.ivw := rfl
@[simp] theorem hostLoad_digest (a n : Nat) (s : State) : (hostLoad a n s).digest = s.digest := rfl
@[simp] theorem hostLoad_hmode (a n : Nat) (s : State) : (hostLoad a n s).hmode = s.hmode := rfl
@[simp] theorem hostLoad_hs (a n : Nat) (s : State) : (hostLoad a n s).hs = s.hs := rfl
@[simp] theorem hostLoad_opad (a n : Nat) (s : State) : (hostLoad a n s).opad = s.opad := rfl
@[simp] theorem hostLoad_cmdLatch (a n : Nat) (s : State) : (hostLoad a n s).cmdLatch = s.cmdLatch := rfl
@[simp] theorem hostLoad_mem (a n : Nat) (s : State) : (hostLoad a n s).mem = s.mem := rfl
@[simp] theorem hostLoad_platform (a n : Nat) (s : State) : (hostLoad a n s).platform = s.platform := rfl
@[simp] theorem hostLoad_inputs (a n : Nat) (s : State) : (hostLoad a n s).inputs = s.inputs := rfl
@[simp] theorem hostLoad_observed (a n : Nat) (s : State) : (hostLoad a n s).observed = .bytes a (hostBytes s a s.draws n) :: s.observed := rfl
@[simp] theorem hostLoad_draws (a n : Nat) (s : State) : (hostLoad a n s).draws = s.draws + n := rfl
@[simp] theorem hostLoad_unobserved (a n : Nat) (s : State) : (hostLoad a n s).unobserved = s.unobserved := rfl
@[simp] theorem hostLoad_unflushed (a n : Nat) (s : State) : (hostLoad a n s).unflushed = s.unflushed := rfl
@[simp] theorem hostLoad_uninvalidated (a n : Nat) (s : State) : (hostLoad a n s).uninvalidated = s.uninvalidated := rfl

/-! Cache maintenance (20 R110) -/

@[simp] theorem maintainCaches_keysz (s : State) : (maintainCaches s).keysz = s.keysz := rfl
@[simp] theorem maintainCaches_irqEn (s : State) : (maintainCaches s).irqEn = s.irqEn := rfl
@[simp] theorem maintainCaches_busy (s : State) : (maintainCaches s).busy = s.busy := rfl
@[simp] theorem maintainCaches_verifyOk (s : State) : (maintainCaches s).verifyOk = s.verifyOk := rfl
@[simp] theorem maintainCaches_err (s : State) : (maintainCaches s).err = s.err := rfl
@[simp] theorem maintainCaches_done (s : State) : (maintainCaches s).done = s.done := rfl
@[simp] theorem maintainCaches_ovr (s : State) : (maintainCaches s).ovr = s.ovr := rfl
@[simp] theorem maintainCaches_outLen (s : State) : (maintainCaches s).outLen = s.outLen := rfl
@[simp] theorem maintainCaches_srcAddr (s : State) : (maintainCaches s).srcAddr = s.srcAddr := rfl
@[simp] theorem maintainCaches_srcLen (s : State) : (maintainCaches s).srcLen = s.srcLen := rfl
@[simp] theorem maintainCaches_dstAddr (s : State) : (maintainCaches s).dstAddr = s.dstAddr := rfl
@[simp] theorem maintainCaches_aadAddr (s : State) : (maintainCaches s).aadAddr = s.aadAddr := rfl
@[simp] theorem maintainCaches_aadLen (s : State) : (maintainCaches s).aadLen = s.aadLen := rfl
@[simp] theorem maintainCaches_nonceAddr (s : State) : (maintainCaches s).nonceAddr = s.nonceAddr := rfl
@[simp] theorem maintainCaches_nonceLen (s : State) : (maintainCaches s).nonceLen = s.nonceLen := rfl
@[simp] theorem maintainCaches_key (s : State) : (maintainCaches s).key = s.key := rfl
@[simp] theorem maintainCaches_iv (s : State) : (maintainCaches s).iv = s.iv := rfl
@[simp] theorem maintainCaches_ivw (s : State) : (maintainCaches s).ivw = s.ivw := rfl
@[simp] theorem maintainCaches_digest (s : State) : (maintainCaches s).digest = s.digest := rfl
@[simp] theorem maintainCaches_hmode (s : State) : (maintainCaches s).hmode = s.hmode := rfl
@[simp] theorem maintainCaches_hs (s : State) : (maintainCaches s).hs = s.hs := rfl
@[simp] theorem maintainCaches_opad (s : State) : (maintainCaches s).opad = s.opad := rfl
@[simp] theorem maintainCaches_cmdLatch (s : State) : (maintainCaches s).cmdLatch = s.cmdLatch := rfl
@[simp] theorem maintainCaches_mem (s : State) : (maintainCaches s).mem = s.mem := rfl
@[simp] theorem maintainCaches_platform (s : State) : (maintainCaches s).platform = s.platform := rfl
@[simp] theorem maintainCaches_inputs (s : State) : (maintainCaches s).inputs = s.inputs := rfl
@[simp] theorem maintainCaches_observed (s : State) : (maintainCaches s).observed = s.observed := rfl
@[simp] theorem maintainCaches_draws (s : State) : (maintainCaches s).draws = s.draws := rfl
@[simp] theorem maintainCaches_unobserved (s : State) : (maintainCaches s).unobserved = s.unobserved := rfl
@[simp] theorem maintainCaches_unflushed (s : State) : (maintainCaches s).unflushed = [] := rfl
@[simp] theorem maintainCaches_uninvalidated (s : State) : (maintainCaches s).uninvalidated = [] := rfl

/-! Sensing IRQ (60 R450) -/

@[simp] theorem senseIrq_keysz (s : State) : (senseIrq s).keysz = s.keysz := rfl
@[simp] theorem senseIrq_irqEn (s : State) : (senseIrq s).irqEn = s.irqEn := rfl
@[simp] theorem senseIrq_busy (s : State) : (senseIrq s).busy = s.busy := rfl
@[simp] theorem senseIrq_verifyOk (s : State) : (senseIrq s).verifyOk = s.verifyOk := rfl
@[simp] theorem senseIrq_err (s : State) : (senseIrq s).err = s.err := rfl
@[simp] theorem senseIrq_done (s : State) : (senseIrq s).done = s.done := rfl
@[simp] theorem senseIrq_ovr (s : State) : (senseIrq s).ovr = s.ovr := rfl
@[simp] theorem senseIrq_outLen (s : State) : (senseIrq s).outLen = s.outLen := rfl
@[simp] theorem senseIrq_srcAddr (s : State) : (senseIrq s).srcAddr = s.srcAddr := rfl
@[simp] theorem senseIrq_srcLen (s : State) : (senseIrq s).srcLen = s.srcLen := rfl
@[simp] theorem senseIrq_dstAddr (s : State) : (senseIrq s).dstAddr = s.dstAddr := rfl
@[simp] theorem senseIrq_aadAddr (s : State) : (senseIrq s).aadAddr = s.aadAddr := rfl
@[simp] theorem senseIrq_aadLen (s : State) : (senseIrq s).aadLen = s.aadLen := rfl
@[simp] theorem senseIrq_nonceAddr (s : State) : (senseIrq s).nonceAddr = s.nonceAddr := rfl
@[simp] theorem senseIrq_nonceLen (s : State) : (senseIrq s).nonceLen = s.nonceLen := rfl
@[simp] theorem senseIrq_key (s : State) : (senseIrq s).key = s.key := rfl
@[simp] theorem senseIrq_iv (s : State) : (senseIrq s).iv = s.iv := rfl
@[simp] theorem senseIrq_ivw (s : State) : (senseIrq s).ivw = s.ivw := rfl
@[simp] theorem senseIrq_digest (s : State) : (senseIrq s).digest = s.digest := rfl
@[simp] theorem senseIrq_hmode (s : State) : (senseIrq s).hmode = s.hmode := rfl
@[simp] theorem senseIrq_hs (s : State) : (senseIrq s).hs = s.hs := rfl
@[simp] theorem senseIrq_opad (s : State) : (senseIrq s).opad = s.opad := rfl
@[simp] theorem senseIrq_cmdLatch (s : State) : (senseIrq s).cmdLatch = s.cmdLatch := rfl
@[simp] theorem senseIrq_mem (s : State) : (senseIrq s).mem = s.mem := rfl
@[simp] theorem senseIrq_platform (s : State) : (senseIrq s).platform = s.platform := rfl
@[simp] theorem senseIrq_inputs (s : State) : (senseIrq s).inputs = s.inputs := rfl
@[simp] theorem senseIrq_observed (s : State) : (senseIrq s).observed = .irq (irq s) :: s.observed := rfl
@[simp] theorem senseIrq_draws (s : State) : (senseIrq s).draws = s.draws := rfl
@[simp] theorem senseIrq_unobserved (s : State) : (senseIrq s).unobserved = leftUnobserved (irq s) s := rfl
@[simp] theorem senseIrq_unflushed (s : State) : (senseIrq s).unflushed = s.unflushed := rfl
@[simp] theorem senseIrq_uninvalidated (s : State) : (senseIrq s).uninvalidated = s.uninvalidated := rfl

/-! A completion not yet observed (20 R111) -/

@[simp] theorem awaitObservation_keysz (i : Instr) (s : State) : (awaitObservation i s).keysz = s.keysz := rfl
@[simp] theorem awaitObservation_irqEn (i : Instr) (s : State) : (awaitObservation i s).irqEn = s.irqEn := rfl
@[simp] theorem awaitObservation_busy (i : Instr) (s : State) : (awaitObservation i s).busy = s.busy := rfl
@[simp] theorem awaitObservation_verifyOk (i : Instr) (s : State) : (awaitObservation i s).verifyOk = s.verifyOk := rfl
@[simp] theorem awaitObservation_err (i : Instr) (s : State) : (awaitObservation i s).err = s.err := rfl
@[simp] theorem awaitObservation_done (i : Instr) (s : State) : (awaitObservation i s).done = s.done := rfl
@[simp] theorem awaitObservation_ovr (i : Instr) (s : State) : (awaitObservation i s).ovr = s.ovr := rfl
@[simp] theorem awaitObservation_outLen (i : Instr) (s : State) : (awaitObservation i s).outLen = s.outLen := rfl
@[simp] theorem awaitObservation_srcAddr (i : Instr) (s : State) : (awaitObservation i s).srcAddr = s.srcAddr := rfl
@[simp] theorem awaitObservation_srcLen (i : Instr) (s : State) : (awaitObservation i s).srcLen = s.srcLen := rfl
@[simp] theorem awaitObservation_dstAddr (i : Instr) (s : State) : (awaitObservation i s).dstAddr = s.dstAddr := rfl
@[simp] theorem awaitObservation_aadAddr (i : Instr) (s : State) : (awaitObservation i s).aadAddr = s.aadAddr := rfl
@[simp] theorem awaitObservation_aadLen (i : Instr) (s : State) : (awaitObservation i s).aadLen = s.aadLen := rfl
@[simp] theorem awaitObservation_nonceAddr (i : Instr) (s : State) : (awaitObservation i s).nonceAddr = s.nonceAddr := rfl
@[simp] theorem awaitObservation_nonceLen (i : Instr) (s : State) : (awaitObservation i s).nonceLen = s.nonceLen := rfl
@[simp] theorem awaitObservation_key (i : Instr) (s : State) : (awaitObservation i s).key = s.key := rfl
@[simp] theorem awaitObservation_iv (i : Instr) (s : State) : (awaitObservation i s).iv = s.iv := rfl
@[simp] theorem awaitObservation_ivw (i : Instr) (s : State) : (awaitObservation i s).ivw = s.ivw := rfl
@[simp] theorem awaitObservation_digest (i : Instr) (s : State) : (awaitObservation i s).digest = s.digest := rfl
@[simp] theorem awaitObservation_hmode (i : Instr) (s : State) : (awaitObservation i s).hmode = s.hmode := rfl
@[simp] theorem awaitObservation_hs (i : Instr) (s : State) : (awaitObservation i s).hs = s.hs := rfl
@[simp] theorem awaitObservation_opad (i : Instr) (s : State) : (awaitObservation i s).opad = s.opad := rfl
@[simp] theorem awaitObservation_cmdLatch (i : Instr) (s : State) : (awaitObservation i s).cmdLatch = s.cmdLatch := rfl
@[simp] theorem awaitObservation_mem (i : Instr) (s : State) : (awaitObservation i s).mem = s.mem := rfl
@[simp] theorem awaitObservation_platform (i : Instr) (s : State) : (awaitObservation i s).platform = s.platform := rfl
@[simp] theorem awaitObservation_inputs (i : Instr) (s : State) : (awaitObservation i s).inputs = s.inputs := rfl
@[simp] theorem awaitObservation_observed (i : Instr) (s : State) : (awaitObservation i s).observed = s.observed := rfl
@[simp] theorem awaitObservation_draws (i : Instr) (s : State) : (awaitObservation i s).draws = s.draws := rfl
@[simp] theorem awaitObservation_unobserved (i : Instr) (s : State) : (awaitObservation i s).unobserved = footprint i s :: s.unobserved := rfl
@[simp] theorem awaitObservation_unflushed (i : Instr) (s : State) : (awaitObservation i s).unflushed = s.unflushed := rfl
@[simp] theorem awaitObservation_uninvalidated (i : Instr) (s : State) : (awaitObservation i s).uninvalidated = s.uninvalidated := rfl

/-! Reset (70 R490) -/

@[simp] theorem hardReset_keysz (s : State) : (hardReset s).keysz = 0 := rfl
@[simp] theorem hardReset_irqEn (s : State) : (hardReset s).irqEn = false := rfl
@[simp] theorem hardReset_busy (s : State) : (hardReset s).busy = false := rfl
@[simp] theorem hardReset_verifyOk (s : State) : (hardReset s).verifyOk = false := rfl
@[simp] theorem hardReset_err (s : State) : (hardReset s).err = .ok := rfl
@[simp] theorem hardReset_done (s : State) : (hardReset s).done = false := rfl
@[simp] theorem hardReset_ovr (s : State) : (hardReset s).ovr = false := rfl
@[simp] theorem hardReset_outLen (s : State) : (hardReset s).outLen = 0 := rfl
@[simp] theorem hardReset_srcAddr (s : State) : (hardReset s).srcAddr = 0 := rfl
@[simp] theorem hardReset_srcLen (s : State) : (hardReset s).srcLen = 0 := rfl
@[simp] theorem hardReset_dstAddr (s : State) : (hardReset s).dstAddr = 0 := rfl
@[simp] theorem hardReset_aadAddr (s : State) : (hardReset s).aadAddr = 0 := rfl
@[simp] theorem hardReset_aadLen (s : State) : (hardReset s).aadLen = 0 := rfl
@[simp] theorem hardReset_nonceAddr (s : State) : (hardReset s).nonceAddr = 0 := rfl
@[simp] theorem hardReset_nonceLen (s : State) : (hardReset s).nonceLen = 0 := rfl
@[simp] theorem hardReset_key (s : State) : (hardReset s).key = Vector.replicate 8 0 := rfl
@[simp] theorem hardReset_iv (s : State) : (hardReset s).iv = Vector.replicate 4 0 := rfl
@[simp] theorem hardReset_ivw (s : State) : (hardReset s).ivw = 0 := rfl
@[simp] theorem hardReset_digest (s : State) : (hardReset s).digest = Vector.replicate 8 0 := rfl
@[simp] theorem hardReset_hmode (s : State) : (hardReset s).hmode = .none := rfl
@[simp] theorem hardReset_hs (s : State) : (hardReset s).hs = .zero := rfl
@[simp] theorem hardReset_opad (s : State) : (hardReset s).opad = Vector.replicate 64 0 := rfl
@[simp] theorem hardReset_cmdLatch (s : State) : (hardReset s).cmdLatch = 0 := rfl
@[simp] theorem hardReset_mem (s : State) : (hardReset s).mem = s.mem := rfl
@[simp] theorem hardReset_platform (s : State) : (hardReset s).platform = s.platform := rfl
@[simp] theorem hardReset_inputs (s : State) : (hardReset s).inputs = s.inputs := rfl
@[simp] theorem hardReset_observed (s : State) : (hardReset s).observed = s.observed := rfl
@[simp] theorem hardReset_draws (s : State) : (hardReset s).draws = s.draws := rfl
@[simp] theorem hardReset_unobserved (s : State) : (hardReset s).unobserved = s.unobserved := rfl
@[simp] theorem hardReset_unflushed (s : State) : (hardReset s).unflushed = s.unflushed := rfl
@[simp] theorem hardReset_uninvalidated (s : State) : (hardReset s).uninvalidated = s.uninvalidated := rfl

end Sys2Proof.Machine
end

