-- ==== Sys2Proof/Laws/Ops.lean ====
section
/-! SUPPORT. What the completion of a command can do, said once: `exec` as one shared completion of a plan, the inversion of its
checks, and everything an error or a success changes. -/

namespace Sys2Proof.Machine

/-! ### Checks -/

theorem require_ok {c : Bool} {e : ErrCode} {k : Except ErrCode Plan} {q : Plan} :
    require c e k = .ok q ↔ c = true ∧ k = .ok q := by
  cases c <;> simp [require]

theorem require_error {c : Bool} {e e' : ErrCode} {k : Except ErrCode Plan} :
    require c e k = .error e' ↔ (c = false ∧ e = e') ∨ (c = true ∧ k = .error e') := by
  cases c <;> simp [require]

@[simp] theorem require_true {e : ErrCode} {k : Except ErrCode Plan} : require true e k = k := rfl

@[simp] theorem require_false {e : ErrCode} {k : Except ErrCode Plan} : require false e k = .error e := rfl

theorem modeChecks_ok {u l : Bool} {s : State} {k : Except ErrCode Plan} {q : Plan} :
    modeChecks u l s k = .ok q ↔
      keyOk s = true ∧ (u = true → ivValid s = true) ∧ l = true ∧ srcOk s = true ∧ k = .ok q := by
  simp only [modeChecks, require_ok]
  cases u <;> simp

theorem gcmChecks_ok {l : Bool} {s : State} {k : Except ErrCode Plan} {q : Plan} :
    gcmChecks l s k = .ok q ↔
      keyOk s = true ∧ s.nonceLen ≠ 0 ∧ l = true ∧ srcOk s = true ∧ aadOk s = true ∧ nonceOk s = true ∧ k = .ok q := by
  simp [gcmChecks, require_ok, and_assoc]

theorem updateChecks_ok {o : HMode} {s : State} {k : Except ErrCode Plan} {q : Plan} :
    updateChecks o s k = .ok q ↔
      s.hmode = o ∧ s.hs.bitlen.toNat + 8 * srcN s ≤ 2 ^ 64 - 1 ∧ srcOk s = true ∧ k = .ok q := by
  simp only [updateChecks, require_ok, beq_iff_eq, decide_eq_true_eq]

theorem keyOk_iff (s : State) : keyOk s = true ↔ s.keysz ≠ 3 := by
  have h : ∀ k : BitVec 2, (keyLen k).isSome = true ↔ k ≠ 3 := by decide
  exact h s.keysz

theorem ivValid_iff (s : State) : ivValid s = true ↔ s.ivw = 0b1111 := by simp [ivValid]

/-- The checks of a mode command, as the order of 60 R443 has them. -/
theorem modeChecks_eq (u l : Bool) (s : State) (k : Except ErrCode Plan) :
    modeChecks u l s k =
      if s.keysz = 3 then .error .invalidKeyLength
      else if u = true ∧ s.ivw ≠ 0b1111 then .error .missingIv
      else if l = false then .error .invalidLength
      else if srcOk s = false then .error .busError
      else k := by
  by_cases h1 : s.keysz = 3
  · rw [if_pos h1, modeChecks, show keyOk s = false by rw [← Bool.not_eq_true, keyOk_iff]; exact not_not.mpr h1]; rfl
  · rw [if_neg h1, modeChecks, (keyOk_iff s).mpr h1, require_true]
    by_cases h2 : s.ivw = 0b1111
    · rw [(ivValid_iff s).mpr h2, if_neg (fun h => h.2 h2), Bool.or_true, require_true]
      cases l <;> cases srcOk s <;> rfl
    · rw [show ivValid s = false by rw [← Bool.not_eq_true, ivValid_iff]; exact h2]
      cases u with
      | true => rw [if_pos ⟨rfl, h2⟩]; rfl
      | false =>
        rw [if_neg (fun h => Bool.false_ne_true h.1)]
        cases l <;> cases srcOk s <;> rfl

/-- The checks of a GCM command, as the order of 60 R443 has them. -/
theorem gcmChecks_eq (l : Bool) (s : State) (k : Except ErrCode Plan) :
    gcmChecks l s k =
      if s.keysz = 3 then .error .invalidKeyLength
      else if s.nonceLen = 0 then .error .invalidNonceOrIvLength
      else if l = false then .error .invalidLength
      else if srcOk s = false ∨ aadOk s = false ∨ nonceOk s = false then .error .busError
      else k := by
  by_cases h1 : s.keysz = 3
  · rw [if_pos h1, gcmChecks, show keyOk s = false by rw [← Bool.not_eq_true, keyOk_iff]; exact not_not.mpr h1]; rfl
  · rw [if_neg h1, gcmChecks, (keyOk_iff s).mpr h1, require_true]
    by_cases h2 : s.nonceLen = 0
    · rw [if_pos h2, show (s.nonceLen != 0) = false by simp [h2]]; rfl
    · rw [if_neg h2, show (s.nonceLen != 0) = true from bne_iff_ne.mpr h2, require_true]
      cases l <;> cases srcOk s <;> cases aadOk s <;> cases nonceOk s <;> rfl

/-- The checks of an UPDATE command, as the order of 60 R443 has them. -/
theorem updateChecks_eq (o : HMode) (s : State) (k : Except ErrCode Plan) :
    updateChecks o s k =
      if s.hmode ≠ o then .error .sequenceError
      else if 2 ^ 64 - 1 < s.hs.bitlen.toNat + 8 * srcN s then .error .invalidLength
      else if srcOk s = false then .error .busError
      else k := by
  by_cases h1 : s.hmode = o
  · rw [if_neg (not_not.mpr h1), updateChecks, h1, beq_self_eq_true, require_true]
    by_cases h2 : s.hs.bitlen.toNat + 8 * srcN s ≤ 2 ^ 64 - 1
    · rw [if_neg (by omega), decide_eq_true h2, require_true]
      cases srcOk s <;> rfl
    · rw [if_pos (by omega), decide_eq_false h2]; rfl
  · rw [if_pos h1, updateChecks, beq_eq_false_iff_ne.mpr h1]; rfl

/-! ### One completion for every command -/

/-- The plan of every command. -/
def planOf (i : Instr) (s : State) : Except ErrCode Plan :=
  match i with
  | .ecbEnc f => planEcbEnc f s
  | .ecbDec f => planEcbDec f s
  | .cbcEnc f => planCbcEnc f s
  | .cbcDec f => planCbcDec f s
  | .cfbEnc f => planCfbEnc f s
  | .cfbDec f => planCfbDec f s
  | .ofbEnc f => planOfbEnc f s
  | .ofbDec f => planOfbDec f s
  | .ctrEnc f => planCtrEnc f s
  | .ctrDec f => planCtrDec f s
  | .gcmEnc => planGcmEnc s
  | .gcmDec => planGcmDec s
  | .shaInit => planShaInit s
  | .shaUpdate => planShaUpdate s
  | .shaFinal => planShaFinal s
  | .hmacInit => planHmacInit s
  | .hmacUpdate => planHmacUpdate s
  | .hmacFinal => planHmacFinal s
  | .hmacVerify => planHmacVerify s
  | .clear => planClear s

/-- Every command is the shared completion of its plan (40 R187). -/
theorem exec_eq (i : Instr) (s : State) : exec i s = complete s (planOf i s) := by cases i <;> rfl

/-- Every command answers a next state (60 R442, R451). -/
theorem exec_next (i : Instr) (s : State) : exec i s = .next (finish (conclude s (planOf i s))) := exec_eq i s

theorem exec_next_iff {i : Instr} {s t : State} : exec i s = .next t ↔ t = finish (conclude s (planOf i s)) := by
  rw [exec_next]
  exact ⟨fun h => (Host.Outcome.next.inj h).symm, fun h => h ▸ rfl⟩

/-- A completion raises one error, or carries its plan out. -/
theorem conclude_cases (s : State) (p : Except ErrCode Plan) :
    (∃ e, p = .error e ∧ conclude s p = raiseError e s) ∨
    (∃ q, p = .ok q ∧ rangeOk s.platform s.dstAddr.toNat q.out.length = false ∧ conclude s p = raiseError .busError s) ∨
    (∃ q, p = .ok q ∧ rangeOk s.platform s.dstAddr.toNat q.out.length = true ∧ q.authentic = false ∧
      conclude s p = raiseError .authenticationError s) ∨
    (∃ q, p = .ok q ∧ rangeOk s.platform s.dstAddr.toNat q.out.length = true ∧ q.authentic = true ∧
      conclude s p = writeOut q.out q.after) := by
  cases p with
  | error e => exact .inl ⟨e, rfl, rfl⟩
  | ok q =>
    refine .inr ?_
    by_cases h1 : rangeOk s.platform s.dstAddr.toNat q.out.length = true
    · by_cases h2 : q.authentic = true
      · exact .inr (.inr ⟨q, rfl, h1, h2, by simp [conclude, h1, h2]⟩)
      · exact .inr (.inl ⟨q, rfl, h1, by simpa using h2, by simp [conclude, h1, h2]⟩)
    · exact .inl ⟨q, rfl, by simpa using h1, by simp [conclude, h1]⟩

theorem conclude_error (s : State) (e : ErrCode) : conclude s (.error e) = raiseError e s := rfl

theorem conclude_ok {s : State} {q : Plan} (h : rangeOk s.platform s.dstAddr.toNat q.out.length = true)
    (ha : q.authentic = true) : conclude s (.ok q) = writeOut q.out q.after := by
  simp [conclude, h, ha]

/-! ### The errors a command can raise -/

theorem unpadded_error {a : State} {o : Option (List Byte)} {e : ErrCode} (h : unpadded a o = .error e) :
    e = .invalidPadding := by
  cases o with
  | none => exact (Except.error.inj h).symm
  | some x => exact absurd h (by simp [unpadded])

/-- A command's plan fails with one of the errors of 60 R443, never with OK or with the host's own InvalidParameter. -/
theorem planOf_error {i : Instr} {s : State} {e : ErrCode} (h : planOf i s = .error e) :
    e ≠ .ok ∧ e ≠ .invalidParameter := by
  cases i <;>
    simp only [planOf, planEcbEnc, planEcbDec, planCbcEnc, planCbcDec, planCfbEnc, planCfbDec, planOfbEnc, planOfbDec,
      planCtrEnc, planCtrDec, planGcmEnc, planGcmDec, planShaInit, planShaUpdate, planShaFinal, planHmacInit, planHmacUpdate,
      planHmacFinal, planHmacVerify, planClear, modeChecks, gcmChecks, updateChecks, chained, require_error, reduceCtorEq,
      and_false, or_false] at h
  case ecbDec f => rcases h with ⟨_, rfl⟩ | ⟨_, ⟨_, rfl⟩ | ⟨_, ⟨_, rfl⟩ | ⟨_, ⟨_, rfl⟩ | ⟨_, h⟩⟩⟩⟩ <;> first
    | (rw [unpadded_error h]; simp)
    | simp
  case cbcDec f => rcases h with ⟨_, rfl⟩ | ⟨_, ⟨_, rfl⟩ | ⟨_, ⟨_, rfl⟩ | ⟨_, ⟨_, rfl⟩ | ⟨_, h⟩⟩⟩⟩ <;> first
    | (rw [unpadded_error h]; simp)
    | simp
  case shaFinal => obtain ⟨_, rfl⟩ := h; simp
  case hmacFinal => obtain ⟨_, rfl⟩ := h; simp
  case hmacInit => obtain ⟨_, rfl⟩ := h; simp
  case shaUpdate => rcases h with ⟨_, rfl⟩ | ⟨_, ⟨_, rfl⟩ | ⟨_, _, rfl⟩⟩ <;> simp
  case hmacUpdate => rcases h with ⟨_, rfl⟩ | ⟨_, ⟨_, rfl⟩ | ⟨_, _, rfl⟩⟩ <;> simp
  case hmacVerify => rcases h with ⟨_, rfl⟩ | ⟨_, ⟨_, rfl⟩ | ⟨_, _, rfl⟩⟩ <;> simp
  all_goals rcases h with ⟨_, rfl⟩ | ⟨_, ⟨_, rfl⟩ | ⟨_, ⟨_, rfl⟩ | ⟨_, _, rfl⟩⟩⟩ <;> simp

/-! ### What a successful command leaves -/

/-- The state after the register and internal-state effects of a command that succeeds. -/
def AfterSpec (i : Instr) (s a : State) : Prop :=
  match i with
  | .ecbEnc _ | .ecbDec _ | .gcmEnc | .gcmDec => a = s
  | .cbcEnc _ | .cbcDec _ | .cfbEnc _ | .cfbDec _ | .ofbEnc _ | .ofbDec _ | .ctrEnc _ | .ctrDec _ => ∃ v, a = setIv v s
  | .shaInit => a = { s with hs := .init, hmode := .sha, opad := Vector.replicate 64 0 }
  | .shaUpdate => s.hmode = .sha ∧ s.hs.bitlen.toNat + 8 * srcN s ≤ 2 ^ 64 - 1 ∧
      a = { s with hs := absorb s.hs (srcBytes s) }
  | .hmacUpdate => s.hmode = .hmac ∧ s.hs.bitlen.toNat + 8 * srcN s ≤ 2 ^ 64 - 1 ∧
      a = { s with hs := absorb s.hs (srcBytes s) }
  | .shaFinal => s.hmode = .sha ∧ a = { setDigest (digest s.hs) s with hs := .zero, hmode := .none }
  | .hmacInit => a = { s with
      hs := absorb .init (hmacIpad (srcBytes s)), opad := toPad64 (hmacOpad (srcBytes s)), hmode := .hmac }
  | .hmacFinal => s.hmode = .hmac ∧ a = endHash (setDigest (hmacResult s) s)
  | .hmacVerify => s.hmode = .hmac ∧ a = endHash { s with verifyOk := tagEqual (hmacResult s) (srcBytes s) }
  | .clear => a = clearSecrets s

theorem unpadded_after {a : State} {o : Option (List Byte)} {q : Plan} (h : unpadded a o = .ok q) :
    ∃ out, o = some out ∧ q = ⟨out, true, a⟩ := by
  cases o with
  | none => simp [unpadded] at h
  | some x => exact ⟨x, rfl, (Except.ok.inj h).symm⟩

theorem planOf_after {i : Instr} {s : State} {q : Plan} (h : planOf i s = .ok q) : AfterSpec i s q.after := by
  cases i <;>
    simp only [planOf, planEcbEnc, planEcbDec, planCbcEnc, planCbcDec, planCfbEnc, planCfbDec, planOfbEnc, planOfbDec,
      planCtrEnc, planCtrDec, planGcmEnc, planGcmDec, planShaInit, planShaUpdate, planShaFinal, planHmacInit, planHmacUpdate,
      planHmacFinal, planHmacVerify, planClear, modeChecks_ok, gcmChecks_ok, updateChecks_ok, chained, require_ok,
      beq_iff_eq, Except.ok.injEq] at h
  case ecbDec f => obtain ⟨_, _, _, _, h⟩ := h; obtain ⟨_, _, rfl⟩ := unpadded_after h; rfl
  case cbcDec f => obtain ⟨_, _, _, _, h⟩ := h; obtain ⟨_, _, rfl⟩ := unpadded_after h; exact ⟨_, rfl⟩
  case ecbEnc f => obtain ⟨_, _, _, _, rfl⟩ := h; rfl
  case gcmEnc => obtain ⟨_, _, _, _, _, _, rfl⟩ := h; rfl
  case gcmDec => obtain ⟨_, _, _, _, _, _, rfl⟩ := h; rfl
  case shaInit => subst h; rfl
  case clear => subst h; rfl
  case shaUpdate => obtain ⟨h1, h2, _, rfl⟩ := h; exact ⟨h1, h2, rfl⟩
  case hmacUpdate => obtain ⟨h1, h2, _, rfl⟩ := h; exact ⟨h1, h2, rfl⟩
  case shaFinal => obtain ⟨h1, rfl⟩ := h; exact ⟨h1, rfl⟩
  case hmacFinal => obtain ⟨h1, rfl⟩ := h; exact ⟨h1, rfl⟩
  case hmacInit => obtain ⟨_, rfl⟩ := h; rfl
  case hmacVerify => obtain ⟨h1, _, _, rfl⟩ := h; exact ⟨h1, rfl⟩
  all_goals obtain ⟨_, _, _, _, rfl⟩ := h; exact ⟨_, rfl⟩

/-- The verdict of the tag check is asked of GCM_DEC only (60 R443 step 10). -/
theorem planOf_authentic {i : Instr} {s : State} {q : Plan} (h : planOf i s = .ok q) (hi : i ≠ .gcmDec) :
    q.authentic = true := by
  cases i <;>
    simp only [planOf, planEcbEnc, planEcbDec, planCbcEnc, planCbcDec, planCfbEnc, planCfbDec, planOfbEnc, planOfbDec,
      planCtrEnc, planCtrDec, planGcmEnc, planGcmDec, planShaInit, planShaUpdate, planShaFinal, planHmacInit, planHmacUpdate,
      planHmacFinal, planHmacVerify, planClear, modeChecks_ok, gcmChecks_ok, updateChecks_ok, chained, require_ok,
      beq_iff_eq, Except.ok.injEq] at h
  case ecbDec f => obtain ⟨_, _, _, _, h⟩ := h; obtain ⟨_, _, rfl⟩ := unpadded_after h; rfl
  case cbcDec f => obtain ⟨_, _, _, _, h⟩ := h; obtain ⟨_, _, rfl⟩ := unpadded_after h; rfl
  case gcmDec => exact absurd rfl hi
  case gcmEnc => obtain ⟨_, _, _, _, _, _, rfl⟩ := h; rfl
  case shaInit => subst h; rfl
  case clear => subst h; rfl
  case shaUpdate => obtain ⟨h1, h2, _, rfl⟩ := h; rfl
  case hmacUpdate => obtain ⟨h1, h2, _, rfl⟩ := h; rfl
  case shaFinal => obtain ⟨h1, rfl⟩ := h; rfl
  case hmacFinal => obtain ⟨h1, rfl⟩ := h; rfl
  case hmacInit => obtain ⟨_, rfl⟩ := h; rfl
  case hmacVerify => obtain ⟨h1, _, _, rfl⟩ := h; rfl
  all_goals obtain ⟨_, _, _, _, rfl⟩ := h; rfl

/-- No command changes an operand register, the platform, memory or the model's own fields before its output is written. -/
theorem AfterSpec.frame {i : Instr} {s a : State} (h : AfterSpec i s a) :
    a.keysz = s.keysz ∧ a.irqEn = s.irqEn ∧ a.busy = s.busy ∧ a.err = s.err ∧ a.done = s.done ∧ a.ovr = s.ovr ∧
    a.srcAddr = s.srcAddr ∧ a.srcLen = s.srcLen ∧ a.dstAddr = s.dstAddr ∧ a.aadAddr = s.aadAddr ∧ a.aadLen = s.aadLen ∧
    a.nonceAddr = s.nonceAddr ∧ a.nonceLen = s.nonceLen ∧ a.cmdLatch = s.cmdLatch ∧ a.mem = s.mem ∧
    a.platform = s.platform ∧ a.inputs = s.inputs ∧ a.observed = s.observed ∧ a.draws = s.draws ∧
    a.unobserved = s.unobserved ∧ a.unflushed = s.unflushed ∧ a.uninvalidated = s.uninvalidated := by
  cases i <;> simp only [AfterSpec] at h
  case ecbEnc | ecbDec | gcmEnc | gcmDec => subst h; simp
  case shaInit | hmacInit => subst h; simp
  case clear => subst h; simp [clearSecrets]
  case shaUpdate | hmacUpdate => obtain ⟨_, _, rfl⟩ := h; simp
  case shaFinal | hmacFinal | hmacVerify => obtain ⟨_, rfl⟩ := h; simp
  all_goals obtain ⟨v, rfl⟩ := h; simp

/-- Everything a command can do: it raises one error (40 R188), or its plan passes the checks 9 and 10 and is carried out. -/
theorem exec_cases {i : Instr} {s t : State} (h : exec i s = .next t) :
    (∃ e, e ≠ .ok ∧ e ≠ .invalidParameter ∧ t = finish (raiseError e s)) ∨
    (∃ q, planOf i s = .ok q ∧ rangeOk s.platform s.dstAddr.toNat q.out.length = true ∧ q.authentic = true ∧
      AfterSpec i s q.after ∧ t = finish (writeOut q.out q.after)) := by
  rw [exec_next_iff] at h
  subst h
  rcases conclude_cases s (planOf i s) with ⟨e, he, hc⟩ | ⟨q, hq, h1, hc⟩ | ⟨q, hq, h1, h2, hc⟩ | ⟨q, hq, h1, h2, hc⟩
  · exact .inl ⟨e, (planOf_error he).1, (planOf_error he).2, by rw [hc]⟩
  · exact .inl ⟨.busError, by simp, by simp, by rw [hc]⟩
  · exact .inl ⟨.authenticationError, by simp, by simp, by rw [hc]⟩
  · exact .inr ⟨q, hq, h1, h2, planOf_after hq, by rw [hc]⟩

/-- A command that succeeds, in one direction: from its plan and the checks 9 and 10 to the next state. -/
theorem exec_of_plan {i : Instr} {s : State} {q : Plan} (hq : planOf i s = .ok q)
    (h : rangeOk s.platform s.dstAddr.toNat q.out.length = true) (ha : q.authentic = true) :
    exec i s = .next (finish (writeOut q.out q.after)) := by
  rw [exec_next, hq, conclude_ok h ha]

/-- A command whose plan fails. -/
theorem exec_of_error {i : Instr} {s : State} {e : ErrCode} (hq : planOf i s = .error e) :
    exec i s = .next (finish (raiseError e s)) := by
  rw [exec_next, hq, conclude_error]

end Sys2Proof.Machine
end

