-- ==== Sys2Proof/Laws/Modes.lean ====
section
/-! SUPPORT. Laws of padding (40 R182, R183) and of the mode transforms (41 R240 to R261): lengths, pieces, chaining values,
cutting at a piece boundary (41 R270), and decryption after encryption (41 R271, R272). -/

namespace Sys2Proof.Machine

/-! ### Pieces of a string whose first piece is whole -/

theorem piece_zero {p : List Byte} (h : p.length = 16) (bs : List Byte) : ((p ++ bs).drop (16 * 0)).take 16 = p := by
  rw [Nat.mul_zero, List.drop_zero, List.take_append_of_le_length (by omega), List.take_of_length_le (by omega)]

theorem piece_succ {p : List Byte} (h : p.length = 16) (bs : List Byte) (i : Nat) :
    ((p ++ bs).drop (16 * (i + 1))).take 16 = (bs.drop (16 * i)).take 16 := by
  rw [List.drop_append, List.drop_of_length_le (by omega), List.nil_append, show 16 * (i + 1) - p.length = 16 * i by omega]

theorem piece_short {p : List Byte} (h : p.length ≤ 16) : (p.drop (16 * 0)).take 16 = p := by
  rw [Nat.mul_zero, List.drop_zero, List.take_of_length_le h]

/-! ### Padding -/

theorem padLen_pos (n : Nat) : 1 ≤ padLen n := by unfold padLen; omega

theorem padLen_le (n : Nat) : padLen n ≤ 16 := by unfold padLen; omega

theorem add_padLen_mod (n : Nat) : (n + padLen n) % 16 = 0 := by unfold padLen; omega

@[simp] theorem pad_length (bs : List Byte) : (pad bs).length = bs.length + padLen bs.length := by simp [pad]

theorem toNat_padByte {p : Nat} (h : p ≤ 16) : (BitVec.ofNat 8 p).toNat = p := by
  rw [BitVec.toNat_ofNat]; omega

/-- When unpadding succeeds (40 R183). -/
theorem unpad_eq_some {m : List Byte} {p : Nat} (h1 : 1 ≤ p) (h2 : p ≤ 16) (h3 : p ≤ m.length)
    (h4 : ∀ j, m.length - p ≤ j → j < m.length → m.getD j 0 = BitVec.ofNat 8 p) :
    unpad m = some (m.take (m.length - p)) := by
  have hl : (m.getD (m.length - 1) 0).toNat = p := by
    rw [h4 (m.length - 1) (by omega) (by omega), toNat_padByte h2]
  have hall : (m.drop (m.length - p)).all (fun b => b.toNat == p) = true := by
    rw [List.all_eq_true]
    intro b hb
    obtain ⟨j, hj, rfl⟩ := List.getElem_of_mem hb
    rw [List.length_drop] at hj
    have := h4 (m.length - p + j) (by omega) (by omega)
    rw [List.getD_eq_getElem _ _ (by omega)] at this
    rw [List.getElem_drop, this, toNat_padByte h2, beq_self_eq_true]
  simp only [unpad, hl, hall, if_true]
  rw [if_neg (by omega)]

/-- What a successful unpadding has found (40 R183). -/
theorem unpad_some {m out : List Byte} (h : unpad m = some out) :
    ∃ p, 1 ≤ p ∧ p ≤ 16 ∧ (∀ j, m.length - p ≤ j → j < m.length → m.getD j 0 = BitVec.ofNat 8 p) ∧
      out = m.take (m.length - p) := by
  simp only [unpad] at h
  generalize hp : (m.getD (m.length - 1) 0).toNat = p at h
  split at h
  · simp at h
  · next hr =>
    split at h
    · next ha =>
      refine ⟨p, by omega, by omega, fun j h1 h2 => ?_, (Option.some.inj h).symm⟩
      rw [List.all_eq_true] at ha
      have hj : j - (m.length - p) < (m.drop (m.length - p)).length := by rw [List.length_drop]; omega
      have := ha _ (List.getElem_mem hj)
      rw [List.getElem_drop, beq_iff_eq] at this
      rw [List.getD_eq_getElem _ _ h2]
      apply BitVec.eq_of_toNat_eq
      rw [toNat_padByte (by omega), ← this]
      congr 2
      omega
    · simp at h

/-- Unpadding a padded string gives it back (41 R271). -/
theorem unpad_pad (bs : List Byte) : unpad (pad bs) = some bs := by
  have hb := padLen_le bs.length
  rw [unpad_eq_some (p := padLen bs.length) (padLen_pos _) hb (by rw [pad_length]; omega)]
  · rw [pad_length, Nat.add_sub_cancel, pad, List.take_append_of_le_length (le_refl _), List.take_length]
  · intro j h1 h2
    rw [pad_length] at h1 h2
    rw [pad, List.getD_append_right _ _ _ _ (by omega), List.getD_eq_getElem _ _ (by simp; omega), List.getElem_replicate]

/-! ### ECB -/

@[simp] theorem ecb_nil (f : Block → Block) : ecb f [] = [] := rfl

theorem ecb_cons (f : Block → Block) (p : List Byte) (ps : List (List Byte)) :
    ecb f (p :: ps) = ofBlock (f (toBlock p)) ++ ecb f ps := rfl

theorem ecb_append (f : Block → Block) (ps qs : List (List Byte)) : ecb f (ps ++ qs) = ecb f ps ++ ecb f qs := by
  simp [ecb]

theorem ecb_length (f : Block → Block) (ps : List (List Byte)) : (ecb f ps).length = 16 * ps.length := by
  induction ps with
  | nil => rfl
  | cons p ps ih => rw [ecb_cons, List.length_append, ih, ofBlock_length, List.length_cons]; omega

/-- Whole pieces, one after the other. -/
theorem whole_induction {motive : (bs : List Byte) → bs.length % 16 = 0 → Prop} (nil : motive [] rfl)
    (whole : ∀ p bs (hp : p.length = 16) (hb : bs.length % 16 = 0), motive bs hb →
      motive (p ++ bs) (by rw [List.length_append]; omega)) (bs : List Byte)
    (h : bs.length % 16 = 0) : motive bs h := by
  induction bs using blocks_induction with
  | nil => exact nil
  | last p hp hl =>
    have := List.length_pos_iff.mpr hp
    omega
  | whole p bs hp ih =>
    have hb : bs.length % 16 = 0 := by rw [List.length_append] at h; omega
    exact whole p bs hp hb (ih hb)

theorem ecb_blocks_length {bs : List Byte} (h : bs.length % 16 = 0) (f : Block → Block) :
    (ecb f (blocks bs)).length = bs.length := by
  rw [ecb_length, blocks_length]; omega

/-- Block i of ECB (41 R240, R241). -/
theorem ecb_piece (f : Block → Block) {bs : List Byte} (h : bs.length % 16 = 0) (i : Nat) (hi : i < bs.length / 16) :
    ((ecb f (blocks bs)).drop (16 * i)).take 16 = ofBlock (f (toBlock ((bs.drop (16 * i)).take 16))) := by
  induction bs, h using whole_induction generalizing i with
  | nil => simp at hi
  | whole p bs hp _ ih =>
    rw [blocks_cons hp, ecb_cons]
    cases i with
    | zero => rw [piece_zero (ofBlock_length _), piece_zero hp]
    | succ i =>
      rw [piece_succ (ofBlock_length _), piece_succ hp]
      exact ih i (by rw [List.length_append] at hi; omega)

/-- ECB with an inverse block function undoes ECB (41 R271). -/
theorem ecb_ecb {f g : Block → Block} (hfg : ∀ b, g (f b) = b) {bs : List Byte} (h : bs.length % 16 = 0) :
    ecb g (blocks (ecb f (blocks bs))) = bs := by
  induction bs, h using whole_induction with
  | nil => simp
  | whole p bs hp _ ih =>
    rw [blocks_cons hp, ecb_cons, blocks_cons (ofBlock_length _), ecb_cons, ih, toBlock_ofBlock, hfg, ofBlock_toBlock hp]

/-! ### CBC -/

theorem cbcEncrypt_cons (e : Block → Block) (v : Block) (p : List Byte) (ps : List (List Byte)) :
    cbcEncrypt e v (p :: ps) =
      (ofBlock (e (toBlock p ^^^ v)) ++ (cbcEncrypt e (e (toBlock p ^^^ v)) ps).1, (cbcEncrypt e (e (toBlock p ^^^ v)) ps).2) :=
  rfl

theorem cbcDecrypt_cons (d : Block → Block) (v : Block) (p : List Byte) (ps : List (List Byte)) :
    cbcDecrypt d v (p :: ps) =
      (ofBlock (d (toBlock p) ^^^ v) ++ (cbcDecrypt d (toBlock p) ps).1, (cbcDecrypt d (toBlock p) ps).2) := rfl

theorem cbcEncrypt_append (e : Block → Block) (v : Block) (ps qs : List (List Byte)) :
    cbcEncrypt e v (ps ++ qs) =
      ((cbcEncrypt e v ps).1 ++ (cbcEncrypt e (cbcEncrypt e v ps).2 qs).1, (cbcEncrypt e (cbcEncrypt e v ps).2 qs).2) := by
  induction ps generalizing v with
  | nil => rfl
  | cons p ps ih => rw [List.cons_append, cbcEncrypt_cons, ih, cbcEncrypt_cons]; simp

theorem cbcDecrypt_append (d : Block → Block) (v : Block) (ps qs : List (List Byte)) :
    cbcDecrypt d v (ps ++ qs) =
      ((cbcDecrypt d v ps).1 ++ (cbcDecrypt d (cbcDecrypt d v ps).2 qs).1, (cbcDecrypt d (cbcDecrypt d v ps).2 qs).2) := by
  induction ps generalizing v with
  | nil => rfl
  | cons p ps ih => rw [List.cons_append, cbcDecrypt_cons, ih, cbcDecrypt_cons]; simp

theorem cbcEncrypt_length (e : Block → Block) (v : Block) (ps : List (List Byte)) :
    (cbcEncrypt e v ps).1.length = 16 * ps.length := by
  induction ps generalizing v with
  | nil => rfl
  | cons p ps ih => rw [cbcEncrypt_cons, List.length_append, ih, ofBlock_length, List.length_cons]; omega

theorem cbcDecrypt_length (d : Block → Block) (v : Block) (ps : List (List Byte)) :
    (cbcDecrypt d v ps).1.length = 16 * ps.length := by
  induction ps generalizing v with
  | nil => rfl
  | cons p ps ih => rw [cbcDecrypt_cons, List.length_append, ih, ofBlock_length, List.length_cons]; omega

/-- Block i of CBC encryption: the previous ciphertext block is xored in before E (41 R245). -/
theorem cbcEncrypt_piece (e : Block → Block) (v : Block) {bs : List Byte} (h : bs.length % 16 = 0) (i : Nat)
    (hi : i < bs.length / 16) :
    ((cbcEncrypt e v (blocks bs)).1.drop (16 * i)).take 16 =
      ofBlock (e (toBlock ((bs.drop (16 * i)).take 16) ^^^
        if i = 0 then v else toBlock (((cbcEncrypt e v (blocks bs)).1.drop (16 * (i - 1))).take 16))) := by
  induction bs, h using whole_induction generalizing i v with
  | nil => simp at hi
  | whole p bs hp _ ih =>
    rw [blocks_cons hp, cbcEncrypt_cons]
    cases i with
    | zero => rw [piece_zero (ofBlock_length _), piece_zero hp, if_pos rfl]
    | succ i =>
      rw [piece_succ (ofBlock_length _), piece_succ hp, ih _ i (by rw [List.length_append] at hi; omega),
        if_neg (Nat.succ_ne_zero i), Nat.add_sub_cancel]
      cases i with
      | zero => rw [if_pos rfl, piece_zero (ofBlock_length _), toBlock_ofBlock]
      | succ i => rw [if_neg (Nat.succ_ne_zero i), Nat.add_sub_cancel, piece_succ (ofBlock_length _)]

/-- The chaining value after CBC encryption is the last ciphertext block (41 R232). -/
theorem cbcEncrypt_last (e : Block → Block) (v : Block) {bs : List Byte} (h : bs.length % 16 = 0) :
    (cbcEncrypt e v (blocks bs)).2 =
      if bs.length = 0 then v
      else toBlock (((cbcEncrypt e v (blocks bs)).1.drop (16 * (bs.length / 16 - 1))).take 16) := by
  induction bs, h using whole_induction generalizing v with
  | nil => rfl
  | whole p bs hp hb ih =>
    rw [blocks_cons hp, cbcEncrypt_cons, if_neg (by rw [List.length_append]; omega), ih]
    by_cases h0 : bs.length = 0
    · rw [if_pos h0, show (p ++ bs).length / 16 - 1 = 0 by rw [List.length_append]; omega, piece_zero (ofBlock_length _),
        toBlock_ofBlock]
    · rw [if_neg h0, show (p ++ bs).length / 16 - 1 = (bs.length / 16 - 1) + 1 by rw [List.length_append]; omega,
        piece_succ (ofBlock_length _)]

/-- Block i of CBC decryption: the previous ciphertext block is xored in after D (41 R246). -/
theorem cbcDecrypt_piece (d : Block → Block) (v : Block) {bs : List Byte} (h : bs.length % 16 = 0) (i : Nat)
    (hi : i < bs.length / 16) :
    ((cbcDecrypt d v (blocks bs)).1.drop (16 * i)).take 16 =
      ofBlock (d (toBlock ((bs.drop (16 * i)).take 16)) ^^^
        if i = 0 then v else toBlock ((bs.drop (16 * (i - 1))).take 16)) := by
  induction bs, h using whole_induction generalizing i v with
  | nil => simp at hi
  | whole p bs hp _ ih =>
    rw [blocks_cons hp, cbcDecrypt_cons]
    cases i with
    | zero => rw [piece_zero (ofBlock_length _), piece_zero hp, if_pos rfl]
    | succ i =>
      rw [piece_succ (ofBlock_length _), piece_succ hp, ih _ i (by rw [List.length_append] at hi; omega),
        if_neg (Nat.succ_ne_zero i), Nat.add_sub_cancel]
      cases i with
      | zero => rw [if_pos rfl, piece_zero hp]
      | succ i => rw [if_neg (Nat.succ_ne_zero i), Nat.add_sub_cancel, piece_succ hp]

/-- The chaining value after CBC decryption is the last ciphertext block read (41 R232). -/
theorem cbcDecrypt_last (d : Block → Block) (v : Block) {bs : List Byte} (h : bs.length % 16 = 0) :
    (cbcDecrypt d v (blocks bs)).2 =
      if bs.length = 0 then v else toBlock ((bs.drop (16 * (bs.length / 16 - 1))).take 16) := by
  induction bs, h using whole_induction generalizing v with
  | nil => rfl
  | whole p bs hp hb ih =>
    rw [blocks_cons hp, cbcDecrypt_cons, if_neg (by rw [List.length_append]; omega), ih]
    by_cases h0 : bs.length = 0
    · rw [if_pos h0, show (p ++ bs).length / 16 - 1 = 0 by rw [List.length_append]; omega, piece_zero hp]
    · rw [if_neg h0, show (p ++ bs).length / 16 - 1 = (bs.length / 16 - 1) + 1 by rw [List.length_append]; omega,
        piece_succ hp]

/-- CBC decryption undoes CBC encryption, and leaves the same chaining value (41 R271). -/
theorem cbcDecrypt_cbcEncrypt {e d : Block → Block} (hde : ∀ b, d (e b) = b) (v : Block) {bs : List Byte}
    (h : bs.length % 16 = 0) :
    cbcDecrypt d v (blocks (cbcEncrypt e v (blocks bs)).1) = (bs, (cbcEncrypt e v (blocks bs)).2) := by
  induction bs, h using whole_induction generalizing v with
  | nil => simp [cbcEncrypt, cbcDecrypt]
  | whole p bs hp _ ih =>
    rw [blocks_cons hp, cbcEncrypt_cons, blocks_cons (ofBlock_length _), cbcDecrypt_cons, toBlock_ofBlock, ih, hde]
    simp only
    rw [BitVec.xor_assoc, BitVec.xor_self, BitVec.xor_zero, ofBlock_toBlock hp]

/-! ### CFB -/

theorem cfbEncrypt_cons (e : Block → Block) (v : Block) (p : List Byte) (ps : List (List Byte)) :
    cfbEncrypt e v (p :: ps) =
      (xorBytes p (ofBlock (e v)) ++
        (cfbEncrypt e (if p.length = 16 then toBlock (xorBytes p (ofBlock (e v))) else v) ps).1,
      (cfbEncrypt e (if p.length = 16 then toBlock (xorBytes p (ofBlock (e v))) else v) ps).2) := rfl

theorem cfbDecrypt_cons (e : Block → Block) (v : Block) (p : List Byte) (ps : List (List Byte)) :
    cfbDecrypt e v (p :: ps) =
      (xorBytes p (ofBlock (e v)) ++ (cfbDecrypt e (if p.length = 16 then toBlock p else v) ps).1,
      (cfbDecrypt e (if p.length = 16 then toBlock p else v) ps).2) := rfl

theorem cfbEncrypt_append (e : Block → Block) (v : Block) (ps qs : List (List Byte)) :
    cfbEncrypt e v (ps ++ qs) =
      ((cfbEncrypt e v ps).1 ++ (cfbEncrypt e (cfbEncrypt e v ps).2 qs).1, (cfbEncrypt e (cfbEncrypt e v ps).2 qs).2) := by
  induction ps generalizing v with
  | nil => rfl
  | cons p ps ih => rw [List.cons_append, cfbEncrypt_cons, ih, cfbEncrypt_cons]; simp

theorem cfbDecrypt_append (e : Block → Block) (v : Block) (ps qs : List (List Byte)) :
    cfbDecrypt e v (ps ++ qs) =
      ((cfbDecrypt e v ps).1 ++ (cfbDecrypt e (cfbDecrypt e v ps).2 qs).1, (cfbDecrypt e (cfbDecrypt e v ps).2 qs).2) := by
  induction ps generalizing v with
  | nil => rfl
  | cons p ps ih => rw [List.cons_append, cfbDecrypt_cons, ih, cfbDecrypt_cons]; simp

theorem xorBytes_ofBlock_length {p : List Byte} (h : p.length ≤ 16) (b : Block) : (xorBytes p (ofBlock b)).length = p.length := by
  rw [xorBytes_length, ofBlock_length]; omega

theorem xorBytes_ofBlock_ne_nil {p : List Byte} (h : p ≠ []) (h16 : p.length ≤ 16) (b : Block) :
    xorBytes p (ofBlock b) ≠ [] := by
  intro h0
  have := congrArg List.length h0
  rw [xorBytes_ofBlock_length h16] at this
  exact h (List.length_eq_zero_iff.mp this)

theorem cfbEncrypt_length (e : Block → Block) (v : Block) (bs : List Byte) :
    (cfbEncrypt e v (blocks bs)).1.length = bs.length := by
  induction bs using blocks_induction generalizing v with
  | nil => rfl
  | last p hp hl =>
    rw [blocks_short hp (by omega), cfbEncrypt_cons]
    simp [cfbEncrypt]; omega
  | whole p bs hp ih =>
    rw [blocks_cons hp, cfbEncrypt_cons, List.length_append, ih, xorBytes_ofBlock_length (by omega), List.length_append]

theorem cfbDecrypt_length (e : Block → Block) (v : Block) (bs : List Byte) :
    (cfbDecrypt e v (blocks bs)).1.length = bs.length := by
  induction bs using blocks_induction generalizing v with
  | nil => rfl
  | last p hp hl =>
    rw [blocks_short hp (by omega), cfbDecrypt_cons]
    simp [cfbDecrypt]; omega
  | whole p bs hp ih =>
    rw [blocks_cons hp, cfbDecrypt_cons, List.length_append, ih, xorBytes_ofBlock_length (by omega), List.length_append]

/-- Piece i of CFB encryption and its feedback (41 R250). -/
theorem cfbEncrypt_piece (e : Block → Block) (v : Block) (bs : List Byte) (i : Nat) (hi : i < (bs.length + 15) / 16) :
    ((cfbEncrypt e v (blocks bs)).1.drop (16 * i)).take 16 =
      xorBytes ((bs.drop (16 * i)).take 16) (ofBlock (e
        (if i = 0 then v else toBlock (((cfbEncrypt e v (blocks bs)).1.drop (16 * (i - 1))).take 16)))) := by
  induction bs using blocks_induction generalizing i v with
  | nil => simp at hi
  | last p hp hl =>
    have h0 : i = 0 := by omega
    subst h0
    rw [blocks_short hp (by omega), cfbEncrypt_cons, if_pos rfl, piece_short (p := p) (by omega)]
    simp only [cfbEncrypt, List.append_nil]
    rw [piece_short (by rw [xorBytes_ofBlock_length (by omega)]; omega)]
  | whole p bs hp ih =>
    have hx : ∀ b, (xorBytes p (ofBlock b)).length = 16 := fun b => by rw [xorBytes_ofBlock_length (by omega), hp]
    rw [blocks_cons hp, cfbEncrypt_cons, if_pos hp]
    cases i with
    | zero => rw [piece_zero (hx _), piece_zero hp, if_pos rfl]
    | succ i =>
      rw [piece_succ (hx _), piece_succ hp, ih _ i (by rw [List.length_append] at hi; omega),
        if_neg (Nat.succ_ne_zero i), Nat.add_sub_cancel]
      cases i with
      | zero => rw [if_pos rfl, piece_zero (hx _)]
      | succ i => rw [if_neg (Nat.succ_ne_zero i), Nat.add_sub_cancel, piece_succ (hx _)]

/-- The feedback after CFB encryption: the last whole ciphertext piece (41 R232). -/
theorem cfbEncrypt_last (e : Block → Block) (v : Block) (bs : List Byte) :
    (cfbEncrypt e v (blocks bs)).2 =
      if bs.length / 16 = 0 then v
      else toBlock (((cfbEncrypt e v (blocks bs)).1.drop (16 * (bs.length / 16 - 1))).take 16) := by
  induction bs using blocks_induction generalizing v with
  | nil => rfl
  | last p hp hl =>
    rw [blocks_short hp (by omega), cfbEncrypt_cons, if_neg (show ¬ p.length = 16 by omega), if_pos (show p.length / 16 = 0 by omega)]
    rfl
  | whole p bs hp ih =>
    have hx : ∀ b, (xorBytes p (ofBlock b)).length = 16 := fun b => by rw [xorBytes_ofBlock_length (by omega), hp]
    rw [blocks_cons hp, cfbEncrypt_cons, if_pos hp, if_neg (by rw [List.length_append]; omega), ih]
    by_cases h0 : bs.length / 16 = 0
    · rw [if_pos h0, show (p ++ bs).length / 16 - 1 = 0 by rw [List.length_append]; omega, piece_zero (hx _)]
    · rw [if_neg h0, show (p ++ bs).length / 16 - 1 = (bs.length / 16 - 1) + 1 by rw [List.length_append]; omega,
        piece_succ (hx _)]

/-- Piece i of CFB decryption and its feedback (41 R251). -/
theorem cfbDecrypt_piece (e : Block → Block) (v : Block) (bs : List Byte) (i : Nat) (hi : i < (bs.length + 15) / 16) :
    ((cfbDecrypt e v (blocks bs)).1.drop (16 * i)).take 16 =
      xorBytes ((bs.drop (16 * i)).take 16) (ofBlock (e
        (if i = 0 then v else toBlock ((bs.drop (16 * (i - 1))).take 16)))) := by
  induction bs using blocks_induction generalizing i v with
  | nil => simp at hi
  | last p hp hl =>
    have h0 : i = 0 := by omega
    subst h0
    rw [blocks_short hp (by omega), cfbDecrypt_cons, if_pos rfl, piece_short (p := p) (by omega)]
    simp only [cfbDecrypt, List.append_nil]
    rw [piece_short (by rw [xorBytes_ofBlock_length (by omega)]; omega)]
  | whole p bs hp ih =>
    have hx : ∀ b, (xorBytes p (ofBlock b)).length = 16 := fun b => by rw [xorBytes_ofBlock_length (by omega), hp]
    rw [blocks_cons hp, cfbDecrypt_cons, if_pos hp]
    cases i with
    | zero => rw [piece_zero (hx _), piece_zero hp, if_pos rfl]
    | succ i =>
      rw [piece_succ (hx _), piece_succ hp, ih _ i (by rw [List.length_append] at hi; omega),
        if_neg (Nat.succ_ne_zero i), Nat.add_sub_cancel]
      cases i with
      | zero => rw [if_pos rfl, piece_zero hp]
      | succ i => rw [if_neg (Nat.succ_ne_zero i), Nat.add_sub_cancel, piece_succ hp]

/-- The feedback after CFB decryption: the last whole input piece (41 R232). -/
theorem cfbDecrypt_last (e : Block → Block) (v : Block) (bs : List Byte) :
    (cfbDecrypt e v (blocks bs)).2 =
      if bs.length / 16 = 0 then v else toBlock ((bs.drop (16 * (bs.length / 16 - 1))).take 16) := by
  induction bs using blocks_induction generalizing v with
  | nil => rfl
  | last p hp hl =>
    rw [blocks_short hp (by omega), cfbDecrypt_cons, if_neg (show ¬ p.length = 16 by omega), if_pos (show p.length / 16 = 0 by omega)]
    rfl
  | whole p bs hp ih =>
    rw [blocks_cons hp, cfbDecrypt_cons, if_pos hp, if_neg (by rw [List.length_append]; omega), ih]
    by_cases h0 : bs.length / 16 = 0
    · rw [if_pos h0, show (p ++ bs).length / 16 - 1 = 0 by rw [List.length_append]; omega, piece_zero hp]
    · rw [if_neg h0, show (p ++ bs).length / 16 - 1 = (bs.length / 16 - 1) + 1 by rw [List.length_append]; omega,
        piece_succ hp]

/-- CFB decryption undoes CFB encryption (41 R271). -/
theorem cfbDecrypt_cfbEncrypt (e : Block → Block) (v : Block) (bs : List Byte) :
    cfbDecrypt e v (blocks (cfbEncrypt e v (blocks bs)).1) = (bs, (cfbEncrypt e v (blocks bs)).2) := by
  induction bs using blocks_induction generalizing v with
  | nil => simp [cfbEncrypt, cfbDecrypt]
  | last p hp hl =>
    rw [blocks_short hp (by omega), cfbEncrypt_cons]
    simp only [cfbEncrypt, List.append_nil]
    have hx := xorBytes_ofBlock_length (p := p) (by omega) (e v)
    rw [blocks_short (xorBytes_ofBlock_ne_nil hp (by omega) _) (by omega), cfbDecrypt_cons]
    simp only [cfbDecrypt, List.append_nil]
    rw [xorBytes_cancel (by rw [ofBlock_length]; omega), hx, if_neg (by omega)]
  | whole p bs hp ih =>
    have hx : (xorBytes p (ofBlock (e v))).length = 16 := by rw [xorBytes_ofBlock_length (by omega), hp]
    rw [blocks_cons hp, cfbEncrypt_cons, if_pos hp, blocks_cons hx, cfbDecrypt_cons, if_pos hx, ih,
      xorBytes_cancel (by rw [ofBlock_length]; omega)]

/-! ### OFB -/

theorem ofb_cons (e : Block → Block) (v : Block) (p : List Byte) (ps : List (List Byte)) :
    ofb e v (p :: ps) = (xorBytes p (ofBlock (e v)) ++ (ofb e (e v) ps).1, (ofb e (e v) ps).2) := rfl

theorem ofb_append (e : Block → Block) (v : Block) (ps qs : List (List Byte)) :
    ofb e v (ps ++ qs) = ((ofb e v ps).1 ++ (ofb e (ofb e v ps).2 qs).1, (ofb e (ofb e v ps).2 qs).2) := by
  induction ps generalizing v with
  | nil => rfl
  | cons p ps ih => rw [List.cons_append, ofb_cons, ih, ofb_cons]; simp

theorem ofb_length (e : Block → Block) (v : Block) (bs : List Byte) : (ofb e v (blocks bs)).1.length = bs.length := by
  induction bs using blocks_induction generalizing v with
  | nil => rfl
  | last p hp hl =>
    rw [blocks_short hp (by omega), ofb_cons]
    simp [ofb]; omega
  | whole p bs hp ih =>
    rw [blocks_cons hp, ofb_cons, List.length_append, ih, xorBytes_ofBlock_length (by omega), List.length_append]

/-- Piece i of OFB: the keystream is the (i+1)-fold encryption of the IV (41 R255). -/
theorem ofb_piece (e : Block → Block) (v : Block) (bs : List Byte) (i : Nat) (hi : i < (bs.length + 15) / 16) :
    ((ofb e v (blocks bs)).1.drop (16 * i)).take 16 =
      xorBytes ((bs.drop (16 * i)).take 16) (ofBlock (e^[i + 1] v)) := by
  induction bs using blocks_induction generalizing i v with
  | nil => simp at hi
  | last p hp hl =>
    have h0 : i = 0 := by omega
    subst h0
    rw [blocks_short hp (by omega), ofb_cons, piece_short (p := p) (by omega)]
    simp only [ofb, List.append_nil]
    rw [piece_short (by rw [xorBytes_ofBlock_length (by omega)]; omega)]
    rfl
  | whole p bs hp ih =>
    have hx : ∀ b, (xorBytes p (ofBlock b)).length = 16 := fun b => by rw [xorBytes_ofBlock_length (by omega), hp]
    rw [blocks_cons hp, ofb_cons]
    cases i with
    | zero => rw [piece_zero (hx _), piece_zero hp]; rfl
    | succ i =>
      rw [piece_succ (hx _), piece_succ hp, ih _ i (by rw [List.length_append] at hi; omega), Function.iterate_succ_apply e (i + 1)]

/-- The feedback after OFB: the last keystream block (41 R232). -/
theorem ofb_last (e : Block → Block) (v : Block) (ps : List (List Byte)) : (ofb e v ps).2 = e^[ps.length] v := by
  induction ps generalizing v with
  | nil => rfl
  | cons p ps ih => rw [ofb_cons, ih, List.length_cons, Function.iterate_succ_apply]

/-- OFB applied twice (41 R272). -/
theorem ofb_ofb (e : Block → Block) (v : Block) (bs : List Byte) :
    ofb e v (blocks (ofb e v (blocks bs)).1) = (bs, (ofb e v (blocks bs)).2) := by
  induction bs using blocks_induction generalizing v with
  | nil => simp [ofb]
  | last p hp hl =>
    rw [blocks_short hp (by omega), ofb_cons]
    simp only [ofb, List.append_nil]
    have hx := xorBytes_ofBlock_length (p := p) (by omega) (e v)
    rw [blocks_short (xorBytes_ofBlock_ne_nil hp (by omega) _) (by omega), ofb_cons]
    simp only [ofb, List.append_nil]
    rw [xorBytes_cancel (by rw [ofBlock_length]; omega)]
  | whole p bs hp ih =>
    have hx : (xorBytes p (ofBlock (e v))).length = 16 := by rw [xorBytes_ofBlock_length (by omega), hp]
    rw [blocks_cons hp, ofb_cons, blocks_cons hx, ofb_cons, ih, xorBytes_cancel (by rw [ofBlock_length]; omega)]

/-! ### CTR -/

theorem ctr_cons (e : Block → Block) (c : Block) (p : List Byte) (ps : List (List Byte)) :
    ctr e c (p :: ps) = (xorBytes p (ofBlock (e c)) ++ (ctr e (c + 1) ps).1, (ctr e (c + 1) ps).2) := rfl

theorem ctr_append (e : Block → Block) (c : Block) (ps qs : List (List Byte)) :
    ctr e c (ps ++ qs) = ((ctr e c ps).1 ++ (ctr e (ctr e c ps).2 qs).1, (ctr e (ctr e c ps).2 qs).2) := by
  induction ps generalizing c with
  | nil => rfl
  | cons p ps ih => rw [List.cons_append, ctr_cons, ih, ctr_cons]; simp

theorem ctr_length (e : Block → Block) (c : Block) (bs : List Byte) : (ctr e c (blocks bs)).1.length = bs.length := by
  induction bs using blocks_induction generalizing c with
  | nil => rfl
  | last p hp hl =>
    rw [blocks_short hp (by omega), ctr_cons]
    simp [ctr]; omega
  | whole p bs hp ih =>
    rw [blocks_cons hp, ctr_cons, List.length_append, ih, xorBytes_ofBlock_length (by omega), List.length_append]

theorem ofNat_succ_block (i : Nat) : (1 : Block) + BitVec.ofNat 128 i = BitVec.ofNat 128 (i + 1) := by
  apply BitVec.eq_of_toNat_eq
  rw [BitVec.toNat_add, BitVec.toNat_ofNat, BitVec.toNat_ofNat, show (1 : Block).toNat = 1 from rfl]
  omega

/-- Piece i of CTR: the counter has advanced i times (41 R260). -/
theorem ctr_piece (e : Block → Block) (c : Block) (bs : List Byte) (i : Nat) (hi : i < (bs.length + 15) / 16) :
    ((ctr e c (blocks bs)).1.drop (16 * i)).take 16 =
      xorBytes ((bs.drop (16 * i)).take 16) (ofBlock (e (c + BitVec.ofNat 128 i))) := by
  induction bs using blocks_induction generalizing i c with
  | nil => simp at hi
  | last p hp hl =>
    have h0 : i = 0 := by omega
    subst h0
    rw [blocks_short hp (by omega), ctr_cons, piece_short (p := p) (by omega), show c + BitVec.ofNat 128 0 = c from BitVec.add_zero c]
    simp only [ctr, List.append_nil]
    rw [piece_short (by rw [xorBytes_ofBlock_length (by omega)]; omega)]
  | whole p bs hp ih =>
    have hx : ∀ b, (xorBytes p (ofBlock b)).length = 16 := fun b => by rw [xorBytes_ofBlock_length (by omega), hp]
    rw [blocks_cons hp, ctr_cons]
    cases i with
    | zero => rw [piece_zero (hx _), piece_zero hp, show c + BitVec.ofNat 128 0 = c from BitVec.add_zero c]
    | succ i =>
      rw [piece_succ (hx _), piece_succ hp, ih _ i (by rw [List.length_append] at hi; omega), BitVec.add_assoc,
        ofNat_succ_block]

/-- The counter after CTR (41 R232). -/
theorem ctr_last (e : Block → Block) (c : Block) (ps : List (List Byte)) :
    (ctr e c ps).2 = c + BitVec.ofNat 128 ps.length := by
  induction ps generalizing c with
  | nil => exact (BitVec.add_zero c).symm
  | cons p ps ih => rw [ctr_cons, ih, List.length_cons, BitVec.add_assoc, ofNat_succ_block]

/-- CTR applied twice (41 R272). -/
theorem ctr_ctr (e : Block → Block) (c : Block) (bs : List Byte) :
    ctr e c (blocks (ctr e c (blocks bs)).1) = (bs, (ctr e c (blocks bs)).2) := by
  induction bs using blocks_induction generalizing c with
  | nil => simp [ctr]
  | last p hp hl =>
    rw [blocks_short hp (by omega), ctr_cons]
    simp only [ctr, List.append_nil]
    have hx := xorBytes_ofBlock_length (p := p) (by omega) (e c)
    rw [blocks_short (xorBytes_ofBlock_ne_nil hp (by omega) _) (by omega), ctr_cons]
    simp only [ctr, List.append_nil]
    rw [xorBytes_cancel (by rw [ofBlock_length]; omega)]
  | whole p bs hp ih =>
    have hx : (xorBytes p (ofBlock (e c))).length = 16 := by rw [xorBytes_ofBlock_length (by omega), hp]
    rw [blocks_cons hp, ctr_cons, blocks_cons hx, ctr_cons, ih, xorBytes_cancel (by rw [ofBlock_length]; omega)]

end Sys2Proof.Machine
end

