-- ==== Sys2Proof/Laws/Gcm.lean ====
section
/-! SUPPORT. Laws of the GCM unit: GF(2^128) as a ring of characteristic 2 (42 R301), GHASH as a polynomial (42 R303), and GCTR
piece by piece (42 R306). -/

namespace Sys2Proof.Machine

/-! ### Multiplication by x -/

theorem zero_xor_block (v : Block) : 0 ^^^ v = v := BitVec.zero_xor

theorem xor_zero_block (v : Block) : v ^^^ 0 = v := BitVec.xor_zero

theorem gfMulX_xor (a b : Block) : gfMulX (a ^^^ b) = gfMulX a ^^^ gfMulX b := by
  have hs : (a ^^^ b) >>> 1 = a >>> 1 ^^^ b >>> 1 := BitVec.ushiftRight_xor_distrib ..
  unfold gfMulX
  rw [BitVec.getLsbD_xor, hs]
  cases a.getLsbD 0 <;> cases b.getLsbD 0 <;> simp only [Bool.xor_false, Bool.xor_true, Bool.not_true, Bool.not_false,
    if_true, Bool.false_eq_true, if_false]
  · rw [BitVec.xor_assoc]
  · rw [BitVec.xor_assoc, BitVec.xor_assoc, BitVec.xor_comm gfR]
  · rw [BitVec.xor_assoc, ← BitVec.xor_assoc gfR, BitVec.xor_comm gfR, BitVec.xor_assoc (b >>> 1), BitVec.xor_self, BitVec.xor_zero]

@[simp] theorem gfMulX_zero : gfMulX 0 = 0 := by decide

theorem gfMulX_iterate_xor (n : Nat) (a b : Block) : gfMulX^[n] (a ^^^ b) = gfMulX^[n] a ^^^ gfMulX^[n] b := by
  induction n generalizing a b with
  | zero => rfl
  | succ n ih => rw [Function.iterate_succ_apply, gfMulX_xor, ih]; rfl

theorem gfMulX_twoPow {j : Nat} (h : j + 1 < 128) : gfMulX (BitVec.twoPow 128 (j + 1)) = BitVec.twoPow 128 j := by
  have h0 : (BitVec.twoPow 128 (j + 1)).getLsbD 0 = false := by rw [BitVec.getLsbD_twoPow]; simp
  unfold gfMulX
  rw [h0]
  apply BitVec.eq_of_getLsbD_eq
  intro i hi
  simp only [Bool.false_eq_true, if_false, BitVec.getLsbD_ushiftRight, BitVec.getLsbD_twoPow]
  rcases Nat.decEq j i with hne | rfl
  · simp [hne, show ¬ j + 1 = 1 + i by omega]
  · simp [h, show j < 128 by omega, Nat.add_comm 1 j]

/-- The monomial x^(127 − j) is x multiplied up from one. -/
theorem twoPow_eq_iterate {j : Nat} (h : j < 128) : BitVec.twoPow 128 j = gfMulX^[127 - j] (BitVec.twoPow 128 127) := by
  induction hk : 127 - j generalizing j with
  | zero => rw [show j = 127 by omega]; rfl
  | succ k ih => rw [Function.iterate_succ_apply', ← ih (j := j + 1) (by omega) (by omega), gfMulX_twoPow (by omega)]

/-! ### The loop -/

theorem gfLoop_acc (x : Block) (k : Nat) (z v : Block) : gfLoop x k z v = z ^^^ gfLoop x k 0 v := by
  induction k generalizing z v with
  | zero => exact (BitVec.xor_zero).symm
  | succ k ih =>
    rw [gfLoop, gfLoop, ih, ih (if x.getMsbD (127 - k) then 0 ^^^ v else 0)]
    split
    · rw [zero_xor_block, BitVec.xor_assoc]
    · rw [zero_xor_block]

theorem gfLoop_succ (x : Block) (k : Nat) (v : Block) :
    gfLoop x (k + 1) 0 v = (if x.getMsbD (127 - k) then v else 0) ^^^ gfLoop x k 0 (gfMulX v) := by
  rw [gfLoop, gfLoop_acc, zero_xor_block]

theorem xor_four (a b c d : Block) : (a ^^^ b) ^^^ (c ^^^ d) = (a ^^^ c) ^^^ (b ^^^ d) := by
  rw [BitVec.xor_assoc, ← BitVec.xor_assoc b, BitVec.xor_comm b c, BitVec.xor_assoc c, BitVec.xor_assoc]

theorem gfLoop_xor_right (x : Block) (k : Nat) (v w : Block) :
    gfLoop x k 0 (v ^^^ w) = gfLoop x k 0 v ^^^ gfLoop x k 0 w := by
  induction k generalizing v w with
  | zero => exact (BitVec.xor_self).symm
  | succ k ih =>
    rw [gfLoop_succ, gfLoop_succ, gfLoop_succ, gfMulX_xor, ih, xor_four]
    congr 1
    split
    · rfl
    · exact (BitVec.xor_self).symm

theorem gfLoop_xor_left (x y : Block) (k : Nat) (v : Block) :
    gfLoop (x ^^^ y) k 0 v = gfLoop x k 0 v ^^^ gfLoop y k 0 v := by
  induction k generalizing v with
  | zero => exact (BitVec.xor_self).symm
  | succ k ih =>
    rw [gfLoop_succ, gfLoop_succ, gfLoop_succ, ih, xor_four]
    congr 1
    rw [BitVec.getMsbD_xor]
    cases x.getMsbD (127 - k) <;> cases y.getMsbD (127 - k) <;> simp

theorem gfLoop_twoPow (j : Nat) (hj : j < 128) (k : Nat) (hk : k ≤ 128) (v : Block) :
    gfLoop (BitVec.twoPow 128 j) k 0 v = if j < k then gfMulX^[k - 1 - j] v else 0 := by
  induction k generalizing v with
  | zero => rfl
  | succ k ih =>
    have hb : (BitVec.twoPow 128 j).getMsbD (127 - k) = decide (j = k) := by
      rw [BitVec.getMsbD_eq_getLsbD, BitVec.getLsbD_twoPow, show 128 - 1 - (127 - k) = k by omega]
      simp [show 127 - k < 128 by omega, hj]
    rw [gfLoop_succ, ih (by omega), hb]
    rcases Nat.lt_trichotomy j k with h | h | h
    · rw [if_pos h, if_pos (show j < k + 1 by omega), if_neg (by simp; omega), zero_xor_block, ← Function.iterate_succ_apply,
        show (k - 1 - j).succ = k + 1 - 1 - j by omega]
    · subst h
      rw [if_neg (show ¬ j < j by omega), if_pos (show j < j + 1 by omega), if_pos (by simp), xor_zero_block, show j + 1 - 1 - j = 0 by omega]
      rfl
    · rw [if_neg (show ¬ j < k by omega), if_neg (show ¬ j < k + 1 by omega), if_neg (by simp; omega), xor_zero_block]

/-! ### The product -/

theorem gfMult_xor_right (x v w : Block) : gfMult x (v ^^^ w) = gfMult x v ^^^ gfMult x w := gfLoop_xor_right x 128 v w

theorem gfMult_xor_left (x y v : Block) : gfMult (x ^^^ y) v = gfMult x v ^^^ gfMult y v := gfLoop_xor_left x y 128 v

theorem gfMult_twoPow {j : Nat} (h : j < 128) (v : Block) : gfMult (BitVec.twoPow 128 j) v = gfMulX^[127 - j] v := by
  rw [gfMult, gfLoop_twoPow j h 128 (by omega), if_pos h]

@[simp] theorem gfMult_zero_left (v : Block) : gfMult 0 v = 0 := by
  have h := gfMult_xor_left 0 0 v
  rwa [BitVec.xor_self, BitVec.xor_self] at h

/-- What holds of 0 and of every monomial and is kept by xor holds of every block. -/
theorem block_induction {P : Block → Prop} (zero : P 0) (xor : ∀ a b, P a → P b → P (a ^^^ b))
    (mono : ∀ j < 128, P (BitVec.twoPow 128 j)) (x : Block) : P x := by
  have key : ∀ n ≤ 128, ∀ y : Block, (∀ i, n ≤ i → y.getLsbD i = false) → P y := by
    intro n
    induction n with
    | zero =>
      intro _ y hy
      have : y = 0 := by
        apply BitVec.eq_of_getLsbD_eq
        intro i _
        rw [hy i (Nat.zero_le i)]
        simp
      rw [this]
      exact zero
    | succ n ih =>
      intro hn y hy
      by_cases hb : y.getLsbD n = true
      · have h1 : P (y ^^^ BitVec.twoPow 128 n) := by
          refine ih (by omega) _ fun i hi => ?_
          rw [BitVec.getLsbD_xor, BitVec.getLsbD_twoPow]
          rcases Nat.eq_or_lt_of_le hi with h | h
          · subst h
            simp [hb]
            omega
          · rw [hy i h]
            simp
            omega
        have h2 := xor _ _ h1 (mono n (by omega))
        rwa [BitVec.xor_assoc, BitVec.xor_self, BitVec.xor_zero] at h2
      · refine ih (by omega) y fun i hi => ?_
        rcases Nat.eq_or_lt_of_le hi with h | h
        · subst h
          simpa using hb
        · exact hy i h
  exact key 128 (le_refl _) x fun i hi => BitVec.getLsbD_of_ge x i hi

theorem gfMult_one (v : Block) : gfMult (BitVec.twoPow 128 127) v = v := by
  rw [gfMult_twoPow (by omega)]; rfl

/-- Multiplication by x passes through the product. -/
theorem gfMult_gfMulX (x v : Block) : gfMult x (gfMulX v) = gfMulX (gfMult x v) := by
  induction x using block_induction with
  | zero => rw [gfMult_zero_left, gfMult_zero_left, gfMulX_zero]
  | xor a b ha hb => rw [gfMult_xor_left, gfMult_xor_left, ha, hb, gfMulX_xor]
  | mono j hj => rw [gfMult_twoPow hj, gfMult_twoPow hj, ← Function.iterate_succ_apply, Function.iterate_succ_apply']

theorem gfMult_iterate (x v : Block) (n : Nat) : gfMult x (gfMulX^[n] v) = gfMulX^[n] (gfMult x v) := by
  induction n with
  | zero => rw [Function.iterate_zero_apply, Function.iterate_zero_apply]
  | succ n ih => rw [Function.iterate_succ_apply', gfMult_gfMulX, ih, Function.iterate_succ_apply']

theorem gfMult_zero_right (x : Block) : gfMult x 0 = 0 := by
  have h := gfMult_xor_right x 0 0
  rwa [BitVec.xor_self, BitVec.xor_self] at h

theorem gfMult_one_right (x : Block) : gfMult x (BitVec.twoPow 128 127) = x := by
  induction x using block_induction with
  | zero => exact gfMult_zero_left _
  | xor a b ha hb => rw [gfMult_xor_left, ha, hb]
  | mono j hj => rw [gfMult_twoPow hj, ← twoPow_eq_iterate hj]

/-- A monomial on the right multiplies by x as often as it says. -/
theorem gfMult_twoPow_right {j : Nat} (h : j < 128) (x : Block) : gfMult x (BitVec.twoPow 128 j) = gfMulX^[127 - j] x := by
  rw [twoPow_eq_iterate h, gfMult_iterate, gfMult_one_right]

/-! ### GHASH -/

theorem ghashFold_cons (h y : Block) (p : List Byte) (ps : List (List Byte)) :
    ghashFold h y (p :: ps) = ghashFold h (gfMult (y ^^^ toBlock p) h) ps := rfl

theorem ghashFold_append (h y : Block) (ps qs : List (List Byte)) :
    ghashFold h y (ps ++ qs) = ghashFold h (ghashFold h y ps) qs := by simp [ghashFold]

theorem gfMult_right_iterate_xor (h : Block) (n : Nat) (a b : Block) :
    (fun z => gfMult z h)^[n] (a ^^^ b) = (fun z => gfMult z h)^[n] a ^^^ (fun z => gfMult z h)^[n] b := by
  induction n generalizing a b with
  | zero => rfl
  | succ n ih => rw [Function.iterate_succ_apply, gfMult_xor_left, ih]; rfl

/-- The fold as a polynomial in H: block i of m is multiplied m − i times (42 R303). -/
theorem ghashFold_polynomial (h y : Block) (ps : List (List Byte)) (x : Nat → Block)
    (hx : ∀ i (hi : i < ps.length), x i = toBlock ps[i]) :
    ghashFold h y ps = (List.range ps.length).foldl (fun acc i => acc ^^^ (fun z => gfMult z h)^[ps.length - i] (x i))
      ((fun z => gfMult z h)^[ps.length] y) := by
  induction ps generalizing y x with
  | nil => rfl
  | cons p ps ih =>
    rw [ghashFold_cons, ih _ (fun i => x (i + 1)) (fun i hi => by rw [hx (i + 1) (by simpa using hi)]; simp),
      List.length_cons, List.range_succ_eq_map, List.foldl_cons, List.foldl_map]
    congr 1
    · funext acc i
      rw [show ps.length + 1 - (i + 1) = ps.length - i by omega]
    · rw [hx 0 (by simp), Nat.sub_zero, ← gfMult_right_iterate_xor, List.getElem_cons_zero]
      rfl

theorem zpad_length (bs : List Byte) : (zpad bs).length = 16 * ((bs.length + 15) / 16) := by
  rw [zpad, List.length_append, zeros_length]; omega

theorem zpad_length_mod (bs : List Byte) : (zpad bs).length % 16 = 0 := by rw [zpad_length]; omega

/-- Piece i of a zero-padded string (42 R302). -/
theorem zpad_piece (bs : List Byte) (i : Nat) (hi : i < (bs.length + 15) / 16) :
    ((zpad bs).drop (16 * i)).take 16 =
      (bs.drop (16 * i)).take 16 ++ List.replicate (16 - ((bs.drop (16 * i)).take 16).length) 0 := by
  have hd : (zpad bs).drop (16 * i) = bs.drop (16 * i) ++ zeros ((16 - bs.length % 16) % 16) := by
    rw [zpad, List.drop_append_of_le_length (by omega)]
  rw [hd, List.take_append, List.length_take, List.length_drop, zeros, List.take_replicate]
  congr 2
  omega

/-- The pieces GHASH runs over (42 R303). -/
theorem ghash_blocks (a c : List Byte) :
    blocks (zpad a ++ zpad c ++ be64 (8 * a.length) ++ be64 (8 * c.length)) =
      blocks (zpad a) ++ blocks (zpad c) ++ [be64 (8 * a.length) ++ be64 (8 * c.length)] := by
  have hne : be64 (8 * a.length) ++ be64 (8 * c.length) ≠ [] := by
    intro h
    have := congrArg List.length h
    simp at this
  rw [List.append_assoc, blocks_append (by rw [List.length_append, zpad_length, zpad_length]; omega),
    blocks_append (zpad_length_mod a), blocks_short hne (by simp)]

/-! ### Counters and GCTR -/

theorem inc32_toNat (b : Block) : (inc32 b).toNat = (b.toNat / 2 ^ 32) * 2 ^ 32 + (b.toNat % 2 ^ 32 + 1) % 2 ^ 32 := by
  have hb := b.isLt
  rw [inc32, BitVec.toNat_append, BitVec.extractLsb'_toNat, BitVec.toNat_add, BitVec.extractLsb'_toNat,
    ← Nat.shiftLeft_add_eq_or_of_lt (Nat.mod_lt _ (by norm_num)), Nat.shiftLeft_eq, Nat.shiftRight_eq_div_pow]
  rw [Nat.mod_eq_of_lt (a := b.toNat / 2 ^ 32) (by omega)]
  simp

theorem gctrLoop_cons (e : Block → Block) (cb : Block) (p : List Byte) (ps : List (List Byte)) :
    gctrLoop e cb (p :: ps) = xorBytes p (ofBlock (e cb)) ++ gctrLoop e (inc32 cb) ps := rfl

@[simp] theorem gctr_length (e : Block → Block) (cb : Block) (x : List Byte) : (gctr e cb x).length = x.length := by
  unfold gctr
  induction x using blocks_induction generalizing cb with
  | nil => rfl
  | last p hp hl =>
    rw [blocks_short hp (by omega), gctrLoop_cons]
    simp [gctrLoop]; omega
  | whole p bs hp ih =>
    rw [blocks_cons hp, gctrLoop_cons, List.length_append, ih, xorBytes_ofBlock_length (by omega), List.length_append]

/-- Piece i of GCTR: the counter block is incremented i times (42 R306). -/
theorem gctr_piece (e : Block → Block) (cb : Block) (x : List Byte) (i : Nat) (hi : i < (x.length + 15) / 16) :
    ((gctr e cb x).drop (16 * i)).take 16 = xorBytes ((x.drop (16 * i)).take 16) (ofBlock (e (inc32^[i] cb))) := by
  unfold gctr
  induction x using blocks_induction generalizing i cb with
  | nil => simp at hi
  | last p hp hl =>
    have h0 : i = 0 := by omega
    subst h0
    rw [blocks_short hp (by omega), gctrLoop_cons, piece_short (p := p) (by omega)]
    simp only [gctrLoop, List.append_nil]
    rw [piece_short (by rw [xorBytes_ofBlock_length (by omega)]; omega)]
    rfl
  | whole p bs hp ih =>
    have hx : ∀ b, (xorBytes p (ofBlock b)).length = 16 := fun b => by rw [xorBytes_ofBlock_length (by omega), hp]
    rw [blocks_cons hp, gctrLoop_cons]
    cases i with
    | zero => rw [piece_zero (hx _), piece_zero hp]; rfl
    | succ i =>
      rw [piece_succ (hx _), piece_succ hp, ih _ i (by rw [List.length_append] at hi; omega), Function.iterate_succ_apply]

/-- GCTR applied twice with the same counter (42 R330). -/
theorem gctr_gctr (e : Block → Block) (cb : Block) (x : List Byte) : gctr e cb (gctr e cb x) = x := by
  unfold gctr
  induction x using blocks_induction generalizing cb with
  | nil => simp [gctrLoop]
  | last p hp hl =>
    rw [blocks_short hp (by omega), gctrLoop_cons]
    simp only [gctrLoop, List.append_nil]
    have hx := xorBytes_ofBlock_length (p := p) (by omega) (e cb)
    rw [blocks_short (xorBytes_ofBlock_ne_nil hp (by omega) _) (by omega), gctrLoop_cons]
    simp only [gctrLoop, List.append_nil]
    rw [xorBytes_cancel (by rw [ofBlock_length]; omega)]
  | whole p bs hp ih =>
    have hx : (xorBytes p (ofBlock (e cb))).length = 16 := by rw [xorBytes_ofBlock_length (by omega), hp]
    rw [blocks_cons hp, gctrLoop_cons, blocks_cons hx, gctrLoop_cons, ih, xorBytes_cancel (by rw [ofBlock_length]; omega)]

/-! ### The whole of GCM -/

@[simp] theorem gcmTag_length (e : Block → Block) (nonce aad c : List Byte) : (gcmTag e nonce aad c).length = 16 := by
  simp [gcmTag]

@[simp] theorem gcmCrypt_length (e : Block → Block) (nonce x : List Byte) : (gcmCrypt e nonce x).length = x.length := by
  simp [gcmCrypt]

theorem gcmCrypt_gcmCrypt (e : Block → Block) (nonce x : List Byte) : gcmCrypt e nonce (gcmCrypt e nonce x) = x :=
  gctr_gctr e _ x

@[simp] theorem gcmSeal_length (e : Block → Block) (nonce aad p : List Byte) :
    (gcmSeal e nonce aad p).length = p.length + 16 := by simp [gcmSeal]

end Sys2Proof.Machine
end

