-- ==== Sys2Proof/Laws/Hash.lean ====
section
/-! SUPPORT. Laws of SHA-256 and HMAC: the schedule and the rounds (43 R343, R344), absorbing in pieces (43 R345), the padded final
string (43 R346), and the lengths of every result. -/

namespace Sys2Proof.Machine

/-! ### The schedule (43 R343) -/

theorem extendW_length (k : Nat) (w : List Word) : (extendW k w).length = w.length + k := by
  induction k generalizing w with
  | zero => rfl
  | succ k ih => rw [extendW, ih, List.length_append]; simp; omega

/-- Extending a schedule keeps the words it has. -/
theorem extendW_getD (k : Nat) (w : List Word) (t : Nat) (ht : t < w.length) : (extendW k w).getD t 0 = w.getD t 0 := by
  induction k generalizing w with
  | zero => rfl
  | succ k ih =>
    rw [extendW, ih _ (by rw [List.length_append]; omega), List.getD_append _ _ _ _ ht]

/-- A word beyond the given ones obeys the recurrence. -/
theorem extendW_nextW (k : Nat) (w : List Word) (t : Nat) (h16 : 16 ≤ w.length) (h1 : w.length ≤ t) (h2 : t < w.length + k) :
    (extendW k w).getD t 0 =
      smallSigma1 ((extendW k w).getD (t - 2) 0) + (extendW k w).getD (t - 7) 0 +
      smallSigma0 ((extendW k w).getD (t - 15) 0) + (extendW k w).getD (t - 16) 0 := by
  induction k generalizing w with
  | zero => omega
  | succ k ih =>
    rcases Nat.eq_or_lt_of_le h1 with h | h
    · subst h
      rw [extendW]
      have hl : (w ++ [nextW w]).length = w.length + 1 := by simp
      have hold : ∀ j, 1 ≤ j → j ≤ 16 → (extendW k (w ++ [nextW w])).getD (w.length - j) 0 = w.getD (w.length - j) 0 := by
        intro j h1 h2
        rw [extendW_getD _ _ _ (by omega), List.getD_append _ _ _ _ (by omega)]
      rw [hold 2 (by omega) (by omega), hold 7 (by omega) (by omega), hold 15 (by omega) (by omega),
        hold 16 (by omega) (by omega), extendW_getD _ _ _ (by omega), List.getD_append_right _ _ _ _ (le_refl _)]
      simp [nextW]
    · rw [extendW]
      exact ih _ (by simp; omega) (by simp; omega) (by simp; omega)

theorem schedule_length (m : List Byte) : (schedule m).length = 64 := by
  rw [schedule, extendW_length, List.length_map, List.length_range]

theorem schedule_head (m : List Byte) (t : Nat) (h : t < 16) : (schedule m).getD t 0 = wordAt m t := by
  rw [schedule, extendW_getD _ _ _ (by simpa using h), List.getD_eq_getElem _ _ (by simpa using h)]
  simp

theorem schedule_recurrence (m : List Byte) (t : Nat) (h1 : 16 ≤ t) (h2 : t < 64) :
    (schedule m).getD t 0 =
      smallSigma1 ((schedule m).getD (t - 2) 0) + (schedule m).getD (t - 7) 0 +
      smallSigma0 ((schedule m).getD (t - 15) 0) + (schedule m).getD (t - 16) 0 := by
  rw [schedule]
  exact extendW_nextW _ _ _ (by simp) (by simpa using h1) (by simpa using h2)

theorem roundConstants_length : roundConstants.length = 64 := by decide

/-! ### Compressing a string block by block (43 R345, R346) -/

/-- Compression of the first q blocks of a string. -/
def compressBlocks (h : Vector Word 8) (q : Nat) (s : List Byte) : Vector Word 8 := (pieces 64 q s).foldl compress h

@[simp] theorem compressBlocks_zero (h : Vector Word 8) (s : List Byte) : compressBlocks h 0 s = h := rfl

theorem compressBlocks_succ (h : Vector Word 8) (q : Nat) (s : List Byte) :
    compressBlocks h (q + 1) s = compress (compressBlocks h q s) ((s.drop (64 * q)).take 64) := by
  induction q generalizing h s with
  | zero => rfl
  | succ q ih =>
    rw [compressBlocks, pieces, List.foldl_cons]
    have := ih (compress h (s.take 64)) (s.drop 64)
    rw [compressBlocks] at this
    rw [this, List.drop_drop, show 64 + 64 * q = 64 * (q + 1) by omega]
    rfl

theorem compressBlocks_add (h : Vector Word 8) (q r : Nat) (s : List Byte) :
    compressBlocks h (q + r) s = compressBlocks (compressBlocks h q s) r (s.drop (64 * q)) := by
  induction r with
  | zero => rfl
  | succ r ih => rw [← Nat.add_assoc, compressBlocks_succ, ih, compressBlocks_succ, List.drop_drop, Nat.mul_add]

/-- Only the bytes of the blocks count. -/
theorem compressBlocks_append (h : Vector Word 8) (q : Nat) (s x : List Byte) (hq : 64 * q ≤ s.length) :
    compressBlocks h q (s ++ x) = compressBlocks h q s := by
  induction q with
  | zero => rfl
  | succ q ih =>
    rw [compressBlocks_succ, compressBlocks_succ, ih (by omega), List.drop_append_of_le_length (by omega),
      List.take_append_of_le_length (by rw [List.length_drop]; omega)]

/-! ### Absorbing (43 R345) -/

theorem absorb_h (hs : HashState) (x : List Byte) :
    (absorb hs x).h = compressBlocks hs.h ((hs.buf.length + x.length) / 64) (hs.buf ++ x) := by
  simp [absorb, compressBlocks]

theorem absorb_buf (hs : HashState) (x : List Byte) :
    (absorb hs x).buf = (hs.buf ++ x).drop (64 * ((hs.buf.length + x.length) / 64)) := by
  simp [absorb]

theorem absorb_bitlen (hs : HashState) (x : List Byte) :
    (absorb hs x).bitlen = hs.bitlen + BitVec.ofNat 64 (8 * x.length) := rfl

theorem absorb_buf_length (hs : HashState) (x : List Byte) :
    (absorb hs x).buf.length = (hs.buf.length + x.length) % 64 := by
  rw [absorb_buf, List.length_drop, List.length_append]; omega

theorem absorb_buf_lt (hs : HashState) (x : List Byte) : (absorb hs x).buf.length < 64 := by
  rw [absorb_buf_length]; omega

theorem HashState.ext' {a b : HashState} (h1 : a.h = b.h) (h2 : a.buf = b.buf) (h3 : a.bitlen = b.bitlen) : a = b := by
  cases a; cases b; simp_all

@[simp] theorem absorb_nil (hs : HashState) (h : hs.buf.length < 64) : absorb hs [] = hs := by
  apply HashState.ext'
  · rw [absorb_h, List.length_nil, Nat.add_zero, Nat.div_eq_of_lt h]; rfl
  · rw [absorb_buf, List.length_nil, Nat.add_zero, Nat.div_eq_of_lt h]; simp
  · rw [absorb_bitlen]; simp

/-- The bit count and the buffer stay in step (43 R345). -/
theorem absorb_bitlen_mod {hs : HashState} (h : hs.bitlen.toNat % 512 = 8 * hs.buf.length) (x : List Byte) :
    (absorb hs x).bitlen.toNat % 512 = 8 * (absorb hs x).buf.length := by
  rw [absorb_bitlen, absorb_buf_length, BitVec.toNat_add, BitVec.toNat_ofNat]
  omega

/-! ### The digest (43 R346) -/

@[simp] theorem digest_length (hs : HashState) : (digest hs).length = 32 := by simp [digest]

@[simp] theorem sha256_length (x : List Byte) : (sha256 x).length = 32 := by simp [sha256]

/-- The padded final string is one or two whole blocks. -/
theorem digestTail_length {hs : HashState} (h : hs.buf.length < 64) :
    (digestTail hs).length = if hs.buf.length ≤ 55 then 64 else 128 := by
  simp only [digestTail, List.length_append, List.length_cons, List.length_nil, zeros_length, be64_length]
  split <;> omega

theorem digest_eq (hs : HashState) :
    digest hs = wordsBytes (compressBlocks hs.h ((digestTail hs).length / 64) (digestTail hs)) := rfl

theorem bytesWords_digest (hs : HashState) :
    bytesWords (digest hs) = compressBlocks hs.h ((digestTail hs).length / 64) (digestTail hs) := by
  rw [digest_eq, bytesWords_wordsBytes]

/-! ### HMAC (44 R400) -/

@[simp] theorem hmacK0_length (key : List Byte) : (hmacK0 key).length = 64 := by
  unfold hmacK0
  by_cases h : 64 < key.length
  · simp [h]
  · simp [h]; omega

@[simp] theorem hmacIpad_length (key : List Byte) : (hmacIpad key).length = 64 := by simp [hmacIpad]

@[simp] theorem hmacOpad_length (key : List Byte) : (hmacOpad key).length = 64 := by simp [hmacOpad]

@[simp] theorem hmacResult_length (s : State) : (hmacResult s).length = 32 := by simp [hmacResult]

@[simp] theorem hmac_length (key x : List Byte) : (hmac key x).length = 32 := by simp [hmac]

/-- HMAC_INIT absorbs IPAD in one compression (44 R405). -/
theorem absorb_init_whole {x : List Byte} (h : x.length = 64) :
    absorb HashState.init x = ⟨compress initialHash x, [], 512⟩ := by
  have h0 : HashState.init.buf = [] := rfl
  apply HashState.ext'
  · rw [absorb_h, h0, List.length_nil, Nat.zero_add, h, show 64 / 64 = 0 + 1 from rfl, compressBlocks_succ]
    rw [List.nil_append, Nat.mul_zero, List.drop_zero, List.take_of_length_le (le_of_eq h)]
    rfl
  · rw [absorb_buf, h0, List.length_nil, Nat.zero_add, List.nil_append, List.drop_of_length_le (by omega)]
  · rw [absorb_bitlen, h]
    rfl

end Sys2Proof.Machine
end

