-- ==== Sys2Proof/Laws/Host.lean ====
section
/-! SUPPORT. What the host and the engine can do in one step, said once (00 R9, 10 R57, R58), and the length of every command's
output (41 R273). -/

namespace Sys2Proof.Machine

/-! ### Lengths of the outputs -/

@[simp] theorem srcBytes_length (s : State) : (srcBytes s).length = srcN s := by simp [srcBytes, srcN]

@[simp] theorem aadBytes_length (s : State) : (aadBytes s).length = s.aadLen.toNat := by simp [aadBytes]

@[simp] theorem nonceBytes_length (s : State) : (nonceBytes s).length = s.nonceLen.toNat := by simp [nonceBytes]

theorem srcN_lt (s : State) : srcN s < 2 ^ 32 := s.srcLen.isLt

theorem padIf_length_mod (final : Bool) {bs : List Byte} (h : final = false → bs.length % 16 = 0) :
    (padIf final bs).length % 16 = 0 := by
  cases final with
  | false => exact h rfl
  | true => rw [padIf, if_pos rfl, pad_length]; exact add_padLen_mod _

theorem padIf_length (final : Bool) (bs : List Byte) :
    (padIf final bs).length = if final then bs.length + padLen bs.length else bs.length := by
  cases final <;> simp [padIf]

theorem encLenOk_iff (final : Bool) (n : Nat) :
    encLenOk final n = true ↔ (final = true → n + padLen n ≤ maxLen) ∧ (final = false → n % 16 = 0) := by
  cases final <;> simp [encLenOk]

theorem decLenOk_iff (final : Bool) (n : Nat) :
    decLenOk final n = true ↔ n % 16 = 0 ∧ (final = true → 16 ≤ n) := by
  cases final <;> simp [decLenOk]

theorem streamLenOk_iff (final : Bool) (n : Nat) : streamLenOk final n = true ↔ (final = false → n % 16 = 0) := by
  cases final <;> simp [streamLenOk]

/-- Where the length rule of ECB_ENC and CBC_ENC fails (41 R231). -/
theorem encLenOk_false_iff (final : Bool) (s : State) :
    encLenOk final (srcN s) = false ↔
      if final then 2 ^ 32 - 16 ≤ s.srcLen.toNat else s.srcLen.toNat % 16 ≠ 0 := by
  have h := s.srcLen.isLt
  rw [← Bool.not_eq_true, encLenOk_iff, srcN]
  cases final with
  | false => simp
  | true => simp only [forall_const, reduceCtorEq, false_implies, and_true, maxLen, padLen, if_true]; omega

/-- Where the length rule of ECB_DEC and CBC_DEC fails (41 R231). -/
theorem decLenOk_false_iff (final : Bool) (s : State) :
    decLenOk final (srcN s) = false ↔ s.srcLen.toNat % 16 ≠ 0 ∨ (final = true ∧ s.srcLen.toNat < 16) := by
  rw [← Bool.not_eq_true, decLenOk_iff, srcN]
  cases final with
  | false => simp
  | true => simp only [forall_const, true_and]; omega

/-- Where the length rule of CFB, OFB and CTR fails (41 R231). -/
theorem streamLenOk_false_iff (final : Bool) (s : State) :
    streamLenOk final (srcN s) = false ↔ final = false ∧ s.srcLen.toNat % 16 ≠ 0 := by
  rw [← Bool.not_eq_true, streamLenOk_iff, srcN]
  cases final <;> simp

/-- A plan's output has the length its rule gives (41 R273). -/
theorem planOf_length {i : Instr} {s : State} {q : Plan} (h : planOf i s = .ok q) : q.out.length = outLength i s := by
  have h' := h
  cases i <;>
    simp only [planOf, planEcbEnc, planEcbDec, planCbcEnc, planCbcDec, planCfbEnc, planCfbDec, planOfbEnc, planOfbDec,
      planCtrEnc, planCtrDec, planGcmEnc, planGcmDec, planShaInit, planShaUpdate, planShaFinal, planHmacInit, planHmacUpdate,
      planHmacFinal, planHmacVerify, planClear, modeChecks_ok, gcmChecks_ok, updateChecks_ok, chained, require_ok,
      beq_iff_eq, Except.ok.injEq, encLenOk_iff, decLenOk_iff] at h
  case ecbEnc f =>
    obtain ⟨_, _, hl, _, rfl⟩ := h
    simp only [outLength]
    rw [ecb_blocks_length (padIf_length_mod f (by simpa using hl.2)), padIf_length, srcBytes_length]
  case cbcEnc f =>
    obtain ⟨_, _, hl, _, rfl⟩ := h
    simp only [outLength]
    have hm := padIf_length_mod f (bs := srcBytes s) (by simpa using hl.2)
    rw [cbcEncrypt_length, blocks_length, ← srcBytes_length, ← padIf_length]
    omega
  case ecbDec f =>
    obtain ⟨_, _, hl, _, hu⟩ := h
    cases f with
    | true => simp only [outLength, if_true]; rw [show planEcbDec true s = .ok q from h']; rfl
    | false =>
      obtain ⟨out, ho, rfl⟩ := unpadded_after hu
      simp only [unpadIf, Bool.false_eq_true, if_false, Option.some.injEq] at ho
      simp only [outLength, Bool.false_eq_true, if_false]
      rw [← ho, ecb_blocks_length (by simpa using hl.1), srcBytes_length]
  case cbcDec f =>
    obtain ⟨_, _, hl, _, hu⟩ := h
    cases f with
    | true => simp only [outLength, if_true]; rw [show planCbcDec true s = .ok q from h']; rfl
    | false =>
      obtain ⟨out, ho, rfl⟩ := unpadded_after hu
      simp only [unpadIf, Bool.false_eq_true, if_false, Option.some.injEq] at ho
      simp only [outLength, Bool.false_eq_true, if_false]
      rw [← ho, cbcDecrypt_length, blocks_length, srcBytes_length]
      omega
  case cfbEnc f => obtain ⟨_, _, _, _, rfl⟩ := h; simp [outLength, cfbEncrypt_length]
  case cfbDec f => obtain ⟨_, _, _, _, rfl⟩ := h; simp [outLength, cfbDecrypt_length]
  case ofbEnc f => obtain ⟨_, _, _, _, rfl⟩ := h; simp [outLength, ofb_length]
  case ofbDec f => obtain ⟨_, _, _, _, rfl⟩ := h; simp [outLength, ofb_length]
  case ctrEnc f => obtain ⟨_, _, _, _, rfl⟩ := h; simp [outLength, ctr_length]
  case ctrDec f => obtain ⟨_, _, _, _, rfl⟩ := h; simp [outLength, ctr_length]
  case gcmEnc => obtain ⟨_, _, _, _, _, _, rfl⟩ := h; simp [outLength]
  case gcmDec => obtain ⟨_, _, _, _, _, _, rfl⟩ := h; simp [outLength, gcmDecText]
  case shaInit => subst h; rfl
  case clear => subst h; rfl
  case shaUpdate => obtain ⟨_, _, _, rfl⟩ := h; rfl
  case hmacUpdate => obtain ⟨_, _, _, rfl⟩ := h; rfl
  case shaFinal => obtain ⟨_, rfl⟩ := h; simp [outLength]
  case hmacFinal => obtain ⟨_, rfl⟩ := h; simp [outLength]
  case hmacInit => obtain ⟨_, rfl⟩ := h; rfl
  case hmacVerify => obtain ⟨_, _, _, rfl⟩ := h; rfl

/-- An unpadded string is no longer than the padded one. -/
theorem unpadIf_length_le {f : Bool} {m out : List Byte} (h : unpadIf f m = some out) : out.length ≤ m.length := by
  cases f with
  | false => simp only [unpadIf, Bool.false_eq_true, if_false, Option.some.injEq] at h; rw [h]
  | true =>
    obtain ⟨p, _, _, _, rfl⟩ := unpad_some h
    rw [List.length_take]; omega

/-- A plan's output fits in OUT_LEN (41 R231, 42 R310). -/
theorem planOf_length_lt {i : Instr} {s : State} {q : Plan} (h : planOf i s = .ok q) : q.out.length < 2 ^ 32 := by
  have hn := srcN_lt s
  have hl := planOf_length h
  cases i <;>
    simp only [planOf, planEcbEnc, planEcbDec, planCbcEnc, planCbcDec, planCfbEnc, planCfbDec, planOfbEnc, planOfbDec,
      planCtrEnc, planCtrDec, planGcmEnc, planGcmDec, planShaInit, planShaUpdate, planShaFinal, planHmacInit, planHmacUpdate,
      planHmacFinal, planHmacVerify, planClear, modeChecks_ok, gcmChecks_ok, updateChecks_ok, chained, require_ok,
      beq_iff_eq, Except.ok.injEq, encLenOk_iff, decLenOk_iff, decide_eq_true_eq] at h
  case ecbEnc f | cbcEnc f =>
    obtain ⟨_, _, h2, _, _⟩ := h
    rw [hl, outLength]
    cases f with
    | false => simpa using hn
    | true => have := h2.1 rfl; simp only [if_true]; rw [maxLen] at this; omega
  case ecbDec f =>
    obtain ⟨_, _, h2, _, hu⟩ := h
    obtain ⟨out, ho, rfl⟩ := unpadded_after hu
    have := unpadIf_length_le ho
    rw [ecb_blocks_length (by simpa using h2.1), srcBytes_length] at this
    simp only
    omega
  case cbcDec f =>
    obtain ⟨_, _, h2, _, hu⟩ := h
    obtain ⟨out, ho, rfl⟩ := unpadded_after hu
    have := unpadIf_length_le ho
    rw [cbcDecrypt_length, blocks_length, srcBytes_length] at this
    simp only
    omega
  case gcmEnc =>
    obtain ⟨_, _, h2, _, _, _, _⟩ := h
    rw [hl, outLength]
    rw [maxLen] at h2
    omega
  all_goals (rw [hl, outLength]; omega)

/-! ### Ranges and guarded commands (20 R110, R111) -/

theorem inRange_iff {a : Nat} {r : Nat × Nat} : inRange a r = true ↔ r.1 ≤ a ∧ a < r.1 + r.2 := by
  simp [inRange]

/-- Two ranges overlap exactly when an address lies in both. -/
theorem overlaps_iff {r q : Nat × Nat} :
    overlaps r q = true ↔ ∃ x, (r.1 ≤ x ∧ x < r.1 + r.2) ∧ (q.1 ≤ x ∧ x < q.1 + q.2) := by
  simp only [overlaps, Bool.and_eq_true, decide_eq_true_eq, bne_iff_ne, ne_eq]
  constructor
  · rintro ⟨⟨⟨h1, h2⟩, h3⟩, h4⟩
    exact ⟨max r.1 q.1, by omega⟩
  · rintro ⟨x, h1, h2⟩
    omega

/-- The guarded commands: the unobserved ones and the pending one. -/
theorem mem_guarded {s : State} {f : Footprint} : f ∈ guarded s ↔
    f ∈ s.unobserved ∨ (s.busy = true ∧ ∃ i, decode s.cmdLatch = .ok i ∧ f = footprint i s) := by
  unfold guarded pendingFootprint
  cases s.busy <;> cases decode s.cmdLatch <;> simp [or_comm]

theorem inGuardedOutput_iff {s : State} {a : Nat} : inGuardedOutput s a = true ↔
    ∃ f ∈ guarded s, f.output.1 ≤ a ∧ a < f.output.1 + f.output.2 := by
  simp [inGuardedOutput, inRange_iff]

theorem meetsGuarded_iff {s : State} {r : Nat × Nat} : meetsGuarded s r = true ↔
    ∃ f ∈ guarded s, ∃ q ∈ f.ranges, ∃ x, (r.1 ≤ x ∧ x < r.1 + r.2) ∧ (q.1 ≤ x ∧ x < q.1 + q.2) := by
  simp [meetsGuarded, overlaps_iff]

theorem staleByte_iff {s : State} {a : Nat} : staleByte s a = true ↔
    (∃ q ∈ s.uninvalidated, q.1 ≤ a ∧ a < q.1 + q.2) ∧ inGuardedOutput s a = false := by
  simp [staleByte, inRange_iff]

@[simp] theorem hostBytes_length (s : State) (a draw n : Nat) : (hostBytes s a draw n).length = n := by
  induction n generalizing a draw with
  | zero => rfl
  | succ n ih => simp [hostBytes, ih]

/-- Byte j of a load is the byte of address a + j, with its own draw. -/
theorem hostBytes_getD (s : State) {a draw n j : Nat} (h : j < n) :
    (hostBytes s a draw n).getD j 0 = hostByte s (a + j) (draw + j) := by
  induction n generalizing a draw j with
  | zero => omega
  | succ n ih =>
    cases j with
    | zero => rfl
    | succ j =>
      rw [hostBytes, List.getD_cons_succ, ih (by omega)]
      congr 1 <;> omega

/-- When a launch is hindered by stores not yet written back. -/
theorem launchesUnflushed_iff {r : Reg} {v : Word} {s : State} : launchesUnflushed r v s = true ↔
    r = .cmd ∧ s.busy = false ∧ ∃ i, decode v = .ok i ∧ ∃ p ∈ (footprint i s).ranges, ∃ q ∈ s.unflushed,
      ∃ x, (p.1 ≤ x ∧ x < p.1 + p.2) ∧ (q.1 ≤ x ∧ x < q.1 + q.2) := by
  unfold launchesUnflushed
  cases decode v <;> simp [overlaps_iff, and_assoc]

/-! ### One turn of the machine -/

/-- The inputs left after a turn. -/
def popInput (s : State) : State := { s with inputs := s.inputs.tail }

/-- Everything a step can do: the engine's turn (pending or idle), one action of the host, or the reset. -/
theorem step_cases {s t : State} (h : step s = .next t) :
    (s.busy = false ∧ t = popInput s) ∨
    (s.busy = true ∧ ∃ i, decode s.cmdLatch = .ok i ∧ exec i (awaitObservation i (popInput s)) = .next t) ∨
    (s.busy = true ∧ (∃ e, decode s.cmdLatch = .error e) ∧ t = finish (raiseError .illegalCommand (popInput s))) ∨
    (∃ a rest, s.inputs = .host a :: rest ∧ hostAct a (popInput s) = .next t) ∨
    (∃ rest, s.inputs = .reset :: rest ∧ t = hardReset (popInput s)) := by
  have engine : ∀ u, u = popInput s → engineTurn u = .next t →
      (s.busy = false ∧ t = popInput s) ∨
      (s.busy = true ∧ ∃ i, decode s.cmdLatch = .ok i ∧ exec i (awaitObservation i (popInput s)) = .next t) ∨
      (s.busy = true ∧ (∃ e, decode s.cmdLatch = .error e) ∧ t = finish (raiseError .illegalCommand (popInput s))) := by
    intro u hu h
    subst hu
    unfold engineTurn at h
    rw [show (popInput s).busy = s.busy from rfl] at h
    by_cases hb : s.busy = true
    · rw [if_pos hb, completion, fetchWord] at h
      have hc : (popInput s).cmdLatch = s.cmdLatch := rfl
      rw [hc] at h
      cases hd : decode s.cmdLatch with
      | ok i => rw [hd] at h; exact .inr (.inl ⟨hb, i, rfl, h⟩)
      | error e =>
        rw [hd] at h
        exact .inr (.inr ⟨hb, ⟨e, rfl⟩, (Host.Outcome.next.inj h).symm⟩)
    · rw [if_neg hb] at h
      exact .inl ⟨by simpa using hb, (Host.Outcome.next.inj h).symm⟩
  have out : ∀ {A B C D E : Prop}, A ∨ B ∨ C → A ∨ B ∨ C ∨ D ∨ E := by tauto
  unfold step turn at h
  cases hi : s.inputs with
  | nil =>
    rw [hi] at h
    refine out (engine s ?_ h)
    cases s
    simp only at hi
    subst hi
    rfl
  | cons x rest =>
    rw [hi] at h
    have hp : popInput s = { s with inputs := rest } := by simp [popInput, hi]
    cases x with
    | engine => exact out (engine { s with inputs := rest } hp.symm h)
    | host a => exact .inr (.inr (.inr (.inl ⟨a, rest, rfl, by rw [hp]; exact h⟩)))
    | reset =>
      refine .inr (.inr (.inr (.inr ⟨rest, rfl, ?_⟩)))
      rw [hp]
      exact (Host.Outcome.next.inj h).symm

/-- Everything an action of the host can do. -/
theorem hostAct_cases {a : HostAction} {s t : State} (h : hostAct a s = .next t) :
    (∃ off v, a = .regWrite 4 off v ∧ off % 4 = 0 ∧ off < 0x100 ∧ launchesUnflushed (regAt off) v s = false ∧
      t = writeReg (regAt off) v s) ∨
    (∃ off, a = .regRead 4 off ∧ off % 4 = 0 ∧ off < 0x100 ∧ t = readReg (regAt off) s) ∨
    (∃ b bs, a = .memWrite b bs ∧ b + bs.length ≤ addressSpace ∧
      meetsGuarded s (b, bs.length) = false ∧ t = hostStore b bs s) ∨
    (∃ b n, a = .memRead b n ∧ b + n ≤ addressSpace ∧ (∀ j < n, staleByte s (b + j) = false) ∧ t = hostLoad b n s) ∨
    (a = .cacheMaintenance ∧ t = maintainCaches s) ∨
    (a = .senseIrq ∧ t = senseIrq s) := by
  cases a with
  | regWrite width off v =>
    simp only [hostAct] at h
    split at h
    · next hr =>
      simp only [regAccessOk, Bool.and_eq_true, beq_iff_eq, decide_eq_true_eq] at hr
      obtain ⟨⟨rfl, h4⟩, hlt⟩ := hr
      split at h
      · simp at h
      · next hl => exact .inl ⟨off, v, rfl, h4, hlt, by simpa using hl, (Host.Outcome.next.inj h).symm⟩
    · simp at h
  | regRead width off =>
    simp only [hostAct] at h
    split at h
    · next hr =>
      simp only [regAccessOk, Bool.and_eq_true, beq_iff_eq, decide_eq_true_eq] at hr
      obtain ⟨⟨rfl, h4⟩, hlt⟩ := hr
      exact .inr (.inl ⟨off, rfl, h4, hlt, (Host.Outcome.next.inj h).symm⟩)
    · simp at h
  | memWrite b bs =>
    simp only [hostAct] at h
    split at h
    · simp at h
    · next hle =>
      split at h
      · simp at h
      · next hr =>
        exact .inr (.inr (.inl ⟨b, bs, rfl, by omega, by simpa using hr, (Host.Outcome.next.inj h).symm⟩))
  | memRead b n =>
    simp only [hostAct] at h
    split at h
    · simp at h
    · next hle =>
      split at h
      · simp at h
      · next hr =>
        exact .inr (.inr (.inr (.inl ⟨b, n, rfl, by omega, by simpa using hr, (Host.Outcome.next.inj h).symm⟩)))
  | cacheMaintenance => exact .inr (.inr (.inr (.inr (.inl ⟨rfl, (Host.Outcome.next.inj h).symm⟩))))
  | senseIrq => exact .inr (.inr (.inr (.inr (.inr ⟨rfl, (Host.Outcome.next.inj h).symm⟩))))

end Sys2Proof.Machine
end

