-- ==== Sys2Proof/Laws/ModeCommands.lean ====
section
/-! SUPPORT. The ten mode commands as one shape (41 R230 to R233): each is a transform of (IV, input), the checks it makes, and
whether it strips padding. A statement about all of them is proved over this shape once. -/

namespace Sys2Proof.Machine

/-- A command that succeeded, taken apart: its plan, its output range, and its next state. -/
theorem exec_ok_inv {i : Instr} {s t : State} (h : exec i s = .next t) (ht : t.err = .ok) :
    ∃ q, planOf i s = .ok q ∧ rangeOk s.platform s.dstAddr.toNat q.out.length = true ∧ q.authentic = true ∧
      AfterSpec i s q.after ∧ t = finish (writeOut q.out q.after) := by
  rcases exec_cases h with ⟨e, h1, _, rfl⟩ | h
  · exact absurd ht (by simpa using h1)
  · exact h

/-- The mode commands, without their FINAL bit. -/
def modeCommands : List (Bool → Instr) :=
  [.ecbEnc, .ecbDec, .cbcEnc, .cbcDec, .cfbEnc, .cfbDec, .ofbEnc, .ofbDec, .ctrEnc, .ctrDec]

/-- What a mode command makes of its input x under BC_ENC e, BC_DEC d and the IV v: its bytes before stripping, and the new IV. -/
def modeTransform (i : Instr) (e d : Block → Block) (v : Block) (x : List Byte) : List Byte × Block :=
  match i with
  | .ecbEnc f => (ecb e (blocks (padIf f x)), v)
  | .ecbDec _ => (ecb d (blocks x), v)
  | .cbcEnc f => cbcEncrypt e v (blocks (padIf f x))
  | .cbcDec _ => cbcDecrypt d v (blocks x)
  | .cfbEnc _ => cfbEncrypt e v (blocks x)
  | .cfbDec _ => cfbDecrypt e v (blocks x)
  | .ofbEnc _ | .ofbDec _ => ofb e v (blocks x)
  | .ctrEnc _ | .ctrDec _ => ctr e v (blocks x)
  | _ => ([], v)

/-- Does the command strip padding from what it computed? -/
def stripsPadding : Instr → Bool
  | .ecbDec f | .cbcDec f => f
  | _ => false

/-- The length check of a mode command (41 R231). -/
def modeLenOk (i : Instr) (n : Nat) : Bool :=
  match i with
  | .ecbEnc f | .cbcEnc f => encLenOk f n
  | .ecbDec f | .cbcDec f => decLenOk f n
  | .cfbEnc f | .cfbDec f | .ofbEnc f | .ofbDec f | .ctrEnc f | .ctrDec f => streamLenOk f n
  | _ => true

/-- Does the command use the IV? -/
def usesIv : Instr → Bool
  | .ecbEnc _ | .ecbDec _ => false
  | _ => true

/-- Every mode command's plan in the one shape. -/
theorem planOf_mode {c : Bool → Instr} (hc : c ∈ modeCommands) (f : Bool) (s : State) :
    planOf (c f) s = modeChecks (usesIv (c f)) (modeLenOk (c f) (srcN s)) s
      (unpadded (setIv (modeTransform (c f) (cipherE s) (cipherD s) (ivBlock s) (srcBytes s)).2 s)
        (unpadIf (stripsPadding (c f)) (modeTransform (c f) (cipherE s) (cipherD s) (ivBlock s) (srcBytes s)).1)) := by
  simp only [modeCommands, List.mem_cons, List.not_mem_nil, or_false] at hc
  rcases hc with rfl | rfl | rfl | rfl | rfl | rfl | rfl | rfl | rfl | rfl
  · simp only [planOf, planEcbEnc, usesIv, modeLenOk, modeTransform, stripsPadding, setIv_ivBlock]; rfl
  · simp only [planOf, planEcbDec, usesIv, modeLenOk, modeTransform, stripsPadding, setIv_ivBlock]
  all_goals rfl

/-- What a mode command that succeeded did, and what it had checked. -/
theorem mode_inv {c : Bool → Instr} (hc : c ∈ modeCommands) {f : Bool} {s t : State}
    (h : exec (c f) s = .next t) (ht : t.err = .ok) :
    ∃ out,
      unpadIf (stripsPadding (c f)) (modeTransform (c f) (cipherE s) (cipherD s) (ivBlock s) (srcBytes s)).1 = some out ∧
      t = finish (writeOut out (setIv (modeTransform (c f) (cipherE s) (cipherD s) (ivBlock s) (srcBytes s)).2 s)) ∧
      keyOk s = true ∧ (usesIv (c f) = true → ivValid s = true) ∧ modeLenOk (c f) (srcN s) = true ∧ srcOk s = true ∧
      rangeOk s.platform s.dstAddr.toNat out.length = true := by
  obtain ⟨q, hq, h1, _, _, rfl⟩ := exec_ok_inv h ht
  rw [planOf_mode hc, modeChecks_ok] at hq
  obtain ⟨a, b, e, d, hq⟩ := hq
  obtain ⟨out, ho, rfl⟩ := unpadded_after hq
  exact ⟨out, ho, rfl, a, b, e, d, h1⟩

/-- When a mode command succeeds, and its next state. -/
theorem mode_next {c : Bool → Instr} (hc : c ∈ modeCommands) {f : Bool} {s : State} {out : List Byte} (hk : keyOk s = true)
    (hv : usesIv (c f) = true → ivValid s = true) (hl : modeLenOk (c f) (srcN s) = true) (hsr : srcOk s = true)
    (hu : unpadIf (stripsPadding (c f)) (modeTransform (c f) (cipherE s) (cipherD s) (ivBlock s) (srcBytes s)).1 = some out)
    (hd : rangeOk s.platform s.dstAddr.toNat out.length = true) :
    exec (c f) s =
      .next (finish (writeOut out (setIv (modeTransform (c f) (cipherE s) (cipherD s) (ivBlock s) (srcBytes s)).2 s))) := by
  refine exec_of_plan (q := ⟨out, true, _⟩) ?_ hd rfl
  rw [planOf_mode hc, modeChecks_ok, hu]
  exact ⟨hk, hv, hl, hsr, rfl⟩

/-! ### A transform in two parts -/

theorem pad_append {a b : List Byte} (h : a.length % 16 = 0) : pad (a ++ b) = a ++ pad b := by
  unfold pad padLen
  rw [List.length_append, show (a.length + b.length) % 16 = b.length % 16 by omega, List.append_assoc]

theorem unpad_append {a b out : List Byte} (h : unpad b = some out) (hb : 16 ≤ b.length) :
    unpad (a ++ b) = some (a ++ out) := by
  obtain ⟨p, h1, h2, h3, rfl⟩ := unpad_some h
  rw [unpad_eq_some h1 h2 (by simp; omega)]
  · congr 1
    rw [List.length_append, List.take_append, List.take_of_length_le (by omega)]
    congr 2; omega
  · intro j g1 g2
    rw [List.length_append] at g1 g2
    rw [List.getD_append_right _ _ _ _ (by omega)]
    exact h3 _ (by omega) (by omega)

/-- A whole number of blocks first, with FINAL = 0, then the rest from the IV so reached. -/
theorem modeTransform_append {c : Bool → Instr} (hc : c ∈ modeCommands) (e d : Block → Block) (v : Block) (a b : List Byte)
    (h : a.length % 16 = 0) :
    modeTransform (c true) e d v (a ++ b) =
      ((modeTransform (c false) e d v a).1 ++ (modeTransform (c true) e d (modeTransform (c false) e d v a).2 b).1,
        (modeTransform (c true) e d (modeTransform (c false) e d v a).2 b).2) := by
  simp only [modeCommands, List.mem_cons, List.not_mem_nil, or_false] at hc
  rcases hc with rfl | rfl | rfl | rfl | rfl | rfl | rfl | rfl | rfl | rfl <;>
    simp only [modeTransform, padIf, if_true, Bool.false_eq_true, if_false, pad_append h, blocks_append h, ecb_append,
      cbcEncrypt_append, cbcDecrypt_append, cfbEncrypt_append, cfbDecrypt_append, ofb_append, ctr_append]

/-- With FINAL = 0 a whole number of blocks keeps its length. -/
theorem modeTransform_length_false {c : Bool → Instr} (hc : c ∈ modeCommands) (e d : Block → Block) (v : Block)
    (a : List Byte) (h : a.length % 16 = 0) : (modeTransform (c false) e d v a).1.length = a.length := by
  simp only [modeCommands, List.mem_cons, List.not_mem_nil, or_false] at hc
  rcases hc with rfl | rfl | rfl | rfl | rfl | rfl | rfl | rfl | rfl | rfl <;>
    simp only [modeTransform, padIf, Bool.false_eq_true, if_false, ecb_blocks_length h, cbcEncrypt_length,
      cbcDecrypt_length, cfbEncrypt_length, cfbDecrypt_length, ofb_length, ctr_length, blocks_length]
  all_goals omega

theorem stripsPadding_false {c : Bool → Instr} (hc : c ∈ modeCommands) : stripsPadding (c false) = false := by
  simp only [modeCommands, List.mem_cons, List.not_mem_nil, or_false] at hc
  rcases hc with rfl | rfl | rfl | rfl | rfl | rfl | rfl | rfl | rfl | rfl <;> rfl

/-- With FINAL = 1 a command strips nothing, or it has at least one block, whole blocks only, and keeps their length. -/
theorem stripsPadding_true {c : Bool → Instr} (hc : c ∈ modeCommands) {n : Nat} (hl : modeLenOk (c true) n = true) :
    stripsPadding (c true) = false ∨ (stripsPadding (c true) = true ∧ 16 ≤ n ∧ n % 16 = 0 ∧
      ∀ e d v (a : List Byte), a.length = n → (modeTransform (c true) e d v a).1.length = n) := by
  simp only [modeCommands, List.mem_cons, List.not_mem_nil, or_false] at hc
  rcases hc with rfl | rfl | rfl | rfl | rfl | rfl | rfl | rfl | rfl | rfl <;> simp only [stripsPadding, true_or]
  · right
    have := (decLenOk_iff _ _).mp hl
    refine ⟨trivial, this.2 rfl, this.1, fun e d v a ha => ?_⟩
    simp only [modeTransform]
    rw [ecb_blocks_length (by omega), ha]
  · right
    have := (decLenOk_iff _ _).mp hl
    refine ⟨trivial, this.2 rfl, this.1, fun e d v a ha => ?_⟩
    simp only [modeTransform]
    rw [cbcDecrypt_length, blocks_length]
    omega

end Sys2Proof.Machine
end

