-- ==== Sys2Proof/Laws/PerInstr.lean ====
section
/-! SUPPORT. The family `RowMatch`: for each constructor of `Instr`, its row of the opcode table (30 R143). The patterns are
written out here, bit by bit, apart from Decode.lean. -/

namespace Sys2Proof.Laws.RowMatch

/-- The 32-bit pattern of a command's row, FINAL at bit 8 (30 R143). -/
def row : Instr → Word
  | .ecbEnc f => 0b00000000000000000000000#23 ++ BitVec.ofBool f ++ 0b00000001#8
  | .ecbDec f => 0b00000000000000000000000#23 ++ BitVec.ofBool f ++ 0b00000010#8
  | .cbcEnc f => 0b00000000000000000000000#23 ++ BitVec.ofBool f ++ 0b00000011#8
  | .cbcDec f => 0b00000000000000000000000#23 ++ BitVec.ofBool f ++ 0b00000100#8
  | .cfbEnc f => 0b00000000000000000000000#23 ++ BitVec.ofBool f ++ 0b00000101#8
  | .cfbDec f => 0b00000000000000000000000#23 ++ BitVec.ofBool f ++ 0b00000110#8
  | .ofbEnc f => 0b00000000000000000000000#23 ++ BitVec.ofBool f ++ 0b00000111#8
  | .ofbDec f => 0b00000000000000000000000#23 ++ BitVec.ofBool f ++ 0b00001000#8
  | .ctrEnc f => 0b00000000000000000000000#23 ++ BitVec.ofBool f ++ 0b00001001#8
  | .ctrDec f => 0b00000000000000000000000#23 ++ BitVec.ofBool f ++ 0b00001010#8
  | .gcmEnc => 0b00000000000000000000000000010000#32
  | .gcmDec => 0b00000000000000000000000000010001#32
  | .shaInit => 0b00000000000000000000000000100000#32
  | .shaUpdate => 0b00000000000000000000000000100001#32
  | .shaFinal => 0b00000000000000000000000000100010#32
  | .hmacInit => 0b00000000000000000000000000101000#32
  | .hmacUpdate => 0b00000000000000000000000000101001#32
  | .hmacFinal => 0b00000000000000000000000000101010#32
  | .hmacVerify => 0b00000000000000000000000000101011#32
  | .clear => 0b00000000000000000000000000110000#32

/-- The command is well formed and the encoder gives its row's pattern. -/
def Statement (i : Instr) : Prop := i.wellFormed = true ∧ encode i = row i

theorem ecbEnc (final : Bool) : Statement (.ecbEnc final) := by cases final <;> exact ⟨rfl, rfl⟩
theorem ecbDec (final : Bool) : Statement (.ecbDec final) := by cases final <;> exact ⟨rfl, rfl⟩
theorem cbcEnc (final : Bool) : Statement (.cbcEnc final) := by cases final <;> exact ⟨rfl, rfl⟩
theorem cbcDec (final : Bool) : Statement (.cbcDec final) := by cases final <;> exact ⟨rfl, rfl⟩
theorem cfbEnc (final : Bool) : Statement (.cfbEnc final) := by cases final <;> exact ⟨rfl, rfl⟩
theorem cfbDec (final : Bool) : Statement (.cfbDec final) := by cases final <;> exact ⟨rfl, rfl⟩
theorem ofbEnc (final : Bool) : Statement (.ofbEnc final) := by cases final <;> exact ⟨rfl, rfl⟩
theorem ofbDec (final : Bool) : Statement (.ofbDec final) := by cases final <;> exact ⟨rfl, rfl⟩
theorem ctrEnc (final : Bool) : Statement (.ctrEnc final) := by cases final <;> exact ⟨rfl, rfl⟩
theorem ctrDec (final : Bool) : Statement (.ctrDec final) := by cases final <;> exact ⟨rfl, rfl⟩
theorem gcmEnc : Statement .gcmEnc := ⟨rfl, rfl⟩
theorem gcmDec : Statement .gcmDec := ⟨rfl, rfl⟩
theorem shaInit : Statement .shaInit := ⟨rfl, rfl⟩
theorem shaUpdate : Statement .shaUpdate := ⟨rfl, rfl⟩
theorem shaFinal : Statement .shaFinal := ⟨rfl, rfl⟩
theorem hmacInit : Statement .hmacInit := ⟨rfl, rfl⟩
theorem hmacUpdate : Statement .hmacUpdate := ⟨rfl, rfl⟩
theorem hmacFinal : Statement .hmacFinal := ⟨rfl, rfl⟩
theorem hmacVerify : Statement .hmacVerify := ⟨rfl, rfl⟩
theorem clear : Statement .clear := ⟨rfl, rfl⟩

end Sys2Proof.Laws.RowMatch
end

