-- ==== Sys2Proof/Laws/Safety.lean ====
section
/-! SUPPORT. Small laws of the invariant of Safety.lean: which fields it looks at, and the hash states that meet it. -/

namespace Sys2Proof

open Machine

/-- The invariant looks at these fields only. -/
theorem Inv.of_fields {s t : State} (h : Inv s) (hmem : t.mem = s.mem) (hhs : t.hs = s.hs) (hmode : t.hmode = s.hmode)
    (hopad : t.opad = s.opad) (hbusy : t.busy = s.busy) (herr : t.err = s.err) (hv : t.verifyOk = s.verifyOk)
    (hdone : t.done = s.done) (hout : t.outLen = s.outLen) : Inv t := by
  obtain ⟨h1, h2, h3, h4, h5⟩ := h
  refine ⟨hmem ▸ h1, ?_, ?_, ?_, ?_⟩
  · unfold hashBufferInv; rw [hhs]; exact h2
  · unfold hashContextInv; rw [hhs, hmode, hopad]; exact h3
  · unfold pendingFlagsInv; rw [hbusy, herr, hv, hdone]; exact h4
  · unfold resultFlagsInv; rw [herr, hout, hv, hmode]; exact h5

theorem hashBufferInv_zero {s : State} (h : s.hs = .zero) : hashBufferInv s := by
  unfold hashBufferInv
  rw [h]
  exact ⟨by decide, by decide⟩

theorem hashBufferInv_init {s : State} (h : s.hs = .init) : hashBufferInv s := by
  unfold hashBufferInv
  rw [h]
  exact ⟨by decide, by decide⟩

theorem hashBufferInv_absorb {t : State} {hs : HashState} (h : hs.bitlen.toNat % 512 = 8 * hs.buf.length) (x : List Byte)
    (ht : t.hs = absorb hs x) : hashBufferInv t := by
  unfold hashBufferInv
  rw [ht]
  exact ⟨absorb_buf_lt hs x, absorb_bitlen_mod h x⟩

end Sys2Proof
end

