-- ==== Sys2Proof/Machine/Script.lean ====
section
/-! DEFINITION. Host scripts (30 R147, R148) as lists of inputs, and PBKDF2 as a host program over the HMAC commands
(44 R420). -/

namespace Sys2Proof.Machine

/-- `W NAME, v` (30 R147). -/
def scriptW (r : Reg) (v : Word) : List Input := [.host (.regWrite 4 r.offset v)]

/-- `R NAME -> name` (30 R147). -/
def scriptR (r : Reg) : List Input := [.host (.regRead 4 r.offset)]

/-- `CMD MNEMONIC` and `CMD MNEMONIC.F` (30 R147): the FINAL bit is the command's own. -/
def scriptCmd (i : Instr) : List Input := scriptW .cmd (encode i)

/-- `WAIT` (30 R147): the host polls STATUS until BUSY = 0. The engine takes its turn, and one read of STATUS follows; a real
host may poll any number of times before. -/
def scriptWait : List Input := .engine :: scriptR .status

/-- `MEM a: b0 b1 ..` (30 R147). -/
def scriptMem (a : Nat) (bs : List Byte) : List Input := [.host (.memWrite a bs)]

/-- KEYSZ of a key length (30 R148). -/
def keyszOf (n : Nat) : Word := if n = 16 then 0 else if n = 24 then 1 else 2

/-- `LOADKEY k` for a key of 16, 24 or 32 bytes, with the host's IRQ_EN (30 R148). -/
def scriptLoadKey (k : List Byte) (irqEn : Bool) : List Input :=
  let kk := k ++ zeros (32 - k.length)
  scriptW .ctrl (keyszOf k.length ||| (if irqEn then 0x100 else 0)) ++
  scriptW (.key 0) (wordAt kk 0) ++ scriptW (.key 1) (wordAt kk 1) ++ scriptW (.key 2) (wordAt kk 2) ++
  scriptW (.key 3) (wordAt kk 3) ++ scriptW (.key 4) (wordAt kk 4) ++ scriptW (.key 5) (wordAt kk 5) ++
  scriptW (.key 6) (wordAt kk 6) ++ scriptW (.key 7) (wordAt kk 7)

/-- `LOADIV v` for 16 bytes (30 R148). -/
def scriptLoadIv (v : List Byte) : List Input :=
  scriptW (.iv 0) (wordAt v 0) ++ scriptW (.iv 1) (wordAt v 1) ++ scriptW (.iv 2) (wordAt v 2) ++ scriptW (.iv 3) (wordAt v 3)

/-- `SRC a, n` (30 R148). -/
def scriptSrc (a n : Word) : List Input := scriptW .srcAddr a ++ scriptW .srcLen n

/-- `DST a` (30 R148). -/
def scriptDst (a : Word) : List Input := scriptW .dstAddr a

/-- `AAD a, n` (30 R148). -/
def scriptAad (a n : Word) : List Input := scriptW .aadAddr a ++ scriptW .aadLen n

/-- `NONCE a, n` (30 R148). -/
def scriptNonce (a n : Word) : List Input := scriptW .nonceAddr a ++ scriptW .nonceLen n

/-- `RUN MNEMONIC[.F]` (30 R148). -/
def scriptRun (i : Instr) : List Input := scriptCmd i ++ scriptWait

/-- `ACK` (30 R148). -/
def scriptAck : List Input := scriptW .irqStatus 0x3

/-- `hmac_cmd(K, X)` of 44 R420, with K at a, X at b and the result at d, read back by the host. -/
def scriptHmac (a b d : Word) (k x : List Byte) : List Input :=
  scriptMem a.toNat k ++ scriptMem b.toNat x ++
  scriptSrc a (BitVec.ofNat 32 k.length) ++ scriptRun .hmacInit ++
  scriptSrc b (BitVec.ofNat 32 x.length) ++ scriptRun .hmacUpdate ++
  scriptDst d ++ scriptRun .hmacFinal ++ [.host (.memRead d.toNat 32)]

/-- The inner loop of PBKDF2 (44 R420): c more values of U, XORed into B. -/
def pbkdf2Loop (p : List Byte) : Nat → List Byte → List Byte → List Byte
  | 0, _, b => b
  | c + 1, u, b => let u' := hmac p u; pbkdf2Loop p c u' (xorBytes b u')

/-- Block i of PBKDF2 with c iterations (44 R420). DESIGN CHOICE (log 21): the rule bounds neither i nor dklen, and BE32 takes a
32-bit value, so from i = 2^32 on the index is taken modulo 2^32. -/
def pbkdf2Block (p salt : List Byte) (c i : Nat) : List Byte :=
  let u := hmac p (salt ++ be32 (BitVec.ofNat 32 i))
  pbkdf2Loop p (c - 1) u u

/-- What the host program of 44 R420 returns: `none` is the host's own InvalidParameter (c ≥ 1 and dklen ≥ 1). -/
def pbkdf2 (p salt : List Byte) (c dklen : Nat) : Option (List Byte) :=
  if c = 0 ∨ dklen = 0 then none
  else some (((List.range ((dklen + 31) / 32)).flatMap fun i => pbkdf2Block p salt c (i + 1)).take dklen)

end Sys2Proof.Machine
end

