-- ==== Sys2Proof/Tests/Slice0.lean ====
section
/-! SUPPORT. The model's own tests. Expected values come from the spec: the encodings of 30 R143 and the vectors of spec 95 (whose
row is named in each comment). The block cipher has no value in the model, so the mode and GCM tests use as cipher the few
values that those rows give. Then the witnesses: for every statement of Obligations.lean that has hypotheses, states and
operands that meet them. -/

namespace Sys2Proof.Tests

open Sys2Proof Sys2Proof.Machine Sys2Proof.Claims

/-! ### Well-formedness: one ill-formed term for each check -/

theorem test_rsv_must_be_zero : (CommandWord.mk 0x01 false 1).wellFormed = false := by decide
theorem test_op_must_be_assigned : (CommandWord.mk 0x0B false 0).wellFormed = false := by decide
theorem test_final_needs_a_mode : (CommandWord.mk 0x22 true 0).wellFormed = false := by decide
theorem test_register_width : (HostAction.regWrite 2 0x004 0).wellFormed = false := by decide
theorem test_register_alignment : (HostAction.regRead 4 0x006).wellFormed = false := by decide
theorem test_register_window : (HostAction.regRead 4 0x100).wellFormed = false := by decide
theorem test_store_inside_memory : (HostAction.memWrite 0xFFFFFFFF [1, 2]).wellFormed = false := by decide
theorem test_load_inside_memory : (HostAction.memRead 0xFFFFFFFF 2).wellFormed = false := by decide

/-- Every command is well formed. -/
theorem test_instr_wellFormed (i : Instr) : i.wellFormed = true := by
  cases i <;> first | decide | (rename_i f; cases f <;> decide)

/-! ### Decoding: the words of 30 R143, bit 31 first -/

theorem test_decode_ecbEnc :
    decode 0b00000000000000000000000000000001#32 = .ok (.ecbEnc false) ∧
    decode 0b00000000000000000000000100000001#32 = .ok (.ecbEnc true) := by decide
theorem test_decode_ecbDec :
    decode 0b00000000000000000000000000000010#32 = .ok (.ecbDec false) ∧
    decode 0b00000000000000000000000100000010#32 = .ok (.ecbDec true) := by decide
theorem test_decode_cbcEnc :
    decode 0b00000000000000000000000000000011#32 = .ok (.cbcEnc false) ∧
    decode 0b00000000000000000000000100000011#32 = .ok (.cbcEnc true) := by decide
theorem test_decode_cbcDec :
    decode 0b00000000000000000000000000000100#32 = .ok (.cbcDec false) ∧
    decode 0b00000000000000000000000100000100#32 = .ok (.cbcDec true) := by decide
theorem test_decode_cfbEnc :
    decode 0b00000000000000000000000000000101#32 = .ok (.cfbEnc false) ∧
    decode 0b00000000000000000000000100000101#32 = .ok (.cfbEnc true) := by decide
theorem test_decode_cfbDec :
    decode 0b00000000000000000000000000000110#32 = .ok (.cfbDec false) ∧
    decode 0b00000000000000000000000100000110#32 = .ok (.cfbDec true) := by decide
theorem test_decode_ofbEnc :
    decode 0b00000000000000000000000000000111#32 = .ok (.ofbEnc false) ∧
    decode 0b00000000000000000000000100000111#32 = .ok (.ofbEnc true) := by decide
theorem test_decode_ofbDec :
    decode 0b00000000000000000000000000001000#32 = .ok (.ofbDec false) ∧
    decode 0b00000000000000000000000100001000#32 = .ok (.ofbDec true) := by decide
theorem test_decode_ctrEnc :
    decode 0b00000000000000000000000000001001#32 = .ok (.ctrEnc false) ∧
    decode 0b00000000000000000000000100001001#32 = .ok (.ctrEnc true) := by decide
theorem test_decode_ctrDec :
    decode 0b00000000000000000000000000001010#32 = .ok (.ctrDec false) ∧
    decode 0b00000000000000000000000100001010#32 = .ok (.ctrDec true) := by decide
theorem test_decode_gcmEnc : decode 0b00000000000000000000000000010000#32 = .ok .gcmEnc := by decide
theorem test_decode_gcmDec : decode 0b00000000000000000000000000010001#32 = .ok .gcmDec := by decide
theorem test_decode_shaInit : decode 0b00000000000000000000000000100000#32 = .ok .shaInit := by decide
theorem test_decode_shaUpdate : decode 0b00000000000000000000000000100001#32 = .ok .shaUpdate := by decide
theorem test_decode_shaFinal : decode 0b00000000000000000000000000100010#32 = .ok .shaFinal := by decide
theorem test_decode_hmacInit : decode 0b00000000000000000000000000101000#32 = .ok .hmacInit := by decide
theorem test_decode_hmacUpdate : decode 0b00000000000000000000000000101001#32 = .ok .hmacUpdate := by decide
theorem test_decode_hmacFinal : decode 0b00000000000000000000000000101010#32 = .ok .hmacFinal := by decide
theorem test_decode_hmacVerify : decode 0b00000000000000000000000000101011#32 = .ok .hmacVerify := by decide
theorem test_decode_clear : decode 0b00000000000000000000000000110000#32 = .ok .clear := by decide

/-! Illegal words (95 X1 to X4), by name. -/

theorem test_illegal_sha_final_with_final : decode 0x00000122#32 = .error .finalNotAllowed := by decide
theorem test_illegal_zero_word : decode 0x00000000#32 = .error .unassignedOp := by decide
theorem test_illegal_op_0b : decode 0x0000000B#32 = .error .unassignedOp := by decide
theorem test_illegal_reserved_bit : decode 0x00000203#32 = .error .reservedBits := by decide

/-- The opcode table's numbering is the word's own. -/
theorem test_decodeTableWord : decodeTableWord 32 0x104 = some (.cbcDec true) := by decide

/-- The register map (10 R30) read back from every named offset. -/
theorem test_regAt_offset :
    (∀ k : Fin 8, regAt (Reg.key k).offset = .key k) ∧ (∀ k : Fin 4, regAt (Reg.iv k).offset = .iv k) ∧
    (∀ k : Fin 8, regAt (Reg.digest k).offset = .digest k) ∧ regAt 0x034 = .nonceAddr ∧ regAt 0x03C = .reserved := by decide

/-! ### States for the tests -/

/-- 95 section 0: memory of 64 KiB at address 0, coherent, after reset. -/
def quiet : State := { State.reset with platform := .fixed [(0, 0x10000)] true }

/-- A 16-byte input at 0, output at 0x1000, a 12-byte nonce at 0x100, the IV written (with zeros). -/
def good : State :=
  { quiet with ivw := 0b1111, srcLen := 16, dstAddr := 0x1000, nonceAddr := 0x100, nonceLen := 12 }

/-- A command launched in `good`. -/
def pending (i : Instr) : State := launch (encode i) good

/-- The state a command leaves. -/
def after (i : Instr) (s : State) : State := finish (conclude s (planOf i s))

/-- A hash context owned by SHA. -/
def shaState : State := { good with hmode := .sha, hs := .init }

/-- A hash context owned by HMAC (with a zero key's IPAD not absorbed: only the owner matters). -/
def hmacState : State := { good with hmode := .hmac, hs := .init, srcLen := 32 }

/-! ### Modes (95 section 2.1, 2.2): E and D given at the points the rows give -/

/-- A block function given at two points. -/
def twoPoints (a x b y : Block) (v : Block) : Block := if v = a then x else if v = b then y else 0

/-- The 17 bytes P1 ++ ae. -/
def p17 : List Byte := [0x6b, 0xc1, 0xbe, 0xe2, 0x2e, 0x40, 0x9f, 0x96, 0xe9, 0x3d, 0x7e, 0x11, 0x73, 0x93, 0x17, 0x2a, 0xae]

/-- M4 -/
theorem test_ecb_encrypt :
    ecb (twoPoints 0x6bc1bee22e409f96e93d7e117393172a#128
        0x3ad77bb40d7a3660a89ecaf32466ef97#128
        0xae0f0f0f0f0f0f0f0f0f0f0f0f0f0f0f#128
        0x9e197020026bcdee188eeda4d2d83c4e#128) (blocks (pad p17)) =
      [0x3a, 0xd7, 0x7b, 0xb4, 0x0d, 0x7a, 0x36, 0x60, 0xa8, 0x9e, 0xca, 0xf3, 0x24, 0x66, 0xef, 0x97, 0x9e, 0x19, 0x70,
        0x20, 0x02, 0x6b, 0xcd, 0xee, 0x18, 0x8e, 0xed, 0xa4, 0xd2, 0xd8, 0x3c, 0x4e] := by decide +kernel

/-- M7; the inputs of E are P1 xor IV and the second block xor the first ciphertext block. -/
theorem test_cbc_encrypt :
    cbcEncrypt (twoPoints 0x6bc0bce12a459991e134741a7f9e1925#128
        0x7649abac8119b246cee98e9b12e9197d#128
        0xd846a4a38e16bd49c1e681941de61672#128
        0x34d2d260173113008c28112c77668c86#128)
      0x000102030405060708090a0b0c0d0e0f#128 (blocks (pad p17)) =
      ([0x76, 0x49, 0xab, 0xac, 0x81, 0x19, 0xb2, 0x46, 0xce, 0xe9, 0x8e, 0x9b, 0x12, 0xe9, 0x19, 0x7d, 0x34, 0xd2, 0xd2,
        0x60, 0x17, 0x31, 0x13, 0x00, 0x8c, 0x28, 0x11, 0x2c, 0x77, 0x66, 0x8c, 0x86],
        0x34d2d260173113008c28112c77668c86#128) := by decide +kernel

/-- Y11: decrypting M7's output. -/
theorem test_cbc_decrypt :
    (cbcDecrypt (twoPoints 0x7649abac8119b246cee98e9b12e9197d#128
        0x6bc0bce12a459991e134741a7f9e1925#128
        0x34d2d260173113008c28112c77668c86#128
        0xd846a4a38e16bd49c1e681941de61672#128)
      0x000102030405060708090a0b0c0d0e0f#128
      (blocks ([0x76, 0x49, 0xab, 0xac, 0x81, 0x19, 0xb2, 0x46, 0xce, 0xe9, 0x8e, 0x9b, 0x12, 0xe9, 0x19, 0x7d, 0x34, 0xd2,
        0xd2, 0x60, 0x17, 0x31, 0x13, 0x00, 0x8c, 0x28, 0x11, 0x2c, 0x77, 0x66, 0x8c, 0x86]))).1.take 17 =
      p17 := by decide +kernel

/-- M9: the partial second piece is ae xor the first byte of E of the feedback, and the feedback stays. -/
theorem test_cfb_encrypt :
    cfbEncrypt (twoPoints 0x000102030405060708090a0b0c0d0e0f#128
        0x50fe67cc996d32b6da0937e99bafec60#128
        0x3b3fd92eb72dad20333449f8e83cfb4a#128
        0x66000000000000000000000000000000#128)
      0x000102030405060708090a0b0c0d0e0f#128 (blocks p17) =
      ([0x3b, 0x3f, 0xd9, 0x2e, 0xb7, 0x2d, 0xad, 0x20, 0x33, 0x34, 0x49, 0xf8, 0xe8, 0x3c, 0xfb, 0x4a, 0xc8],
        0x3b3fd92eb72dad20333449f8e83cfb4a#128) := by decide +kernel

/-- The same with the ciphertext as input: CFB_DEC uses E too. -/
theorem test_cfb_decrypt :
    (cfbDecrypt (twoPoints 0x000102030405060708090a0b0c0d0e0f#128
        0x50fe67cc996d32b6da0937e99bafec60#128
        0x3b3fd92eb72dad20333449f8e83cfb4a#128
        0x66000000000000000000000000000000#128)
      0x000102030405060708090a0b0c0d0e0f#128
      (blocks ([0x3b, 0x3f, 0xd9, 0x2e, 0xb7, 0x2d, 0xad, 0x20, 0x33, 0x34, 0x49, 0xf8, 0xe8, 0x3c, 0xfb, 0x4a, 0xc8]))).1 =
      p17 := by decide +kernel

/-- M12: the keystream is E(IV), E(E(IV)), and the last one is the new IV, also of a partial piece. -/
theorem test_ofb :
    ofb (twoPoints 0x000102030405060708090a0b0c0d0e0f#128
        0x50fe67cc996d32b6da0937e99bafec60#128
        0x50fe67cc996d32b6da0937e99bafec60#128
        0xd9a4dada0892239f6b8b3d7680e15674#128)
      0x000102030405060708090a0b0c0d0e0f#128 (blocks p17) =
      ([0x3b, 0x3f, 0xd9, 0x2e, 0xb7, 0x2d, 0xad, 0x20, 0x33, 0x34, 0x49, 0xf8, 0xe8, 0x3c, 0xfb, 0x4a, 0x77],
        0xd9a4dada0892239f6b8b3d7680e15674#128) := by decide +kernel

/-- M15: the counters are ff..ff and then 00..00. -/
theorem test_ctr_wraps :
    ctr (twoPoints 0xffffffffffffffffffffffffffffffff#128
        0x8af2860142f786f409307c1a3f7eaaac#128
        0x00000000000000000000000000000000#128
        0x7df76b0c1ab899b33e42f047b91b546f#128)
      0xffffffffffffffffffffffffffffffff#128
      (blocks ([0x6b, 0xc1, 0xbe, 0xe2, 0x2e, 0x40, 0x9f, 0x96, 0xe9, 0x3d, 0x7e, 0x11, 0x73, 0x93, 0x17, 0x2a, 0xae, 0x2d,
        0x8a, 0x57, 0x1e, 0x03, 0xac, 0x9c, 0x9e, 0xb7, 0x6f, 0xac, 0x45, 0xaf, 0x8e, 0x51])) =
      ([0xe1, 0x33, 0x38, 0xe3, 0x6c, 0xb7, 0x19, 0x62, 0xe0, 0x0d, 0x02, 0x0b, 0x4c, 0xed, 0xbd, 0x86, 0xd3, 0xda, 0xe1,
        0x5b, 0x04, 0xbb, 0x35, 0x2f, 0xa0, 0xf5, 0x9f, 0xeb, 0xfc, 0xb4, 0xda, 0x3e],
        1) := by decide +kernel

/-- Y1 to Y5: the plaintexts of the ECB_DEC.F rows, unpadded. -/
theorem test_unpad :
    unpad (List.replicate 16 0x10) = some [] ∧ unpad (List.replicate 16 0x00) = none ∧
    unpad (List.replicate 15 0x00 ++ [0x11]) = none ∧ unpad (List.replicate 14 0x00 ++ [0x01, 0x02]) = none ∧
    unpad (List.replicate 15 0x41 ++ [0x01]) = some (List.replicate 15 0x41) := by decide

/-! ### GCM (95 sections 2.4, 2.5) -/

/-- GF3 and GF4 -/
theorem test_gf_reduction :
    gfMult 1 0x40000000000000000000000000000000#128 = 0xe1000000000000000000000000000000#128 ∧
    gfMult 1 1 = 0xe6080000000000000000000000000003#128 := by decide +kernel

/-- GF5 and GF7 -/
theorem test_gf_product :
    gfMult 0x66e94bd4ef8a2c3b884cfa59ca342b2e#128 0x66e94bd4ef8a2c3b884cfa59ca342b2e#128 =
      0xa569901bb4b18906f5059d24465c904d#128 ∧
    gfMult 0x0388dace60b6a392f328c2b971b2fe78#128 0x66e94bd4ef8a2c3b884cfa59ca342b2e#128 =
      0x5e2ec746917062882c85b0685353deb7#128 := by decide +kernel

/-- INC2 and INC3 -/
theorem test_inc32 :
    inc32 0x000000000000000000000000ffffffff#128 = 0 ∧
    inc32 0xffffffffffffffffffffffffffffffff#128 = 0xffffffffffffffffffffffff00000000#128 := by decide

/-- TC5: J0 of an 8-byte nonce goes through GHASH. -/
theorem test_j0_short_nonce :
    j0 0xb83b533708bf535d0aa6e52980d53b78#128 [0xca, 0xfe, 0xba, 0xbe, 0xfa, 0xce, 0xdb, 0xad] =
      0xc43a83c4c4badec4354ca984db252f7d#128 := by decide +kernel

/-- TC2's E: the hash subkey, E(J0) and E(inc32(J0)). -/
def tc2E (v : Block) : Block :=
  if v = 2 then 0x0388dace60b6a392f328c2b971b2fe78#128
  else twoPoints 0 0x66e94bd4ef8a2c3b884cfa59ca342b2e#128 1 0x58e2fccefa7e3061367f1d57a4e7455a#128 v

/-- TC2: sixteen zero bytes under an all-zero nonce, sealed. -/
theorem test_gcm_seal :
    gcmSeal tc2E (zeros 12) [] (zeros 16) =
      [0x03, 0x88, 0xda, 0xce, 0x60, 0xb6, 0xa3, 0x92, 0xf3, 0x28, 0xc2, 0xb9, 0x71, 0xb2, 0xfe, 0x78, 0xab, 0x6e, 0x47,
        0xd4, 0x2c, 0xec, 0x13, 0xbd, 0xf5, 0x3a, 0x67, 0xb2, 0x12, 0x57, 0xbd, 0xdf] := by
  decide +kernel

/-- TC1: with nothing to encrypt the tag is E(J0). -/
theorem test_gcm_empty :
    gcmSeal tc2E (zeros 12) [] [] = [0x58, 0xe2, 0xfc, 0xce, 0xfa, 0x7e, 0x30, 0x61, 0x36, 0x7f, 0x1d, 0x57, 0xa4, 0xe7,
      0x45, 0x5a] := by
  decide +kernel

/-! ### SHA-256 and HMAC (95 sections 1, 2.6, 2.7) -/

/-- S2, absorbed in two chunks. -/
theorem test_sha256_abc :
    digest (absorb (absorb .init [0x61]) [0x62, 0x63]) =
      [0xba, 0x78, 0x16, 0xbf, 0x8f, 0x01, 0xcf, 0xea, 0x41, 0x41, 0x40, 0xde, 0x5d, 0xae, 0x22, 0x23, 0xb0, 0x03, 0x61,
        0xa3, 0x96, 0x17, 0x7a, 0x9c, 0xb4, 0x10, 0xff, 0x61, 0xf2, 0x00, 0x15, 0xad] := by
  decide +kernel

/-- SH4: the padding needs a second block. -/
theorem test_sha256_two_blocks :
    sha256 (List.replicate 56 0x61) =
      [0xb3, 0x54, 0x39, 0xa4, 0xac, 0x6f, 0x09, 0x48, 0xb6, 0xd6, 0xf9, 0xe3, 0xc6, 0xaf, 0x0f, 0x5f, 0x59, 0x0c, 0xe2,
        0x0f, 0x1b, 0xde, 0x70, 0x90, 0xef, 0x79, 0x70, 0x68, 0x6e, 0xc6, 0x73, 0x8a] := by
  decide +kernel

/-- S3: the tag of RFC 4231 case 1. -/
def hm1 : List Byte :=
  [0xb0, 0x34, 0x4c, 0x61, 0xd8, 0xdb, 0x38, 0x53, 0x5c, 0xa8, 0xaf, 0xce, 0xaf, 0x0b, 0xf1, 0x2b, 0x88, 0x1d, 0xc2, 0x00,
    0xc9, 0x83, 0x3d, 0xa7, 0x26, 0xe9, 0x37, 0x6c, 0x2e, 0x32, 0xcf, 0xf7]

/-- HM1 -/
theorem test_hmac : hmac (List.replicate 20 0x0b) [0x48, 0x69, 0x20, 0x54, 0x68, 0x65, 0x72, 0x65] = hm1 := by decide +kernel

/-- HM1's context at the machine: the key at 0x200, the data at 0x300. -/
def hm1State : State :=
  { quiet with
    mem := memWrite (memWrite (memWrite [] 0x200 (List.replicate 20 0x0b)) 0x300
      [0x48, 0x69, 0x20, 0x54, 0x68, 0x65, 0x72, 0x65]) 0x400 hm1 }

/-- HMAC_INIT and HMAC_UPDATE of HM1. -/
def hm1Context : State :=
  after .hmacUpdate { after .hmacInit { hm1State with srcAddr := 0x200, srcLen := 20 } with srcAddr := 0x300, srcLen := 8 }

/-- HM1 through HMAC_FINAL: the 32 bytes at DST_ADDR. -/
theorem test_hmac_final : memRead (after .hmacFinal { hm1Context with dstAddr := 0x500 }).mem 0x500 32 = hm1 := by decide +kernel

/-- V1: the tag verifies; V3: 31 bytes are an InvalidLength and the context stays. -/
theorem test_hmac_verify :
    (after .hmacVerify { hm1Context with srcAddr := 0x400, srcLen := 32 }).verifyOk = true ∧
    (after .hmacVerify { hm1Context with srcAddr := 0x400, srcLen := 31 }).err = .invalidLength ∧
    (after .hmacVerify { hm1Context with srcAddr := 0x400, srcLen := 31 }).hmode = .hmac := by decide +kernel

/-- 44 R420's published vector with one iteration is not in the source; the host program refuses c = 0 itself. -/
theorem test_pbkdf2_parameters : pbkdf2 [0x70] [0x73] 0 20 = none ∧ pbkdf2 [0x70] [0x73] 1 0 = none := by decide

/-! ### Errors and their order (95 section 2.9) -/

/-- X5: SequenceError before BusError. -/
theorem test_sequence_before_bus : (after .shaUpdate { good with srcAddr := 0xFFF0, srcLen := 0x100 }).err = .sequenceError := by
  decide +kernel

/-- X6: InvalidKeyLength before MissingIV and InvalidLength. -/
theorem test_key_before_iv : (after (.cbcDec false) { good with keysz := 3, ivw := 0, srcLen := 5 }).err = .invalidKeyLength := by
  decide +kernel

/-- X7: MissingIV with three of the four words written. -/
theorem test_missing_iv : (after (.cbcEnc true) { good with ivw := 0b0111, srcLen := 5 }).err = .missingIv := by decide +kernel

/-- X9 and X10 -/
theorem test_gcm_lengths :
    (after .gcmDec { good with nonceLen := 0, srcLen := 4 }).err = .invalidNonceOrIvLength ∧
    (after .gcmDec { good with srcLen := 15 }).err = .invalidLength := by decide +kernel

/-- X14 and X22: invalid input ranges. -/
theorem test_bus_errors :
    (after (.cbcDec true) { good with srcAddr := 0xFFF0, srcLen := 32 }).err = .busError ∧
    (after .gcmEnc { good with aadAddr := 0xFFFFFFFF, aadLen := 2 }).err = .busError := by decide +kernel

/-- X20 and X21 -/
theorem test_sha_errors :
    (after .shaFinal { shaState with dstAddr := 0xFFFFFFF0 }).err = .busError ∧
    (after .shaFinal { shaState with dstAddr := 0xFFFFFFF0 }).hmode = .sha ∧
    (after .shaInit { good with keysz := 3 }).err = .ok := by decide +kernel

/-- X8 and X23 -/
theorem test_no_error :
    (after (.ecbEnc true) { good with ivw := 0 }).err = .ok ∧
    (after .gcmEnc { good with srcAddr := 0xFFFFFFF0, srcLen := 0 }).err = .ok := by decide +kernel

/-! ### Registers (95 section 2.8) -/

/-- Q1 -/
theorem test_reset_reads :
    regValue .id State.reset = 0x43430001 ∧ regValue .ctrl State.reset = 0 ∧ regValue .status State.reset = 0 ∧
    regValue .irqStatus State.reset = 0 ∧ regValue (.digest 0) State.reset = 0 := by decide

/-- Q2 -/
theorem test_ctrl_mask : regValue .ctrl (writeReg .ctrl 0xFFFFFFFF quiet) = 0x00000103 := by decide

/-- Q3: CLEAR after a loaded key and IV and an SHA_INIT. -/
theorem test_clear :
    regValue .status (after .clear { shaState with key := Vector.replicate 8 7, iv := Vector.replicate 4 9 }) = 0 ∧
    (after .clear { shaState with key := Vector.replicate 8 7 }).key = Vector.replicate 8 0 := by decide +kernel

/-- Q5: a write while busy is lost and sets OVR. -/
theorem test_write_while_busy :
    (writeReg .srcLen 5 (pending (.ecbEnc true))).ovr = true ∧ (writeReg .srcLen 5 (pending (.ecbEnc true))).srcLen = 16 := by
  decide +kernel

/-- A word placed for the next step is the command the step completes (30 R143, 40 R186). -/
theorem test_step_runs_placed_word : step (State.reset.withFetchWord 32 0x20) =
    .next (after .shaInit (awaitObservation .shaInit (launch 0x20 State.reset))) := by rfl

/-- 20 R111, 70 R501: a completed ECB_ENC, its output not yet observed: the host's store there is no move, and after a read of
STATUS it is. -/
theorem test_observation_ends_the_guard :
    let s := { good with unobserved := [footprint (.ecbEnc false) good] }
    (hostAct (.memWrite 0x100F [1]) s = .refused (.rangeInUse 0x100F)) ∧
    (hostAct (.memWrite 0x100F [1]) (readReg .status s) = .next (hostStore 0x100F [1] (readReg .status s))) := by
  exact ⟨by rfl, by rfl⟩

/-- 20 R110: on a non-coherent platform with a store to 0x20 not written back, CLEAR and a command on 0 .. 15 launch, and a
command on 0x20 does not; the bytes a command wrote at 0x1000 are not to be loaded yet, the next one is. -/
theorem test_cache_maintenance_is_per_byte :
    let s := { good with platform := .fixed [(0, 0x10000)] false, unflushed := [(0x20, 1)], uninvalidated := [(0x1000, 16)] }
    (hostAct (.regWrite 4 0x008 0x30) s = .next (launch 0x30 s)) ∧
    (hostAct (.regWrite 4 0x008 0x01) s = .next (launch 0x01 s)) ∧
    (hostAct (.regWrite 4 0x008 0x01) { s with srcAddr := 0x20 } = .refused .cacheNotMaintained) ∧
    (hostAct (.memRead 0x100F 1) s = .refused .cacheNotMaintained) ∧
    (hostAct (.memRead 0x1010 1) s = .next (hostLoad 0x1010 1 s)) := by
  exact ⟨by rfl, by rfl, by rfl, by rfl, by rfl⟩

/-! ### Witnesses: hypotheses of the statements, met by concrete states and operands -/

/-- A command launched, with the given turns to come. -/
def queued (i : Instr) (l : List Input) : State := { pending i with inputs := l }

theorem witness_StepRunsTheLatchedCommand :
    (pending .clear).busy = true ∧ decode (pending .clear).cmdLatch = .ok .clear ∧ (pending .clear).inputs = [] ∧
    (queued .clear [.engine]).inputs = .engine :: [] ∧ decode (BitVec.ofNat 32 (0x30 % 2 ^ 32)) = .ok .clear := by decide

theorem witness_IllegalWordCompletesWithIllegalCommand :
    (launch 0x200 good).busy = true ∧ decode (launch 0x200 good).cmdLatch = .error .reservedBits ∧
    decode (launch 0x00 good).cmdLatch = .error .unassignedOp ∧ decode (launch 0x110 good).cmdLatch = .error .finalNotAllowed ∧
    (launch 0x200 good).inputs = [] ∧ { launch 0x200 good with inputs := [.engine] }.inputs = .engine :: [] := by decide

theorem witness_StepTakesTheTurnThatIsListed :
    (good.busy = false ∧ good.inputs = []) ∧
    ({ good with inputs := [.engine] }.busy = false ∧ { good with inputs := [.engine] }.inputs = .engine :: []) ∧
    (queued .clear [.host .senseIrq]).inputs = .host .senseIrq :: [] ∧ (queued .clear [.reset]).inputs = .reset :: [] := by
  decide

theorem witness_ResetGivesEveryRegisterItsResetValue :
    (queued .clear [.reset]).inputs = .reset :: [] ∧ (queued .clear [.reset]).busy = true := by decide

/-- A pending command within the invariant, and its step. -/
theorem witness_StepKeepsTheInvariant :
    Sys2Proof.Inv (pending .shaInit) ∧ step (pending .shaInit) = .next (after .shaInit (awaitObservation .shaInit (pending .shaInit))) := by
  refine ⟨⟨⟨List.Pairwise.nil, fun c hc => absurd hc (by simp [pending, good, quiet, State.reset])⟩, ⟨by decide, by decide⟩,
    ⟨fun _ => rfl, fun _ => rfl⟩, fun _ => ⟨rfl, rfl, rfl⟩, ⟨by decide, by decide, by decide⟩⟩, rfl⟩

/-- A store just before the input range of ECB_ENC in `good` waits for its write-back; the launch is not hindered. -/
theorem witness_CmdWriteLaunchesWhenIdle :
    let s := { good with srcAddr := 1, unflushed := [(0, 1)] }
    s.busy = false ∧ decode 0x01 = .ok (.ecbEnc false) ∧ (pending .clear).busy = true ∧
    (∀ i, decode 0x01 = .ok i → ∀ r ∈ (s.dstAddr.toNat, outLength i s) :: inRanges i s, ∀ q ∈ s.unflushed,
      ∀ x, ¬ (within r x ∧ within q x)) := by
  refine ⟨by decide, by decide, by decide, fun i hi r hr q hq x => ?_⟩
  obtain rfl : Instr.ecbEnc false = i := Except.ok.inj hi
  obtain rfl := List.mem_singleton.mp hq
  simp only [inRanges, List.mem_cons, List.not_mem_nil, or_false] at hr
  have hd : good.dstAddr.toNat = 0x1000 := by decide
  have h1 : (1 : Word).toNat = 1 := by decide
  rcases hr with rfl | rfl <;> simp only [within] <;> omega

/-- Both ends of each range of writable registers. -/
theorem witness_WritesWhileBusyAreLost :
    (pending .clear).busy = true ∧ ∀ off ∈ [0x004, 0x008, 0x020, 0x038, 0x040, 0x06C],
      off % 4 = 0 ∧ (off = 0x004 ∨ off = 0x008 ∨ (0x020 ≤ off ∧ off ≤ 0x038) ∨ (0x040 ≤ off ∧ off ≤ 0x06C)) := by decide

/-- Both ends of each range of reserved, read-only and write-only offsets. -/
theorem witness_ReservedOffsetsIgnoreWritesAndReadZero :
    (∀ off ∈ [0x018, 0x01C, 0x03C, 0x070, 0x07C, 0x0A0, 0x0FC], off % 4 = 0 ∧
      (off = 0x018 ∨ off = 0x01C ∨ off = 0x03C ∨ (0x070 ≤ off ∧ off ≤ 0x07C) ∨ (0x0A0 ≤ off ∧ off ≤ 0x0FC))) ∧
    (∀ off ∈ [0x000, 0x00C, 0x014, 0x080, 0x09C], off % 4 = 0 ∧
      (off = 0x000 ∨ off = 0x00C ∨ off = 0x014 ∨ (0x080 ≤ off ∧ off ≤ 0x09C))) ∧
    (∀ off ∈ [0x008, 0x040, 0x05C], off % 4 = 0 ∧ (off = 0x008 ∨ (0x040 ≤ off ∧ off ≤ 0x05C))) := by decide

theorem witness_IdleWritesReadBackAndTouchNothingElse :
    good.busy = false ∧ (∀ r ∈ [Reg.srcAddr, .srcLen, .dstAddr, .aadAddr, .aadLen, .nonceAddr, .nonceLen, .iv 0, .iv 3],
      r ∈ [.srcAddr, .srcLen, .dstAddr, .aadAddr, .aadLen, .nonceAddr, .nonceLen, .iv 0, .iv 1, .iv 2, .iv 3]) ∧
    (∀ k : Fin 8, Reg.key k = .key k) := by decide

theorem witness_CtrlWriteReadsBackMasked : good.busy = false := by decide

/-- One step for each way KEY or IVW can change, and one that changes neither. -/
theorem witness_KeyAndIvwChangeOnlyByHostClearOrReset :
    (∃ t, step (queued .clear [.reset]) = .next t) ∧ (∃ t, step (pending .clear) = .next t) ∧
    (∃ t, step { good with inputs := [.host (.regWrite 4 0x05C 1)] } = .next t) ∧
    (∃ t, step { good with inputs := [.host (.regWrite 4 0x060 1)] } = .next t) ∧
    (∃ t, step (pending .shaInit) = .next t) :=
  ⟨⟨_, rfl⟩, ⟨_, rfl⟩, ⟨_, rfl⟩, ⟨_, rfl⟩, ⟨_, rfl⟩⟩

theorem witness_RegisterReadsRevealNoSecret :
    (∃ t, hostAct (.regRead 4 0x014) (pending .clear) = .next t) ∧ (∃ t, hostAct (.regRead 4 0x040) good = .next t) :=
  ⟨⟨_, rfl⟩, ⟨_, rfl⟩⟩

theorem witness_ReadsReturnValuesOrDrawnWords :
    good.busy = false ∧ (pending .clear).busy = true ∧
    (∀ off ∈ [0x014, 0x060, 0x06C, 0x080, 0x09C], off % 4 = 0 ∧ off < 0x100 ∧
      (off = 0x014 ∨ (0x060 ≤ off ∧ off ≤ 0x06C) ∨ (0x080 ≤ off ∧ off ≤ 0x09C))) ∧
    (∀ off ∈ [0x000, 0x010, 0x05C, 0x070, 0x07C, 0x0A0, 0x0FC], off % 4 = 0 ∧ off < 0x100 ∧
      ¬ (off = 0x014 ∨ (0x060 ≤ off ∧ off ≤ 0x06C) ∨ (0x080 ≤ off ∧ off ≤ 0x09C))) := by decide

theorem witness_InterruptFollowsDone : irq { good with irqEn := true, done := true } = true := by decide

theorem witness_HostMovesWithoutMeaningStop :
    (¬ (2 = 4 ∧ 0 % 4 = 0 ∧ 0 < 0x100)) ∧ (¬ (4 = 4 ∧ 2 % 4 = 0 ∧ 2 < 0x100)) ∧ (¬ (4 = 4 ∧ 0x100 % 4 = 0 ∧ 0x100 < 0x100)) ∧
    2 ^ 32 < (2 ^ 32 - 1) + [(0 : Byte), 0].length ∧ 2 ^ 32 < (2 ^ 32 - 1) + 2 ∧
    exec .clear good = .next (after .clear good) ∧ hostAct (.memWrite 0 [1]) good = .next (hostStore 0 [1] good) :=
  ⟨by decide, by decide, by decide, by decide, by decide, exec_next _ _, rfl⟩

/-- The last byte of ECB_ENC's input not yet written back; the last byte of memory not yet invalidated. -/
theorem witness_HostMovesWithoutMeaningStop_cache :
    let s := { good with unflushed := [(15, 1)], uninvalidated := [(2 ^ 32 - 1, 1)] }
    (s.busy = false ∧ decode 0x01 = .ok (.ecbEnc false) ∧ (0, 16) ∈ (s.dstAddr.toNat, 16) :: inRanges (.ecbEnc false) s ∧
      outLength (.ecbEnc false) s = 16 ∧ (15, 1) ∈ s.unflushed ∧ within (0, 16) 15 ∧ within (15, 1) 15) ∧
    ((2 ^ 32 - 1) + 1 ≤ 2 ^ 32 ∧ (2 ^ 32 - 1, 1) ∈ s.uninvalidated ∧ within (2 ^ 32 - 1, 1) (2 ^ 32 - 1) ∧
      ∀ f, guards s f → ¬ within f.output (2 ^ 32 - 1)) := by
  refine ⟨⟨by decide, by decide, by decide, by decide, by decide, by decide, by decide⟩, by decide, by decide, by decide, ?_⟩
  rintro f (h | ⟨h, _⟩)
  · exact absurd h List.not_mem_nil
  · exact absurd h (by decide)

/-- The ranges of ECB_ENC.F in `good`, (0x1000, 32) and (0, 16), pending or completed and not observed: their last bytes, and the
bytes just outside. -/
theorem witness_PendingRangesAreGuarded :
    let p := pending (.ecbEnc true)
    let c := { good with unobserved := [⟨[(0, 16)], (0x1000, 32)⟩] }
    ∀ s ∈ [p, c], 15 + [(0 : Byte)].length ≤ 2 ^ 32 ∧
      (∃ f, guards s f ∧ within f.output 0x101F ∧ ∃ r ∈ f.output :: f.inputs, ∃ x, within r x ∧ within (15, 1) x) ∧
      (∀ f, guards s f → ∀ r ∈ f.output :: f.inputs, ∀ x, within (0x1020, 1) x → ¬ within r x) ∧
      (∀ f, guards s f → ∀ r ∈ f.output :: f.inputs, ∀ x, within (16, 1) x → ¬ within r x) ∧
      (∀ f, guards s f → ¬ within f.output 0x1020) ∧ s.uninvalidated = [] := by
  have key : ∀ s, (∀ f, guards s f ↔ f = ⟨[(0, 16)], (0x1000, 32)⟩) → s.uninvalidated = [] → 15 + [(0 : Byte)].length ≤ 2 ^ 32 ∧
      (∃ f, guards s f ∧ within f.output 0x101F ∧ ∃ r ∈ f.output :: f.inputs, ∃ x, within r x ∧ within (15, 1) x) ∧
      (∀ f, guards s f → ∀ r ∈ f.output :: f.inputs, ∀ x, within (0x1020, 1) x → ¬ within r x) ∧
      (∀ f, guards s f → ∀ r ∈ f.output :: f.inputs, ∀ x, within (16, 1) x → ¬ within r x) ∧
      (∀ f, guards s f → ¬ within f.output 0x1020) ∧ s.uninvalidated = [] := by
    intro s hg hu
    refine ⟨by simp, ⟨⟨[(0, 16)], (0x1000, 32)⟩, (hg _).2 rfl, by decide, (0, 16), by simp, 15, by decide, by decide⟩,
      ?_, ?_, ?_, hu⟩
    · rintro f hf r hr x hx
      rw [hg] at hf
      subst hf
      simp only [List.mem_cons, List.not_mem_nil, or_false] at hr
      rcases hr with rfl | rfl <;> simp only [within] at * <;> omega
    · rintro f hf r hr x hx
      rw [hg] at hf
      subst hf
      simp only [List.mem_cons, List.not_mem_nil, or_false] at hr
      rcases hr with rfl | rfl <;> simp only [within] at * <;> omega
    · rintro f hf
      rw [hg] at hf
      subst hf
      decide
  intro p c s hs
  simp only [List.mem_cons, List.not_mem_nil, or_false] at hs
  rcases hs with rfl | rfl
  · refine key _ (fun f => ?_) rfl
    have hd : decode p.cmdLatch = .ok (.ecbEnc true) := by decide
    have hf : (⟨inRanges (.ecbEnc true) p, (p.dstAddr.toNat, outLength (.ecbEnc true) p)⟩ : Footprint) =
        ⟨[(0, 16)], (0x1000, 32)⟩ := by decide
    constructor
    · rintro (h | ⟨_, i, hi, rfl⟩)
      · exact absurd h (by simp [p, pending, good, quiet, State.reset])
      · obtain rfl : Instr.ecbEnc true = i := Except.ok.inj (hd.symm.trans hi)
        exact hf
    · rintro rfl
      exact .inr ⟨rfl, _, hd, hf.symm⟩
  · refine key _ (fun f => ?_) rfl
    constructor
    · rintro (h | ⟨h, _⟩)
      · exact List.mem_singleton.mp h
      · exact absurd h (by decide)
    · rintro rfl
      exact .inl (List.mem_singleton.mpr rfl)

/-- Nothing is guarded with BUSY = 0, nor with an Illegal word pending. -/
theorem witness_PendingRangesAreGuarded_none :
    good.busy = false ∧ good.unobserved = [] ∧ decode (launch 0x200 good).cmdLatch = .error .reservedBits ∧
    (launch 0x200 good).unobserved = [] ∧
    irq { good with irqEn := true, done := true, unobserved := [footprint .clear good] } = true := by decide

theorem witness_MemoryWritesExactlyItsBytes : Memory.wf [(5, 7), (9, 1)] := by decide

theorem witness_ErrorsChangeNothingElse :
    good.err = .ok ∧ exec .shaFinal good = .next (after .shaFinal good) ∧ (after .shaFinal good).err ≠ .ok := by
  exact ⟨by decide, exec_next _ _, by decide +kernel⟩

/-! #### Every command passes its checks somewhere -/

theorem checksPass_of {i : Instr} {s : State} (h1 : ¬ sequenceFails i s) (h2 : ¬ keyFails i s) (h3 : ¬ ivFails i s)
    (h4 : ¬ nonceFails i s) (h5 : ¬ lengthFails i s) (h6 : (inRanges i s).all (fun r => rangeOk s.platform r.1 r.2) = true)
    (h7 : i ≠ .ecbDec true ∧ i ≠ .cbcDec true) (h8 : rangeOk s.platform s.dstAddr.toNat (outLength i s) = true)
    (h9 : i ≠ .gcmDec) : checksPass i s := by
  refine ⟨h1, h2, h3, h4, h5, ?_, ?_, ?_, fun h => h9 h.1⟩
  · rintro ⟨r, hr, hf⟩
    have := List.all_eq_true.mp h6 r hr
    rw [hf] at this
    exact Bool.false_ne_true this
  · rintro (⟨h, _⟩ | ⟨h, _⟩)
    · exact h7.1 h
    · exact h7.2 h
  · intro h
    rw [outputFails, h8] at h
    exact Bool.false_ne_true h.symm

theorem witness_CommandsThatPassTheChecksComplete_modes (f : Bool) :
    checksPass (.ecbEnc f) good ∧ checksPass (.cbcEnc f) good ∧ checksPass (.cfbEnc f) good ∧ checksPass (.cfbDec f) good ∧
    checksPass (.ofbEnc f) good ∧ checksPass (.ofbDec f) good ∧ checksPass (.ctrEnc f) good ∧ checksPass (.ctrDec f) good := by
  cases f <;> refine ⟨?_, ?_, ?_, ?_, ?_, ?_, ?_, ?_⟩ <;>
    exact checksPass_of (by unfold sequenceFails; decide) (by unfold keyFails; decide) (by unfold ivFails; decide)
      (by unfold nonceFails; decide) (by unfold lengthFails; decide) (by decide) (by decide) (by decide) (by decide)

theorem witness_CommandsThatPassTheChecksComplete_others :
    checksPass (.ecbDec false) good ∧ checksPass (.cbcDec false) good ∧ checksPass .gcmEnc good ∧ checksPass .shaInit good ∧
    checksPass .shaUpdate shaState ∧ checksPass .shaFinal shaState ∧ checksPass .hmacInit good ∧
    checksPass .hmacUpdate hmacState ∧ checksPass .hmacFinal hmacState ∧ checksPass .hmacVerify hmacState ∧
    checksPass .clear good := by
  refine ⟨?_, ?_, ?_, ?_, ?_, ?_, ?_, ?_, ?_, ?_, ?_⟩ <;>
    exact checksPass_of (by unfold sequenceFails; decide) (by unfold keyFails; decide) (by unfold ivFails; decide)
      (by unfold nonceFails; decide) (by unfold lengthFails; decide) (by decide) (by decide) (by decide) (by decide)

/-- `good` with another memory. -/
def withMem (m : Memory) : State := { good with mem := m }

/-- The checks 3 to 7, and the ranges, look at the registers of `good` only. -/
theorem withMem_checks (m : Memory) :
    (withMem m).keysz = 0 ∧ (withMem m).ivw = 0b1111 ∧ srcN (withMem m) = 16 ∧ (withMem m).srcLen = 16 ∧
    srcOk (withMem m) = true ∧ aadOk (withMem m) = true ∧ nonceOk (withMem m) = true ∧ (withMem m).nonceLen = 12 :=
  ⟨rfl, rfl, rfl, rfl, rfl, rfl, rfl, rfl⟩

theorem withMem_output (m : Memory) (n : Nat) (h : dstOk good n = true) : dstOk (withMem m) n = true := h

theorem withMem_modeReady (m : Memory) : modeReady (withMem m) := by
  obtain ⟨h1, h2, _, _, h3, _⟩ := withMem_checks m
  exact ⟨by rw [h1]; decide, h2, h3⟩

theorem withMem_gcmReady (m : Memory) : gcmReady (withMem m) := by
  obtain ⟨h1, _, _, _, h3, h4, h5, h6⟩ := withMem_checks m
  exact ⟨by rw [h1]; decide, by rw [h6]; decide, h3, h4, h5⟩

theorem withMem_src (m : Memory) : srcBytes (withMem m) = memRead m 0 16 := rfl

theorem withMem_nonce (m : Memory) : nonceBytes (withMem m) = memRead m 0x100 12 := rfl

theorem withMem_cipherE (m : Memory) : cipherE (withMem m) = cipherE good := rfl

theorem withMem_cipherD (m : Memory) (b : Block) :
    cipherD (withMem m) b = (Config.blockCipher (cipherKey good)).symm b := rfl

theorem withMem_tag (m : Memory) : gcmDecTag (withMem m) = memRead m 0 16 := rfl

/-- A block stored at 0 is read back there. -/
theorem block_at_zero (b : Block) : memRead (memWrite [] 0 (ofBlock b)) 0 16 = ofBlock b := by
  have h := memRead_memWrite_self (m := []) List.Pairwise.nil 0 (ofBlock b)
  rw [ofBlock_length] at h
  exact h

/-- The memory that holds the encryption of a given block at 0. -/
def encMem (plain : Block) : Memory := memWrite [] 0 (ofBlock (Config.blockCipher (cipherKey good) plain))

/-- `good` with the encryption of a given block as input. -/
def decState (plain : Block) : State := withMem (encMem plain)

theorem decState_src (plain : Block) : srcBytes (decState plain) = ofBlock (Config.blockCipher (cipherKey good) plain) := by
  rw [decState, withMem_src, encMem, block_at_zero]

theorem decState_blocks (plain : Block) :
    blocks (srcBytes (decState plain)) = [ofBlock (Config.blockCipher (cipherKey good) plain)] := by
  rw [decState_src]
  generalize Config.blockCipher (cipherKey good) plain = b
  exact blocks_short (fun h => absurd (congrArg List.length h) (by rw [ofBlock_length]; simp)) (by rw [ofBlock_length])

/-- ECB_DEC decrypts the block. -/
theorem decState_ecb (plain : Block) : ecb (cipherD (decState plain)) (blocks (srcBytes (decState plain))) = ofBlock plain := by
  rw [decState_blocks]
  simp only [ecb, List.flatMap_cons, List.flatMap_nil, List.append_nil, toBlock_ofBlock]
  rw [decState, withMem_cipherD, Equiv.symm_apply_apply]

/-- CBC_DEC decrypts the block, the IV being zero. -/
theorem decState_cbc (plain : Block) :
    (cbcDecrypt (cipherD (decState plain)) (ivBlock (decState plain)) (blocks (srcBytes (decState plain)))).1 = ofBlock plain := by
  have hz : ivBlock (decState plain) = 0 := by
    have h : ∀ m, ivBlock (withMem m) = ivBlock good := fun _ => rfl
    rw [decState, h]
    decide
  rw [decState_blocks, hz]
  simp only [cbcDecrypt, List.append_nil, toBlock_ofBlock]
  rw [xor_zero_block, decState, withMem_cipherD, Equiv.symm_apply_apply]

/-- A block of fifteen bytes 41 and the pad byte 01 (Y5). -/
def padBlock : Block := 0x41414141414141414141414141414101#128

theorem padBlock_ends : endsInPad (ofBlock padBlock) 1 := by
  have h : ofBlock padBlock = List.replicate 15 0x41 ++ [0x01] := by decide
  refine ⟨by omega, by omega, by simp, fun j h1 h2 => ?_⟩
  rw [ofBlock_length] at h1 h2
  rw [show j = 15 by omega, h]
  rfl

theorem zeroBlock_ends_not (p : Nat) : ¬ endsInPad (ofBlock 0) p := by
  rintro ⟨h1, h2, _, h4⟩
  have h := h4 15 (by rw [ofBlock_length]; omega) (by rw [ofBlock_length]; omega)
  rw [show (ofBlock (0 : Block)).getD 15 0 = 0 by decide] at h
  have := congrArg BitVec.toNat h
  rw [toNat_padByte h2] at this
  have : p = 0 := this.symm
  omega

theorem decState_ecb_length : outLength (.ecbDec true) (decState padBlock) = 15 := by
  have h : planOf (.ecbDec true) (decState padBlock) = .ok ⟨(ofBlock padBlock).take 15, true, decState padBlock⟩ := by
    simp only [planOf, planEcbDec, modeChecks_ok]
    obtain ⟨h1, _, h3, _, h5, _⟩ := withMem_checks (encMem padBlock)
    refine ⟨(keyOk_iff _).mpr (by rw [decState, h1]; decide), by decide, by rw [decState, h3]; decide, h5, ?_⟩
    rw [decState_ecb, unpadIf, if_pos rfl, unpad_eq_some padBlock_ends.1 padBlock_ends.2.1 padBlock_ends.2.2.1 padBlock_ends.2.2.2,
      ofBlock_length]
    rfl
  rw [← planOf_length h]
  simp

theorem decState_cbc_length : outLength (.cbcDec true) (decState padBlock) = 15 := by
  have h : planOf (.cbcDec true) (decState padBlock) = .ok ⟨(ofBlock padBlock).take 15, true,
      setIv (cbcDecrypt (cipherD (decState padBlock)) (ivBlock (decState padBlock)) (blocks (srcBytes (decState padBlock)))).2
        (decState padBlock)⟩ := by
    simp only [planOf, planCbcDec, modeChecks_ok]
    obtain ⟨h1, h2, h3, _, h5, _⟩ := withMem_checks (encMem padBlock)
    refine ⟨(keyOk_iff _).mpr (by rw [decState, h1]; decide), fun _ => (ivValid_iff _).mpr h2, by rw [decState, h3]; decide,
      h5, ?_⟩
    rw [decState_cbc, unpadIf, if_pos rfl, unpad_eq_some padBlock_ends.1 padBlock_ends.2.1 padBlock_ends.2.2.1 padBlock_ends.2.2.2,
      ofBlock_length]
    rfl
  rw [← planOf_length h]
  simp

/-- What the checks 2 to 7 ask of `decState`. -/
theorem decState_passes_to_7 (plain : Block) (i : Instr) (hi : i = .ecbDec true ∨ i = .cbcDec true) :
    ¬ sequenceFails i (decState plain) ∧ ¬ keyFails i (decState plain) ∧ ¬ ivFails i (decState plain) ∧
    ¬ nonceFails i (decState plain) ∧ ¬ lengthFails i (decState plain) ∧ ¬ inputFails i (decState plain) := by
  obtain ⟨h1, h2, _, h4, hs, _⟩ := withMem_checks (encMem plain)
  have hl : ¬ ((decState plain).srcLen.toNat % 16 ≠ 0 ∨ (true = true ∧ (decState plain).srcLen.toNat < 16)) := by
    rw [decState, h4]
    decide
  have hin : ¬ inputFails i (decState plain) := by
    rintro ⟨r, hr, hf⟩
    have h : r = ((decState plain).srcAddr.toNat, (decState plain).srcLen.toNat) := by
      rcases hi with rfl | rfl <;> exact List.mem_singleton.mp hr
    rw [h] at hf
    exact Bool.false_ne_true (hf.symm.trans hs)
  refine ⟨?_, fun h => ?_, fun h => h.2.2 h2, ?_, ?_, hin⟩
  · rcases hi with rfl | rfl <;> simp [sequenceFails]
  · have := h.2
    rw [decState, h1] at this
    exact absurd this (by decide)
  · rcases hi with rfl | rfl <;> simp [nonceFails]
  · rcases hi with rfl | rfl <;> exact hl

/-- The output range of both is (0x1000, 15). -/
theorem decState_output : rangeOk (decState padBlock).platform (decState padBlock).dstAddr.toNat 15 = true :=
  withMem_output (encMem padBlock) 15 (by decide)

/-- The two commands that unpad. -/
theorem witness_CommandsThatPassTheChecksComplete_unpad :
    checksPass (.ecbDec true) (decState padBlock) ∧ checksPass (.cbcDec true) (decState padBlock) := by
  constructor
  · obtain ⟨h1, h2, h3, h4, h5, h6⟩ := decState_passes_to_7 padBlock (.ecbDec true) (.inl rfl)
    refine ⟨h1, h2, h3, h4, h5, h6, ?_, ?_, by simp [tagFails]⟩
    · rintro (⟨_, h⟩ | ⟨h, _⟩)
      · exact h 1 (by rw [decState_ecb]; exact padBlock_ends)
      · exact absurd h (by decide)
    · rw [outputFails, decState_ecb_length, decState_output]
      decide
  · obtain ⟨h1, h2, h3, h4, h5, h6⟩ := decState_passes_to_7 padBlock (.cbcDec true) (.inr rfl)
    refine ⟨h1, h2, h3, h4, h5, h6, ?_, ?_, by simp [tagFails]⟩
    · rintro (⟨h, _⟩ | ⟨_, h⟩)
      · exact absurd h (by decide)
      · exact h 1 (by rw [decState_cbc]; exact padBlock_ends)
    · rw [outputFails, decState_cbc_length, decState_output]
      decide

/-- The tag of the empty message under `good`'s key and nonce. -/
def emptyTag : Block := toBlock (gcmTag (cipherE good) (nonceBytes good) [] [])

/-- `good` with a 16-byte tag as the whole input of GCM_DEC. -/
def tagState (tag : Block) : State := withMem (memWrite [] 0 (ofBlock tag))

theorem tagState_tag (tag : Block) : gcmDecTag (tagState tag) = ofBlock tag := by
  rw [tagState, withMem_tag, block_at_zero]

theorem tagState_nonce (tag : Block) : nonceBytes (tagState tag) = nonceBytes good := by
  rw [tagState, withMem_nonce]
  exact memRead_memWrite_disjoint (m := []) (fun x h1 h2 => by rw [ofBlock_length]; omega)

theorem tagState_computed (tag : Block) :
    gcmTag (cipherE (tagState tag)) (nonceBytes (tagState tag)) (aadBytes (tagState tag)) (gcmDecText (tagState tag)) =
      ofBlock emptyTag := by
  have ha : ∀ m, aadBytes (withMem m) = [] := fun _ => rfl
  have ht : ∀ m, gcmDecText (withMem m) = [] := fun _ => rfl
  rw [tagState_nonce, tagState, ha, ht, withMem_cipherE, emptyTag, ofBlock_toBlock (gcmTag_length ..)]

/-- What the checks 2 to 9 ask of `tagState`. -/
theorem tagState_passes_to_9 (tag : Block) :
    ¬ sequenceFails .gcmDec (tagState tag) ∧ ¬ keyFails .gcmDec (tagState tag) ∧ ¬ ivFails .gcmDec (tagState tag) ∧
    ¬ nonceFails .gcmDec (tagState tag) ∧ ¬ lengthFails .gcmDec (tagState tag) ∧ ¬ inputFails .gcmDec (tagState tag) ∧
    ¬ paddingFails .gcmDec (tagState tag) ∧ ¬ outputFails .gcmDec (tagState tag) := by
  have h := withMem_gcmReady (memWrite [] 0 (ofBlock tag))
  obtain ⟨h1, _, h3, h4, h5, h6, h7, h8⟩ := withMem_checks (memWrite [] 0 (ofBlock tag))
  refine ⟨by simp [sequenceFails], fun hk => h.1 hk.2, fun hv => absurd hv.2.1 (by decide), fun hn => h.2.1 hn.2, ?_, ?_,
    by simp [paddingFails], ?_⟩
  · show ¬ (tagState tag).srcLen.toNat < 16
    rw [tagState, h4]
    decide
  · rintro ⟨r, hr, hf⟩
    simp only [inRanges, List.mem_cons, List.not_mem_nil, or_false] at hr
    rcases hr with rfl | rfl | rfl
    · exact Bool.false_ne_true (hf.symm.trans h5)
    · exact Bool.false_ne_true (hf.symm.trans h6)
    · exact Bool.false_ne_true (hf.symm.trans h7)
  · intro hf
    have ho : outLength .gcmDec (tagState tag) = 0 := by
      show srcN (tagState tag) - 16 = 0
      rw [tagState, h3]
    rw [outputFails, ho, rangeOk_zero] at hf
    exact Bool.false_ne_true hf.symm

theorem witness_CommandsThatPassTheChecksComplete_gcmDec : checksPass .gcmDec (tagState emptyTag) := by
  obtain ⟨h1, h2, h3, h4, h5, h6, h7, h8⟩ := tagState_passes_to_9 emptyTag
  refine ⟨h1, h2, h3, h4, h5, h6, h7, h8, ?_⟩
  rintro ⟨_, h⟩
  exact h (by rw [tagState_tag, tagState_computed])

/-- The tag with every bit turned is not the tag. -/
theorem turned_ne (b : Block) : ofBlock (~~~b) ≠ ofBlock b := by
  intro h
  have h0 := congrArg (fun v : Block => v.getLsbD 0) (ofBlock_injective h)
  simp at h0

/-! #### The check order: each of the ten clauses -/

theorem witness_ChecksAreTriedInOrder_1_to_7 :
    decode (launch 0x200 good).cmdLatch = .error .reservedBits ∧
    sequenceFails .shaUpdate good ∧
    (¬ sequenceFails (.ecbEnc true) { good with keysz := 3 } ∧ keyFails (.ecbEnc true) { good with keysz := 3 }) ∧
    (¬ sequenceFails (.cbcEnc true) { good with ivw := 7 } ∧ ¬ keyFails (.cbcEnc true) { good with ivw := 7 } ∧
      ivFails (.cbcEnc true) { good with ivw := 7 }) ∧
    (¬ sequenceFails .gcmDec { good with nonceLen := 0 } ∧ ¬ keyFails .gcmDec { good with nonceLen := 0 } ∧
      ¬ ivFails .gcmDec { good with nonceLen := 0 } ∧ nonceFails .gcmDec { good with nonceLen := 0 }) ∧
    (¬ sequenceFails .gcmDec { good with srcLen := 15 } ∧ ¬ keyFails .gcmDec { good with srcLen := 15 } ∧
      ¬ ivFails .gcmDec { good with srcLen := 15 } ∧ ¬ nonceFails .gcmDec { good with srcLen := 15 } ∧
      lengthFails .gcmDec { good with srcLen := 15 }) ∧
    (¬ sequenceFails (.ecbEnc true) { good with srcAddr := 0xFFF1 } ∧ ¬ keyFails (.ecbEnc true) { good with srcAddr := 0xFFF1 } ∧
      ¬ ivFails (.ecbEnc true) { good with srcAddr := 0xFFF1 } ∧ ¬ nonceFails (.ecbEnc true) { good with srcAddr := 0xFFF1 } ∧
      ¬ lengthFails (.ecbEnc true) { good with srcAddr := 0xFFF1 } ∧ inputFails (.ecbEnc true) { good with srcAddr := 0xFFF1 }) := by
  refine ⟨by decide, ?_, ?_, ?_, ?_, ?_, ?_⟩
  · unfold sequenceFails; decide
  · unfold sequenceFails keyFails; decide
  · unfold sequenceFails keyFails ivFails; decide
  · unfold sequenceFails keyFails ivFails nonceFails; decide
  · unfold sequenceFails keyFails ivFails nonceFails lengthFails; decide
  · refine ⟨?_, ?_, ?_, ?_, ?_, (0xFFF1, 16), List.mem_singleton.mpr rfl, by decide⟩
    · unfold sequenceFails; decide
    · unfold keyFails; decide
    · unfold ivFails; decide
    · unfold nonceFails; decide
    · unfold lengthFails; decide

/-- Step 8 (X15's plaintext), with everything before it passed. -/
theorem witness_ChecksAreTriedInOrder_8 :
    let s := decState 0
    ¬ sequenceFails (.ecbDec true) s ∧ ¬ keyFails (.ecbDec true) s ∧ ¬ ivFails (.ecbDec true) s ∧
    ¬ nonceFails (.ecbDec true) s ∧ ¬ lengthFails (.ecbDec true) s ∧ ¬ inputFails (.ecbDec true) s ∧
    paddingFails (.ecbDec true) s := by
  obtain ⟨h1, h2, h3, h4, h5, h6⟩ := decState_passes_to_7 0 (.ecbDec true) (.inl rfl)
  exact ⟨h1, h2, h3, h4, h5, h6, .inl ⟨rfl, fun p => by rw [decState_ecb]; exact zeroBlock_ends_not p⟩⟩

/-- Step 9: an output range past the end of memory. -/
theorem witness_ChecksAreTriedInOrder_9 :
    let s := { good with dstAddr := 0xFFF1 }
    ¬ sequenceFails (.ecbEnc false) s ∧ ¬ keyFails (.ecbEnc false) s ∧ ¬ ivFails (.ecbEnc false) s ∧
    ¬ nonceFails (.ecbEnc false) s ∧ ¬ lengthFails (.ecbEnc false) s ∧ ¬ inputFails (.ecbEnc false) s ∧
    ¬ paddingFails (.ecbEnc false) s ∧ outputFails (.ecbEnc false) s := by
  refine ⟨by unfold sequenceFails; decide, by unfold keyFails; decide, by unfold ivFails; decide,
    by unfold nonceFails; decide, by unfold lengthFails; decide, ?_, by simp [paddingFails], by unfold outputFails; decide⟩
  rintro ⟨r, hr, hf⟩
  obtain rfl := List.mem_singleton.mp hr
  exact absurd hf (by decide)

/-- Step 10: a wrong tag, with everything before it passed. -/
theorem witness_ChecksAreTriedInOrder_10 :
    let s := tagState (~~~emptyTag)
    ¬ sequenceFails .gcmDec s ∧ ¬ keyFails .gcmDec s ∧ ¬ ivFails .gcmDec s ∧ ¬ nonceFails .gcmDec s ∧ ¬ lengthFails .gcmDec s ∧
    ¬ inputFails .gcmDec s ∧ ¬ paddingFails .gcmDec s ∧ ¬ outputFails .gcmDec s ∧ tagFails .gcmDec s := by
  obtain ⟨h1, h2, h3, h4, h5, h6, h7, h8⟩ := tagState_passes_to_9 (~~~emptyTag)
  refine ⟨h1, h2, h3, h4, h5, h6, h7, h8, rfl, ?_⟩
  rw [tagState_tag, tagState_computed]
  exact turned_ne _

/-- Every command answers a next state in `good`; the byte before the output range lies outside it. -/
theorem witness_OutputStaysInItsRange_and_CommandsKeepTheirFrame (i : Instr) :
    exec i good = .next (after i good) ∧ ¬ (good.dstAddr.toNat ≤ 0x0FFF ∧ 0x0FFF < good.dstAddr.toNat + outLength i good) :=
  ⟨exec_next _ _, fun h => absurd h.1 (by decide)⟩

theorem witness_KeyAndIvAreBigEndian :
    good.keysz = 0 ∧ { good with keysz := 1 }.keysz = 1 ∧ { good with keysz := 2 }.keysz = 2 ∧
    4 * (3 : Fin 8).val + 3 < (cipherKey good).length ∧ 4 * (5 : Fin 8).val + 3 < (cipherKey { good with keysz := 1 }).length ∧
    4 * (7 : Fin 8).val + 3 < (cipherKey { good with keysz := 2 }).length := by decide

/-! #### The mode commands -/

theorem witness_EcbEncEncryptsEachBlock :
    good.keysz ≠ 3 ∧ srcOk good = true ∧ (∀ f, ¬ lengthFails (.ecbEnc f) good) ∧
    dstOk good (padded (srcBytes good)).length = true ∧ dstOk good (srcBytes good).length = true := by
  refine ⟨by decide, by decide, fun f => ?_, by decide +kernel, by decide +kernel⟩
  cases f <;> (unfold lengthFails; decide)

/-- Good padding, bad padding, and no padding asked. -/
theorem witness_EcbDecDecryptsEachBlock :
    (decState padBlock).keysz ≠ 3 ∧ srcOk (decState padBlock) = true ∧ srcN (decState padBlock) % 16 = 0 ∧
    dstOk (decState padBlock) (srcN (decState padBlock)) = true ∧ 16 ≤ srcN (decState padBlock) ∧
    endsInPad (ecb (cipherD (decState padBlock)) (blocks (srcBytes (decState padBlock)))) 1 ∧
    dstOk (decState padBlock) (srcN (decState padBlock) - 1) = true ∧
    (∀ p, ¬ endsInPad (ecb (cipherD (decState 0)) (blocks (srcBytes (decState 0)))) p) := by
  obtain ⟨_, _, h3, _⟩ := withMem_checks (encMem padBlock)
  have h := withMem_modeReady (encMem padBlock)
  have hn : srcN (decState padBlock) = 16 := h3
  rw [hn]
  refine ⟨h.1, h.2.2, by omega, withMem_output _ 16 (by decide), by omega, by rw [decState_ecb]; exact padBlock_ends,
    withMem_output _ 15 (by decide), fun p => ?_⟩
  rw [decState_ecb]
  exact zeroBlock_ends_not p

theorem witness_CbcEncChainsCiphertext :
    modeReady good ∧ (∀ f, ¬ lengthFails (.cbcEnc f) good) ∧ dstOk good (padded (srcBytes good)).length = true ∧
    dstOk good (srcBytes good).length = true := by
  refine ⟨⟨by decide, by decide, by decide⟩, fun f => ?_, by decide +kernel, by decide +kernel⟩
  cases f <;> (unfold lengthFails; decide)

theorem witness_CbcDecChainsCiphertext :
    modeReady (decState padBlock) ∧ srcN (decState padBlock) % 16 = 0 ∧ 16 ≤ srcN (decState padBlock) ∧
    dstOk (decState padBlock) (srcN (decState padBlock)) = true ∧
    endsInPad (cbcDecrypt (cipherD (decState padBlock)) (ivBlock (decState padBlock)) (blocks (srcBytes (decState padBlock)))).1 1 ∧
    dstOk (decState padBlock) (srcN (decState padBlock) - 1) = true ∧
    (∀ p, ¬ endsInPad (cbcDecrypt (cipherD (decState 0)) (ivBlock (decState 0)) (blocks (srcBytes (decState 0)))).1 p) := by
  obtain ⟨_, _, h3, _⟩ := withMem_checks (encMem padBlock)
  have hn : srcN (decState padBlock) = 16 := h3
  rw [hn]
  refine ⟨withMem_modeReady _, by omega, by omega, withMem_output _ 16 (by decide), by rw [decState_cbc]; exact padBlock_ends,
    withMem_output _ 15 (by decide), fun p => ?_⟩
  rw [decState_cbc]
  exact zeroBlock_ends_not p

/-- A whole block with FINAL = 0, 17 bytes with FINAL = 1. -/
theorem witness_CfbEncFeedsBackCiphertext_CfbDecFeedsBackInput_OfbXorsIteratedKeystream_CtrXorsCounterKeystream :
    modeReady good ∧ (false = false → srcN good % 16 = 0) ∧ dstOk good (srcN good) = true ∧
    modeReady { good with srcLen := 17 } ∧ (true = false → srcN { good with srcLen := 17 } % 16 = 0) ∧
    dstOk { good with srcLen := 17 } (srcN { good with srcLen := 17 }) = true := by
  exact ⟨⟨by decide, by decide, by decide⟩, by decide, by decide, ⟨by decide, by decide, by decide⟩, by decide, by decide⟩

/-- `good` with 17 bytes. -/
def good17 : State := { good with srcLen := 17 }

/-- CTR on 17 bytes, whole and as 16 + 1. -/
theorem witness_SegmentsComposeToTheWholeMessage :
    let s1 := after (.ctrEnc false) { good17 with srcLen := BitVec.ofNat 32 16 }
    let s2 := { s1 with
      srcAddr := good17.srcAddr + BitVec.ofNat 32 16, srcLen := BitVec.ofNat 32 (srcN good17 - 16)
      dstAddr := good17.dstAddr + BitVec.ofNat 32 16 }
    (Instr.ctrEnc, Instr.ctrDec) ∈ modePairs ∧ good17.err = .ok ∧ 16 ≤ srcN good17 ∧
    (∀ j, 16 ≤ j → j < srcN good17 →
      ¬ (good17.dstAddr.toNat ≤ good17.srcAddr.toNat + j ∧ good17.srcAddr.toNat + j < good17.dstAddr.toNat + 16)) ∧
    exec (.ctrEnc true) good17 = .next (after (.ctrEnc true) good17) ∧ (after (.ctrEnc true) good17).err = .ok ∧
    exec (.ctrEnc false) { good17 with srcLen := BitVec.ofNat 32 16 } = .next s1 ∧ s1.err = .ok ∧
    exec (.ctrEnc true) s2 = .next (after (.ctrEnc true) s2) ∧ (after (.ctrEnc true) s2).err = .ok := by
  refine ⟨by simp [modePairs], by decide, by decide, fun j h1 h2 => ?_, exec_next _ _, by rfl, exec_next _ _, by rfl,
    exec_next _ _, by rfl⟩
  have hn : srcN good17 = 17 := by decide
  have hd : good17.dstAddr.toNat = 0x1000 := by decide
  have hs : good17.srcAddr.toNat = 0 := by decide
  omega

theorem witness_ModesDecryptWhatTheyEncrypted_and_OfbAndCtrUndoThemselves :
    (∀ p ∈ modePairs, exec (p.1 true) good17 = .next (after (p.1 true) good17) ∧ (after (p.1 true) good17).err = .ok) ∧
    exec (.ofbEnc false) good = .next (after (.ofbEnc false) good) ∧ (after (.ofbEnc false) good).err = .ok ∧
    Memory.wf good17.mem ∧ good17.err = .ok ∧ rangeOk good17.platform (0x2000 : Word).toNat (srcN good17) = true := by
  refine ⟨?_, exec_next _ _, by rfl, by decide, by decide, by decide⟩
  intro p hp
  simp only [modePairs, List.mem_cons, List.not_mem_nil, or_false] at hp
  rcases hp with rfl | rfl | rfl | rfl | rfl <;> exact ⟨exec_next _ _, by rfl⟩

/-! #### GCM -/

theorem witness_GhashIsThePolynomialInH : ([] : List Byte).length < 2 ^ 32 ∧ (zeros 17).length < 2 ^ 32 := by decide

theorem witness_GcmEncWritesCiphertextAndTag :
    gcmReady good ∧ srcN good + 16 ≤ 2 ^ 32 - 1 ∧ dstOk good (srcN good + 16) = true := by
  exact ⟨⟨by decide, by decide, by decide, by decide, by decide⟩, by decide, by decide⟩

/-- The right tag and a wrong one, on the empty message. -/
theorem witness_GcmDecChecksTheTagBeforeOutput :
    (∀ tag, gcmReady (tagState tag) ∧ 16 ≤ srcN (tagState tag) ∧ dstOk (tagState tag) (srcN (tagState tag) - 16) = true) ∧
    gcmDecTag (tagState emptyTag) = gcmTag (cipherE (tagState emptyTag)) (nonceBytes (tagState emptyTag))
      (aadBytes (tagState emptyTag)) (gcmDecText (tagState emptyTag)) ∧
    gcmDecTag (tagState (~~~emptyTag)) ≠ gcmTag (cipherE (tagState (~~~emptyTag))) (nonceBytes (tagState (~~~emptyTag)))
      (aadBytes (tagState (~~~emptyTag))) (gcmDecText (tagState (~~~emptyTag))) := by
  refine ⟨fun tag => ⟨withMem_gcmReady _, ?_, ?_⟩, ?_, ?_⟩
  · rw [tagState, (withMem_checks _).2.2.1]
  · rw [tagState, (withMem_checks _).2.2.1]
    exact withMem_output _ 0 (by decide)
  · rw [tagState_tag, tagState_computed]
  · rw [tagState_tag, tagState_computed]
    exact turned_ne _

/-- GCM_ENC of 16 bytes to 0x1000: the nonce at 0x100 and the (empty) AAD are untouched, and a changed tag stays clear of them. -/
theorem witness_GcmDecryptsWhatItEncrypted_and_GcmDetectsEveryTagChange :
    let t := after .gcmEnc good
    let bad := ofBlock (~~~toBlock (memRead t.mem (good.dstAddr.toNat + srcN good) 16))
    Memory.wf good.mem ∧ good.err = .ok ∧ exec .gcmEnc good = .next t ∧ t.err = .ok ∧ aadBytes t = aadBytes good ∧
    nonceBytes t = nonceBytes good ∧ rangeOk good.platform (0x2000 : Word).toNat (srcN good) = true ∧
    bad.length = 16 ∧ bad ≠ memRead t.mem (good.dstAddr.toNat + srcN good) 16 ∧
    nonceBytes { t with mem := memWrite t.mem (good.dstAddr.toNat + srcN good) bad } = nonceBytes good := by
  have hn : nonceBytes (after .gcmEnc good) = nonceBytes good := by
    rcases exec_cases (exec_next .gcmEnc good) with ⟨e, _, _, h⟩ | ⟨q, hq, _, _, ha, h⟩
    · have h : after .gcmEnc good = finish (raiseError e good) := h
      rw [h]
      rfl
    · have ha : q.after = good := ha
      have h : after .gcmEnc good = finish (writeOut q.out q.after) := h
      rw [h, ha]
      exact memRead_memWrite_disjoint (m := good.mem) (a := 0x1000) (c := 0x100) (n := 12) (bs := q.out)
        (fun x h1 h2 => by omega)
  refine ⟨by decide, by decide, exec_next _ _, by rfl, rfl, hn, by decide, by simp, ?_, ?_⟩
  · intro h
    have := turned_ne (toBlock (memRead (after .gcmEnc good).mem (good.dstAddr.toNat + srcN good) 16))
    rw [ofBlock_toBlock (memRead_length ..)] at this
    exact this h
  · rw [← hn]
    have ha : (after .gcmEnc good).nonceAddr.toNat = 0x100 := by rfl
    have hl : (after .gcmEnc good).nonceLen.toNat = 12 := by rfl
    have hd : good.dstAddr.toNat + srcN good = 0x1010 := by decide
    refine memRead_memWrite_disjoint fun x h1 h2 => ?_
    rw [hd]
    rw [ha, hl] at h2
    omega

/-! #### SHA-256 and HMAC -/

theorem witness_ScheduleFollowsTheRecurrence_and_CompressionRunsSixtyFourRounds : (zeros 64).length = 64 := by decide

theorem witness_ShaInitAndUpdateDriveTheContext :
    shaState.hmode = .sha ∧ shaState.hs.bitlen.toNat + 8 * srcN shaState ≤ 2 ^ 64 - 1 ∧ srcOk shaState = true := by decide

/-- A buffer of 55 bytes and one of 56: one padded block and two. -/
theorem witness_ShaFinalWritesTheDigest :
    ∀ k ∈ [0, 55, 56, 63], { shaState with hs := ⟨initialHash, zeros k, BitVec.ofNat 64 (8 * k)⟩ }.hmode = .sha ∧
      hashBufferInv { shaState with hs := ⟨initialHash, zeros k, BitVec.ofNat 64 (8 * k)⟩ } ∧
      dstOk { shaState with hs := ⟨initialHash, zeros k, BitVec.ofNat 64 (8 * k)⟩ } 32 = true := by
  intro k hk
  simp only [List.mem_cons, List.not_mem_nil, or_false] at hk
  rcases hk with rfl | rfl | rfl | rfl <;> exact ⟨by decide, ⟨by decide, by decide⟩, by decide⟩

/-- Two chunks, (0, 1) and (1, 70). -/
def chunks : List (Word × Word) := [(0, 1), (1, 70)]

theorem witness_ShaOfChunksIsShaOfTheWhole :
    Memory.wf good.mem ∧ good.err = .ok ∧ exec .shaInit good = .next (after .shaInit good) ∧
    ∃ t, feed .shaUpdate chunks (after .shaInit good) = some t ∧ exec .shaFinal t = .next (after .shaFinal t) ∧
      (after .shaFinal t).err = .ok := by
  refine ⟨by decide, by decide, exec_next _ _, ?_⟩
  have h : (feed .shaUpdate chunks (after .shaInit good)).any (fun t => (after .shaFinal t).err == .ok) = true := by decide +kernel
  cases hf : feed .shaUpdate chunks (after .shaInit good) with
  | none => rw [hf] at h; exact absurd h (by simp)
  | some t => rw [hf] at h; exact ⟨t, rfl, exec_next _ _, by simpa using h⟩

theorem witness_HmacKeyIsPreprocessed : (zeros 64).length ≤ 64 ∧ 64 < (zeros 65).length := by decide

theorem witness_HmacInitAndUpdateDriveTheContext :
    srcOk good = true ∧ srcOk hmacState = true ∧ hmacState.hmode = .hmac ∧
    hmacState.hs.bitlen.toNat + 8 * srcN hmacState ≤ 2 ^ 64 - 1 := by decide

theorem witness_HmacFinalWritesTheTag : hmacState.hmode = .hmac ∧ dstOk hmacState 32 = true := by decide

theorem witness_HmacVerifyComparesTheTag : hmacState.hmode = .hmac ∧ srcN hmacState = 32 ∧ srcOk hmacState = true := by decide

theorem witness_HmacSequenceComputesHmac :
    Memory.wf good.mem ∧ good.err = .ok ∧ exec .hmacInit good = .next (after .hmacInit good) ∧ (after .hmacInit good).err = .ok ∧
    ∃ t, feed .hmacUpdate chunks (after .hmacInit good) = some t ∧ exec .hmacFinal t = .next (after .hmacFinal t) ∧
      (after .hmacFinal t).err = .ok ∧
      exec .hmacVerify { t with srcAddr := 0, srcLen := 32 } = .next (after .hmacVerify { t with srcAddr := 0, srcLen := 32 }) ∧
      (after .hmacVerify { t with srcAddr := 0, srcLen := 32 }).err = .ok := by
  refine ⟨by decide, by decide, exec_next _ _, by decide +kernel, ?_⟩
  have h : (feed .hmacUpdate chunks (after .hmacInit good)).any (fun t => (after .hmacFinal t).err == .ok &&
      (after .hmacVerify { t with srcAddr := 0, srcLen := 32 }).err == .ok) = true := by decide +kernel
  cases hf : feed .hmacUpdate chunks (after .hmacInit good) with
  | none => rw [hf] at h; exact absurd h (by simp)
  | some t =>
    rw [hf] at h
    simp only [Option.any_some, Bool.and_eq_true, beq_iff_eq] at h
    exact ⟨t, rfl, exec_next _ _, h.1, exec_next _ _, h.2⟩

/-- A cipher command and a hash command, each on the state the other's unit does not matter to. -/
theorem witness_CipherAndHashUnitsAreIndependent :
    exec .gcmEnc good = .next (after .gcmEnc good) ∧ opNumber .gcmEnc ≤ 0x11 ∧
    exec .hmacVerify hmacState = .next (after .hmacVerify hmacState) ∧ 0x20 ≤ opNumber .shaInit ∧ opNumber .hmacVerify ≤ 0x2B :=
  ⟨exec_next _ _, by decide, exec_next _ _, by decide, by decide⟩

end Sys2Proof.Tests
end

section
/-! SUPPORT. Register accesses of the host, said once: which register an aligned offset names (10 R30), what a write of it
does while BUSY = 0 and while BUSY = 1 (10 R57, R58), what a read of it returns (10 R59), and the bits of the flag registers. -/

namespace Sys2Proof.Machine

/-! ### The register map (10 R30) -/

/-- The window has 64 aligned offsets. -/
theorem exists_eq_four_mul {off : Nat} (h4 : off % 4 = 0) (hlt : off < 0x100) : ∃ k : Fin 64, off = 4 * k.val :=
  ⟨⟨off / 4, by omega⟩, by simp only; omega⟩

theorem regAt_key (k : Fin 8) : regAt (0x040 + 4 * k.val) = .key k := by decide +revert

theorem regAt_iv (k : Fin 4) : regAt (0x060 + 4 * k.val) = .iv k := by decide +revert

theorem regAt_digest (k : Fin 8) : regAt (0x080 + 4 * k.val) = .digest k := by decide +revert

/-- Every register stands at its offset. -/
theorem regAt_offset (r : Reg) : regAt r.offset = r := by
  cases r with
  | key k => exact regAt_key k
  | iv k => exact regAt_iv k
  | digest k => exact regAt_digest k
  | _ => rfl

/-- A register other than the reserved offsets stands at one aligned offset only. -/
theorem eq_offset_of_regAt {off : Nat} {r : Reg} (h4 : off % 4 = 0) (hlt : off < 0x100) (h : regAt off = r)
    (hr : r ≠ .reserved) : off = r.offset := by
  subst h
  obtain ⟨k, rfl⟩ := exists_eq_four_mul h4 hlt
  decide +revert

theorem offset_aligned (r : Reg) : r.offset % 4 = 0 ∧ r.offset < 0x100 := by
  cases r with
  | key k | iv k | digest k => simp only [Reg.offset]; omega
  | _ => decide

/-! ### Kinds of registers (10 R30, R49, R58) -/

/-- The registers whose write is lost while BUSY = 1: all writable ones but IRQ_STATUS (10 R58). -/
def lockedWhileBusy : Reg → Bool
  | .id | .status | .irqStatus | .outLen | .digest _ | .reserved => false
  | _ => true

/-- The registers and offsets that ignore every write (10 R30, R49). -/
def ignoresWrites : Reg → Bool
  | .id | .status | .outLen | .digest _ | .reserved => true
  | _ => false

/-- The seven operand registers (10 R38 to R44). -/
def isOperand : Reg → Bool
  | .srcAddr | .srcLen | .dstAddr | .aadAddr | .aadLen | .nonceAddr | .nonceLen => true
  | _ => false

theorem lockedWhileBusy_regAt {off : Nat} (h4 : off % 4 = 0) (hlt : off < 0x100) :
    lockedWhileBusy (regAt off) = true ↔
      off = 0x004 ∨ off = 0x008 ∨ (0x020 ≤ off ∧ off ≤ 0x038) ∨ (0x040 ≤ off ∧ off ≤ 0x06C) := by
  obtain ⟨k, rfl⟩ := exists_eq_four_mul h4 hlt
  decide +revert

theorem drawnWhileBusy_regAt {off : Nat} (h4 : off % 4 = 0) (hlt : off < 0x100) :
    drawnWhileBusy (regAt off) = true ↔ off = 0x014 ∨ (0x060 ≤ off ∧ off ≤ 0x06C) ∨ (0x080 ≤ off ∧ off ≤ 0x09C) := by
  obtain ⟨k, rfl⟩ := exists_eq_four_mul h4 hlt
  decide +revert

theorem regAt_eq_reserved {off : Nat} (h4 : off % 4 = 0) (hlt : off < 0x100) :
    regAt off = .reserved ↔ off = 0x018 ∨ off = 0x01C ∨ off = 0x03C ∨ (0x070 ≤ off ∧ off ≤ 0x07C) ∨ 0x0A0 ≤ off := by
  obtain ⟨k, rfl⟩ := exists_eq_four_mul h4 hlt
  decide +revert

theorem ignoresWrites_regAt {off : Nat} (h4 : off % 4 = 0) (hlt : off < 0x100) :
    ignoresWrites (regAt off) = true ↔
      regAt off = .reserved ∨ off = 0x000 ∨ off = 0x00C ∨ off = 0x014 ∨ (0x080 ≤ off ∧ off ≤ 0x09C) := by
  obtain ⟨k, rfl⟩ := exists_eq_four_mul h4 hlt
  decide +revert

/-- The offsets of CMD and KEY0..7, the write-only registers. -/
theorem regAt_writeOnly {off : Nat} (h4 : off % 4 = 0) (hlt : off < 0x100)
    (h : off = 0x008 ∨ (0x040 ≤ off ∧ off ≤ 0x05C)) : regAt off = .cmd ∨ ∃ k, regAt off = .key k := by
  obtain ⟨k, rfl⟩ := exists_eq_four_mul h4 hlt
  decide +revert

theorem regAt_eq_status {off : Nat} (h4 : off % 4 = 0) (hlt : off < 0x100) : regAt off = .status ↔ off = 0x00C := by
  obtain ⟨k, rfl⟩ := exists_eq_four_mul h4 hlt
  decide +revert

theorem regAt_eq_irqStatus {off : Nat} (h4 : off % 4 = 0) (hlt : off < 0x100) : regAt off = .irqStatus ↔ off = 0x010 := by
  obtain ⟨k, rfl⟩ := exists_eq_four_mul h4 hlt
  decide +revert

/-! ### Host writes (10 R57, R58) -/

theorem launchesUnflushed_of_ne_cmd {r : Reg} (h : r ≠ .cmd) (v : Word) (s : State) : launchesUnflushed r v s = false := by
  rw [← Bool.not_eq_true, launchesUnflushed_iff]
  exact fun hc => h hc.1

theorem launchesUnflushed_of_busy {s : State} (h : s.busy = true) (r : Reg) (v : Word) : launchesUnflushed r v s = false := by
  rw [← Bool.not_eq_true, launchesUnflushed_iff]
  exact fun hc => Bool.false_ne_true (hc.2.1.symm.trans h)

/-- An aligned 32-bit write that launches nothing before its write-back is the write of the register there. -/
theorem hostAct_regWrite {off : Nat} {v : Word} {s : State} (h4 : off % 4 = 0) (hlt : off < 0x100)
    (h : launchesUnflushed (regAt off) v s = false) : hostAct (.regWrite 4 off v) s = .next (writeReg (regAt off) v s) := by
  simp [hostAct, regAccessOk, h4, hlt, h]

/-- A write of a named register other than CMD. -/
theorem hostAct_regWrite_offset {r : Reg} (h : r ≠ .cmd) (v : Word) (s : State) :
    hostAct (.regWrite 4 r.offset v) s = .next (writeReg r v s) := by
  have hw := hostAct_regWrite (v := v) (s := s) (offset_aligned r).1 (offset_aligned r).2
  rw [regAt_offset] at hw
  exact hw (launchesUnflushed_of_ne_cmd h v s)

@[simp] theorem unlessBusy_idle {s : State} (h : s.busy = false) (t : State) : unlessBusy s t = t := by simp [unlessBusy, h]

@[simp] theorem unlessBusy_busy {s : State} (h : s.busy = true) (t : State) : unlessBusy s t = { s with ovr := true } := by
  simp [unlessBusy, h]

theorem writeReg_ignored {r : Reg} (h : ignoresWrites r = true) (v : Word) (s : State) : writeReg r v s = s := by
  cases r <;> simp only [ignoresWrites, Bool.false_eq_true] at h <;> rfl

theorem ne_cmd_of_ignoresWrites {r : Reg} (h : ignoresWrites r = true) : r ≠ .cmd := by
  rintro rfl
  exact Bool.false_ne_true h

theorem writeReg_locked {r : Reg} (h : lockedWhileBusy r = true) {s : State} (hb : s.busy = true) (v : Word) :
    writeReg r v s = { s with ovr := true } := by
  cases r <;> simp only [lockedWhileBusy, Bool.false_eq_true] at h <;> exact unlessBusy_busy hb _

theorem writeReg_iv {s : State} (hb : s.busy = false) (k : Fin 4) (v : Word) :
    writeReg (.iv k) v s = { s with iv := s.iv.set k.val v k.isLt, ivw := s.ivw ||| (1#4 <<< k.val) } := unlessBusy_idle hb _

theorem writeReg_key {s : State} (hb : s.busy = false) (k : Fin 8) (v : Word) :
    writeReg (.key k) v s = { s with key := s.key.set k.val v k.isLt } := unlessBusy_idle hb _

/-- Bit b of IVW after a write to IVk (10 R47). -/
theorem getLsbD_or_ivBit (w : BitVec 4) (k : Fin 4) {b : Nat} (hb : b < 4) :
    (w ||| (1#4 <<< k.val)).getLsbD b = (w.getLsbD b || b == k.val) := by
  have hbit : ∀ k : Fin 4, ∀ b < 4, (1#4 <<< k.val).getLsbD b = (b == k.val) := by decide
  rw [BitVec.getLsbD_or, hbit k b hb]

/-! Writes to operand registers while BUSY = 0 (10 R57). -/

section
variable {r : Reg} {s : State} (hr : isOperand r = true) (hb : s.busy = false) (v : Word)
include hr hb

theorem regValue_writeReg_operand : regValue r (writeReg r v s) = v := by
  cases r <;> simp only [isOperand, Bool.false_eq_true] at hr <;> simp only [writeReg, unlessBusy_idle hb, regValue]

theorem regValue_writeReg_operand_ne {q : Reg} (hq : q ≠ r) : regValue q (writeReg r v s) = regValue q s := by
  cases r <;> simp only [isOperand, Bool.false_eq_true] at hr
  -- The written field is not the one that `regValue q` reads.
  all_goals
    rw [writeReg, unlessBusy_idle hb]
    cases q <;> simp only [ne_eq, not_true_eq_false] at hq <;> rfl

theorem writeReg_operand_frame : writeReg r v s =
    { s with
      srcAddr := (writeReg r v s).srcAddr, srcLen := (writeReg r v s).srcLen, dstAddr := (writeReg r v s).dstAddr
      aadAddr := (writeReg r v s).aadAddr, aadLen := (writeReg r v s).aadLen
      nonceAddr := (writeReg r v s).nonceAddr, nonceLen := (writeReg r v s).nonceLen } := by
  cases r <;> simp only [isOperand, Bool.false_eq_true] at hr <;> simp only [writeReg, unlessBusy_idle hb]

end

/-- A write to IVk changes the value of no other register but STATUS, which shows IV_VALID (10 R46, R47). -/
theorem regValue_writeReg_iv_ne {s : State} (hb : s.busy = false) (k : Fin 4) (v : Word) {q : Reg} (hq : q ≠ .iv k)
    (hst : q ≠ .status) : regValue q (writeReg (.iv k) v s) = regValue q s := by
  rw [writeReg_iv hb]
  cases q with
  | status => exact absurd rfl hst
  | iv j =>
    have hj : k.val ≠ j.val := fun h => hq (congrArg Reg.iv (Fin.ext h.symm))
    exact Vector.getElem_set_ne k.isLt j.isLt hj
  | _ => rfl

/-! ### Host reads (10 R57, R59) -/

theorem hostAct_regRead {off : Nat} {s : State} (h4 : off % 4 = 0) (hlt : off < 0x100) :
    hostAct (.regRead 4 off) s = .next (readReg (regAt off) s) := by
  simp [hostAct, regAccessOk, h4, hlt]

theorem readReg_drawn {r : Reg} {s : State} (hb : s.busy = true) (hr : drawnWhileBusy r = true) :
    readReg r s = { s with observed := .word r (Config.freeWord s.draws) :: s.observed, draws := s.draws + 1 } := by
  simp [readReg, hb, hr]

theorem readReg_value {r : Reg} {s : State} (h : s.busy = false ∨ drawnWhileBusy r = false) :
    readReg r s = { s with
      observed := .word r (regValue r s) :: s.observed, unobserved := leftUnobserved (showsCompletion r s) s } := by
  rcases h with h | h <;> simp [readReg, h]

theorem showsCompletion_iff {r : Reg} {s : State} :
    showsCompletion r s = true ↔ (r = .status ∧ s.busy = false) ∨ (r = .irqStatus ∧ s.done = true) := by
  cases r <;> simp [showsCompletion]

/-- A register that reads 0 whatever the state leaves nothing but the record of the read (10 R49). -/
theorem readReg_zero {r : Reg} (h : r = .reserved ∨ r = .cmd ∨ ∃ k, r = .key k) (s : State) :
    readReg r s = { s with observed := .word r 0 :: s.observed } := by
  rcases h with rfl | rfl | ⟨k, rfl⟩ <;> exact readReg_value (.inr rfl)

/-! ### The flag registers bit by bit (10 R32, R34, R35) -/

theorem ctrlWord_getLsbD (s : State) (i : Nat) :
    (ctrlWord s).getLsbD i = ((decide (i < 2) && s.keysz.getLsbD i) || (i == 8 && s.irqEn)) := by
  simp only [ctrlWord, BitVec.getLsbD_append, BitVec.getLsbD_zero, BitVec.getLsbD_ofBool]
  grind

/-- CTRL as read after a write of v: bits 1:0 and bit 8 of v. -/
theorem ctrlWord_setCtrl (v : Word) (s : State) : ctrlWord (setCtrl v s) = v &&& 0x00000103#32 := by
  have mask : ∀ i < 32, (0x00000103#32).getLsbD i = (decide (i < 2) || i == 8) := by decide
  refine BitVec.eq_of_getLsbD_eq fun i hi => ?_
  rw [ctrlWord_getLsbD, BitVec.getLsbD_and, mask i hi]
  simp only [setCtrl, BitVec.getLsbD_extractLsb', Nat.zero_add]
  grind

theorem irqStatusWord_getLsbD (s : State) (i : Nat) :
    (irqStatusWord s).getLsbD i = ((i == 0 && s.done) || (i == 1 && s.ovr)) := by
  simp only [irqStatusWord, BitVec.getLsbD_append, BitVec.getLsbD_zero, BitVec.getLsbD_ofBool]
  match i with
  | 0 | 1 | i + 2 => simp

theorem irqStatusWord_eq_or (s : State) :
    irqStatusWord s = (if s.done then 1#32 else 0#32) ||| (if s.ovr then 2#32 else 0#32) := by
  cases hd : s.done <;> cases ho : s.ovr <;> rw [irqStatusWord, hd, ho] <;> rfl

/-- An acknowledgement clears the bits written as 1. -/
theorem irqStatusWord_acknowledge (v : Word) (s : State) :
    irqStatusWord (acknowledge v s) = irqStatusWord s &&& ~~~v := by
  refine BitVec.eq_of_getLsbD_eq fun i hi => ?_
  rw [BitVec.getLsbD_and, irqStatusWord_getLsbD, irqStatusWord_getLsbD, BitVec.getLsbD_not]
  match i, hi with
  | 0, _ | 1, _ | i + 2, _ => simp

theorem statusWord_getLsbD (s : State) (i : Nat) :
    (statusWord s).getLsbD i =
      if i = 0 then s.busy else if i = 1 then s.verifyOk else if i < 4 then s.hmode.code.getLsbD (i - 2)
      else if i = 4 then ivValid s else if i < 8 then false else if i < 12 then s.err.code.getLsbD (i - 8) else false := by
  simp only [statusWord, BitVec.getLsbD_append, BitVec.getLsbD_zero, BitVec.getLsbD_ofBool]
  grind

/-- A field of STATUS is known by its bits. -/
theorem statusWord_field {s : State} {start w : Nat} {x : BitVec w}
    (h : ∀ j < w, (statusWord s).getLsbD (start + j) = x.getLsbD j) : (statusWord s).extractLsb' start w = x :=
  BitVec.eq_of_getLsbD_eq fun j hj => by simp [hj, h j hj]

theorem statusWord_hmode (s : State) : (statusWord s).extractLsb' 2 2 = s.hmode.code :=
  statusWord_field fun j hj => by rw [statusWord_getLsbD]; grind

theorem statusWord_err (s : State) : (statusWord s).extractLsb' 8 4 = s.err.code :=
  statusWord_field fun j hj => by rw [statusWord_getLsbD]; grind

theorem statusWord_reserved (s : State) :
    (statusWord s).extractLsb' 5 3 = 0 ∧ (statusWord s).extractLsb' 12 20 = 0 := by
  constructor <;> exact statusWord_field fun j hj => by rw [statusWord_getLsbD]; grind

end Sys2Proof.Machine
end

section
/-! SUPPORT. The invariant over one step: each turn keeps it, and so does every command (10 R50 to R53, 60 R440, R441). -/

namespace Sys2Proof

open Machine

/-! ### The host's moves -/

theorem Inv.launch {s : State} (h : Inv s) (w : Word) : Inv (launch w s) where
  memory := h.memory
  hashBuffer := h.hashBuffer
  hashContext := h.hashContext
  pendingFlags := fun _ => ⟨rfl, rfl, rfl⟩
  resultFlags := ⟨fun he => absurd rfl he, fun hv => absurd hv Bool.false_ne_true, by simp⟩

/-- An acknowledgement only clears DONE. -/
theorem Inv.acknowledge {s : State} (h : Inv s) (v : Word) : Inv (acknowledge v s) where
  memory := h.memory
  hashBuffer := h.hashBuffer
  hashContext := h.hashContext
  pendingFlags := fun hb => by
    obtain ⟨herr, hv, hdone⟩ := h.pendingFlags hb
    exact ⟨herr, hv, by simp [hdone]⟩
  resultFlags := h.resultFlags

theorem Inv.unlessBusy {s t : State} (h : Inv s) (ht : Inv t) : Inv (unlessBusy s t) := by
  cases hb : s.busy with
  | false => rwa [unlessBusy_idle hb]
  | true => rw [unlessBusy_busy hb]; exact h.of_fields rfl rfl rfl rfl rfl rfl rfl rfl rfl

theorem Inv.writeReg {s : State} (h : Inv s) (r : Reg) (v : Word) : Inv (writeReg r v s) := by
  cases r with
  | id | status | outLen | digest k | reserved => exact h
  | irqStatus => exact h.acknowledge v
  | cmd => exact h.unlessBusy (h.launch v)
  | _ => exact h.unlessBusy (h.of_fields rfl rfl rfl rfl rfl rfl rfl rfl rfl)

theorem Inv.readReg {s : State} (h : Inv s) (r : Reg) : Inv (readReg r s) := by
  unfold Machine.readReg
  split <;> exact h.of_fields rfl rfl rfl rfl rfl rfl rfl rfl rfl

/-- A store of the host inside the address space keeps memory canonical. -/
theorem Inv.hostStore {s : State} (h : Inv s) {a : Nat} {bs : List Byte} (hle : a + bs.length ≤ addressSpace) :
    Inv (hostStore a bs s) where
  memory := memWrite_wf h.memory hle
  hashBuffer := h.hashBuffer
  hashContext := h.hashContext
  pendingFlags := h.pendingFlags
  resultFlags := h.resultFlags

theorem Inv.hostAct {s t : State} (h : Inv s) {a : HostAction} (ht : hostAct a s = .next t) : Inv t := by
  rcases hostAct_cases ht with ⟨off, v, -, -, -, -, rfl⟩ | ⟨off, -, -, -, rfl⟩ | ⟨b, bs, -, hle, -, rfl⟩ |
    ⟨b, n, -, -, -, rfl⟩ | ⟨-, rfl⟩ | ⟨-, rfl⟩
  · exact h.writeReg _ v
  · exact h.readReg _
  · exact h.hostStore hle
  all_goals exact h.of_fields rfl rfl rfl rfl rfl rfl rfl rfl rfl

/-! ### Reset -/

/-- Reset leaves memory, and everything else of the invariant at its reset value (70 R490, R491). -/
theorem Inv.hardReset {s : State} (hmem : Memory.wf s.mem) : Inv (hardReset s) where
  memory := hmem
  hashBuffer := hashBufferInv_zero rfl
  hashContext := ⟨fun _ => rfl, fun _ => rfl⟩
  pendingFlags := fun hb => absurd hb Bool.false_ne_true
  resultFlags := ⟨fun he => absurd rfl he, fun hv => absurd hv Bool.false_ne_true, by simp⟩

/-! ### The completion of a command -/

/-- An error of the engine ends the pending time with OUT_LEN and VERIFY_OK 0 (40 R188, 60 R441). -/
theorem Inv.finish_raiseError {s : State} (h : Inv s) {e : ErrCode} (he : e ≠ .invalidParameter) :
    Inv (finish (raiseError e s)) where
  memory := h.memory
  hashBuffer := h.hashBuffer
  hashContext := h.hashContext
  pendingFlags := fun hb => absurd hb Bool.false_ne_true
  resultFlags := ⟨fun _ => ⟨rfl, rfl⟩, fun hv => absurd hv Bool.false_ne_true, he⟩

/-- The effects of a successful command keep the hash invariants (43 R360 to R362, 44 R405 to R410, 40 R195). -/
theorem hashInv_of_afterSpec {i : Instr} {s a : State} (h : AfterSpec i s a) (hbuf : hashBufferInv s)
    (hctx : hashContextInv s) : hashBufferInv a ∧ hashContextInv a := by
  obtain ⟨hzero, hopad⟩ := hctx
  cases i with
  | ecbEnc f | ecbDec f | gcmEnc | gcmDec =>
    obtain rfl : a = s := h
    exact ⟨hbuf, hzero, hopad⟩
  | cbcEnc f | cbcDec f | cfbEnc f | cfbDec f | ofbEnc f | ofbDec f | ctrEnc f | ctrDec f =>
    obtain ⟨v, rfl⟩ := h
    exact ⟨hbuf, hzero, hopad⟩
  | shaInit =>
    obtain rfl := h
    exact ⟨hashBufferInv_init rfl, nofun, fun _ => rfl⟩
  | hmacInit =>
    obtain rfl := h
    exact ⟨hashBufferInv_absorb (hs := .init) (by decide) _ rfl, nofun, fun hm => absurd rfl hm⟩
  | shaUpdate | hmacUpdate =>
    obtain ⟨hm, -, rfl⟩ := h
    obtain ⟨-, hbits⟩ := hbuf
    exact ⟨hashBufferInv_absorb hbits _ rfl, fun h0 => absurd (hm.symm.trans h0) (by decide), hopad⟩
  | shaFinal =>
    obtain ⟨hm, rfl⟩ := h
    exact ⟨hashBufferInv_zero rfl, fun _ => rfl, fun _ => hopad (by simp [hm])⟩
  | hmacFinal | hmacVerify =>
    obtain ⟨-, rfl⟩ := h
    exact ⟨hashBufferInv_zero rfl, fun _ => rfl, fun _ => rfl⟩
  | clear =>
    obtain rfl := h
    exact ⟨hashBufferInv_zero rfl, fun _ => rfl, fun _ => rfl⟩

/-- Only HMAC_VERIFY writes VERIFY_OK, and it leaves no context (44 R410). -/
theorem verifyOk_of_afterSpec {i : Instr} {s a : State} (h : AfterSpec i s a) :
    a.verifyOk = s.verifyOk ∨ (i = .hmacVerify ∧ a.hmode = .none) := by
  cases i with
  | ecbEnc f | ecbDec f | gcmEnc | gcmDec | shaInit | hmacInit | clear =>
    obtain rfl := h
    exact .inl rfl
  | cbcEnc f | cbcDec f | cfbEnc f | cfbDec f | ofbEnc f | ofbDec f | ctrEnc f | ctrDec f =>
    obtain ⟨v, rfl⟩ := h
    exact .inl rfl
  | shaUpdate | hmacUpdate =>
    obtain ⟨-, -, rfl⟩ := h
    exact .inl rfl
  | shaFinal | hmacFinal =>
    obtain ⟨-, rfl⟩ := h
    exact .inl rfl
  | hmacVerify =>
    obtain ⟨-, rfl⟩ := h
    exact .inr ⟨rfl, rfl⟩

/-- After HMAC_VERIFY nothing was written and no context is left; after another command VERIFY_OK is as the launch set it. -/
theorem resultFlagsInv_finish_writeOut {i : Instr} {s : State} {q : Plan} (hq : planOf i s = .ok q)
    (ha : AfterSpec i s q.after) (herr : q.after.err = .ok) (hv : s.verifyOk = false) :
    resultFlagsInv (finish (writeOut q.out q.after)) := by
  refine ⟨fun he => absurd herr he, fun hv' => ?_, by simp [herr]⟩
  rcases verifyOk_of_afterSpec ha with hsame | ⟨rfl, hmode⟩
  · exact absurd (hv'.symm.trans (hsame.trans hv)) (by decide)
  · have hlen : q.out.length = 0 := planOf_length hq
    exact ⟨hmode, by simp [hlen]⟩

/-- The completion of a pending command keeps the invariant: it raises one error, or it carries its plan out. -/
theorem Inv.exec {i : Instr} {s t : State} (h : Inv s) (hb : s.busy = true) (ht : exec i s = .next t) : Inv t := by
  rcases exec_cases ht with ⟨e, -, he, rfl⟩ | ⟨q, hq, hrange, -, ha, rfl⟩
  · exact h.finish_raiseError he
  · obtain ⟨herr, hv, -⟩ := h.pendingFlags hb
    obtain ⟨hbuf, hctx⟩ := hashInv_of_afterSpec ha h.hashBuffer h.hashContext
    obtain ⟨-, -, -, herr', -, -, -, -, hdst, -, -, -, -, -, hmem, -⟩ := ha.frame
    refine ⟨?_, hbuf, hctx, fun hb => absurd hb Bool.false_ne_true,
      resultFlagsInv_finish_writeOut hq ha (herr'.trans herr) hv⟩
    by_cases hlen : q.out.length = 0
    · simpa [List.length_eq_zero_iff.mp hlen, hmem] using h.memory
    · simpa [hmem, hdst] using memWrite_wf h.memory (rangeOk_le hrange hlen)

theorem Inv.popInput {s : State} (h : Inv s) : Inv (popInput s) := h.of_fields rfl rfl rfl rfl rfl rfl rfl rfl rfl

theorem Inv.awaitObservation {s : State} (h : Inv s) (i : Instr) : Inv (awaitObservation i s) :=
  h.of_fields rfl rfl rfl rfl rfl rfl rfl rfl rfl

/-- Settles O9: each turn keeps the invariant, the engine's by the shared completion of the commands. -/
theorem stepKeepsTheInvariant : Obligations.StepKeepsTheInvariant := by
  intro s t h ht
  rcases step_cases ht with ⟨-, rfl⟩ | ⟨hb, i, -, hexec⟩ | ⟨-, -, rfl⟩ | ⟨a, rest, -, hact⟩ | ⟨rest, -, rfl⟩
  · exact h.popInput
  · exact (h.popInput.awaitObservation i).exec hb hexec
  · exact h.popInput.finish_raiseError (by decide)
  · exact h.popInput.hostAct hact
  · exact Inv.hardReset h.memory

/-- Settles O8: the state after reset is the reset of itself. -/
theorem resetStateMeetsTheInvariant : Obligations.ResetStateMeetsTheInvariant :=
  Inv.hardReset (s := State.reset) ⟨List.Pairwise.nil, nofun⟩

end Sys2Proof
end

section
/-! SUPPORT. The registers the host sees (10 R30 to R59): what an access returns and changes, and who changes KEY and IVW. -/

namespace Sys2Proof.Proofs

open Sys2Proof Sys2Proof.Machine Sys2Proof.Claims

/-! ### Launch, and writes while BUSY = 1 (10 R58, 40 R185) -/

/-- Settles O10: no byte of the command's ranges waits for its write-back, so the write is the launch. -/
theorem cmdWriteLaunchesWhenIdle : Obligations.CmdWriteLaunchesWhenIdle := by
  intro s w
  have write (h : launchesUnflushed .cmd w s = false) : hostAct (.regWrite 4 0x008 w) s = .next (writeReg .cmd w s) :=
    hostAct_regWrite (off := 0x008) (by decide) (by decide) h
  refine ⟨fun hb hflushed => ?_, fun hb => ?_⟩
  · have hl : launchesUnflushed .cmd w s = false := by
      rw [← Bool.not_eq_true, launchesUnflushed_iff]
      rintro ⟨-, -, i, hi, r, hr, q, hq, x, hx⟩
      exact hflushed i hi r hr q hq x hx
    rw [write hl, writeReg, unlessBusy_idle hb, launch]
  · rw [write (launchesUnflushed_of_busy hb _ _), writeReg_locked rfl hb]

/-- Settles O11: the register is locked, or it is IRQ_STATUS, whose write is the acknowledgement. -/
theorem writesWhileBusyAreLost : Obligations.WritesWhileBusyAreLost := by
  intro s off v hb h4
  refine ⟨fun hoff => ?_, hostAct_regWrite_offset (r := .irqStatus) (by decide) v s⟩
  have hlt : off < 0x100 := by omega
  rw [hostAct_regWrite h4 hlt (launchesUnflushed_of_busy hb _ _),
    writeReg_locked ((lockedWhileBusy_regAt h4 hlt).mpr hoff) hb]

/-! ### Reserved, read-only and write-only offsets (10 R30, R49) -/

theorem hostAct_regWrite_ignored {off : Nat} (h4 : off % 4 = 0) (hlt : off < 0x100)
    (h : ignoresWrites (regAt off) = true) (v : Word) (s : State) : hostAct (.regWrite 4 off v) s = .next s := by
  rw [hostAct_regWrite h4 hlt (launchesUnflushed_of_ne_cmd (ne_cmd_of_ignoresWrites h) v s), writeReg_ignored h]

theorem hostAct_regRead_zero {off : Nat} (h4 : off % 4 = 0) (hlt : off < 0x100)
    (h : regAt off = .reserved ∨ regAt off = .cmd ∨ ∃ k, regAt off = .key k) (s : State) :
    ∃ r, hostAct (.regRead 4 off) s = .next { s with observed := .word r 0 :: s.observed } :=
  ⟨regAt off, by rw [hostAct_regRead h4 hlt, readReg_zero h]⟩

/-- Settles O12, kind of offset by kind of offset. -/
theorem reservedOffsetsIgnoreWritesAndReadZero : Obligations.ReservedOffsetsIgnoreWritesAndReadZero := by
  intro s off v h4
  refine ⟨fun hoff => ?_, fun hoff => ?_, fun hoff => ?_⟩
  · have hlt : off < 0x100 := by omega
    have hr : regAt off = .reserved := (regAt_eq_reserved h4 hlt).mpr (by omega)
    exact ⟨hostAct_regWrite_ignored h4 hlt (by rw [hr]; rfl) v s, hostAct_regRead_zero h4 hlt (.inl hr) s⟩
  · have hlt : off < 0x100 := by omega
    exact hostAct_regWrite_ignored h4 hlt ((ignoresWrites_regAt h4 hlt).mpr (.inr hoff)) v s
  · have hlt : off < 0x100 := by omega
    exact hostAct_regRead_zero h4 hlt (.inr (regAt_writeOnly h4 hlt hoff)) s

/-! ### Writes while BUSY = 0 (10 R38 to R47, R57) -/

/-- Settles O13: an operand register, then an IV word, then a key word. -/
theorem idleWritesReadBackAndTouchNothingElse : Obligations.IdleWritesReadBackAndTouchNothingElse := by
  intro s r v hb
  refine ⟨fun hr => ?_, ?_⟩
  · have hkind : isOperand r = true ∨ ∃ k, r = .iv k := by decide +revert
    rcases hkind with hop | ⟨k, rfl⟩
    · have hcmd : r ≠ .cmd := by rintro rfl; exact Bool.false_ne_true hop
      refine ⟨writeReg r v s, hostAct_regWrite_offset hcmd v s, regValue_writeReg_operand hop hb v,
        fun q hq _ => regValue_writeReg_operand_ne hop hb v hq, ?_, ?_, fun _ => ?_⟩
      all_goals rw [writeReg_operand_frame hop hb v]
      rintro k rfl
      exact absurd hop Bool.false_ne_true
    · refine ⟨writeReg (.iv k) v s, hostAct_regWrite_offset (by simp) v s, ?_,
        fun q hq hst => regValue_writeReg_iv_ne hb k v hq hst, ?_, fun j hj => ?_, fun h => absurd rfl (h k)⟩
      all_goals rw [writeReg_iv hb]
      · simp [regValue, Vector.get_eq_getElem]
      · obtain rfl := Reg.iv.inj hj
        rfl
  · rintro k rfl
    rw [hostAct_regWrite_offset (by simp), writeReg_key hb]

/-- Settles O14: the write is `setCtrl`, and its readback is the mask. -/
theorem ctrlWriteReadsBackMasked : Obligations.CtrlWriteReadsBackMasked := by
  intro s v hb
  refine ⟨setCtrl v s, ?_, rfl, rfl, rfl, ctrlWord_setCtrl v s⟩
  rw [hostAct_regWrite (off := 0x004) (by decide) (by decide) (launchesUnflushed_of_ne_cmd (by decide) v s)]
  exact congrArg Host.Outcome.next (unlessBusy_idle hb _)

/-! ### STATUS and IRQ_STATUS (10 R34, R35) -/

/-- Settles O15, with the two numberings case by case. -/
theorem statusShowsItsFields : Obligations.StatusShowsItsFields := by
  intro s
  obtain ⟨h5, h12⟩ := statusWord_reserved s
  refine ⟨statusWord_getLsbD s 0, statusWord_getLsbD s 1, (statusWord_hmode s).trans ?_, ?_, h5, h12,
    (statusWord_err s).trans ?_⟩
  · cases s.hmode <;> rfl
  · rw [show (regValue .status s).getLsbD 4 = ivValid s from statusWord_getLsbD s 4, ivValid_iff]
  · cases s.err <;> rfl

/-- Settles O16: the write is the acknowledgement. -/
theorem irqStatusClearsOnlyWrittenOnes : Obligations.IrqStatusClearsOnlyWrittenOnes := fun s v =>
  ⟨acknowledge v s, hostAct_regWrite_offset (r := .irqStatus) (by decide) v s, rfl, irqStatusWord_acknowledge v s,
    irqStatusWord_eq_or s⟩

/-! ### Reads (10 R57, R59) -/

/-- Settles O19: a read is drawn exactly for a drawn register while BUSY = 1. -/
theorem readsReturnValuesOrDrawnWords : Obligations.ReadsReturnValuesOrDrawnWords := by
  intro s
  refine ⟨fun off h4 hlt => ⟨fun h => ?_, fun ⟨hb, hd⟩ => ?_⟩, rfl, rfl, rfl, rfl, rfl, rfl, rfl, rfl, rfl,
    fun k => by rw [regAt_iv]; rfl, fun k => by rw [regAt_digest]; rfl⟩
  · have hv : s.busy = false ∨ drawnWhileBusy (regAt off) = false := by
      rw [← Bool.not_eq_true (drawnWhileBusy _), drawnWhileBusy_regAt h4 hlt]
      exact h
    have hseen : showsCompletion (regAt off) s = true ↔ (off = 0x00C ∧ s.busy = false) ∨ (off = 0x010 ∧ s.done = true) := by
      rw [showsCompletion_iff, regAt_eq_status h4 hlt, regAt_eq_irqStatus h4 hlt]
    rw [hostAct_regRead h4 hlt, readReg_value hv, leftUnobserved, if_congr hseen rfl rfl]
  · rw [hostAct_regRead h4 hlt, readReg_drawn hb ((drawnWhileBusy_regAt h4 hlt).mpr hd)]

/-! ### KEY and IVW over a step (10 R45, R47) -/

/-- The only effect of a command on KEY and IVW is CLEAR's (40 R195). -/
theorem key_ivw_of_afterSpec {i : Instr} {s a : State} (h : AfterSpec i s a) :
    (a.key = s.key ∧ a.ivw = s.ivw) ∨ (i = .clear ∧ a.key = Vector.replicate 8 0 ∧ a.ivw = 0) := by
  cases i with
  | ecbEnc f | ecbDec f | gcmEnc | gcmDec | shaInit | hmacInit =>
    obtain rfl := h
    exact .inl ⟨rfl, rfl⟩
  | cbcEnc f | cbcDec f | cfbEnc f | cfbDec f | ofbEnc f | ofbDec f | ctrEnc f | ctrDec f =>
    obtain ⟨v, rfl⟩ := h
    exact .inl ⟨rfl, rfl⟩
  | shaUpdate | hmacUpdate =>
    obtain ⟨-, -, rfl⟩ := h
    exact .inl ⟨rfl, rfl⟩
  | shaFinal | hmacFinal | hmacVerify =>
    obtain ⟨-, rfl⟩ := h
    exact .inl ⟨rfl, rfl⟩
  | clear =>
    obtain rfl := h
    exact .inr ⟨rfl, rfl, rfl⟩

theorem key_ivw_of_exec {i : Instr} {s t : State} (h : exec i s = .next t) :
    (t.key = s.key ∧ t.ivw = s.ivw) ∨ (i = .clear ∧ t.key = Vector.replicate 8 0 ∧ t.ivw = 0) := by
  rcases exec_cases h with ⟨e, -, -, rfl⟩ | ⟨q, -, -, -, ha, rfl⟩
  · exact .inl ⟨rfl, rfl⟩
  · simpa using key_ivw_of_afterSpec ha

/-- A register write changes KEY or IVW only if it names one of their words while BUSY = 0. -/
theorem key_ivw_of_writeReg (r : Reg) (v : Word) (s : State) :
    ((writeReg r v s).key = s.key ∧ (writeReg r v s).ivw = s.ivw) ∨
    (s.busy = false ∧ ((∃ k, r = .key k) ∨ ∃ k, r = .iv k)) := by
  cases hb : s.busy with
  | true =>
    left
    cases r with
    | id | status | irqStatus | outLen | digest k | reserved => exact ⟨rfl, rfl⟩
    | _ => rw [writeReg_locked rfl hb]; exact ⟨rfl, rfl⟩
  | false =>
    cases r with
    | key k => exact .inr ⟨rfl, .inl ⟨k, rfl⟩⟩
    | iv k => exact .inr ⟨rfl, .inr ⟨k, rfl⟩⟩
    | _ => left; simp [writeReg, hb]

/-- Settles O17: of the engine's turns only CLEAR, and of the host's moves only a write of KEYk or IVk, changes KEY or IVW. -/
theorem keyAndIvwChangeOnlyByHostClearOrReset : Obligations.KeyAndIvwChangeOnlyByHostClearOrReset := by
  intro s t h
  rcases step_cases h with ⟨-, rfl⟩ | ⟨hb, i, hi, hexec⟩ | ⟨-, -, rfl⟩ | ⟨a, rest, hin, hact⟩ | ⟨rest, hin, rfl⟩
  · exact .inl ⟨rfl, rfl⟩
  · rcases key_ivw_of_exec hexec with hsame | ⟨rfl, hkey, hivw⟩
    · exact .inl hsame
    · exact .inr (.inr (.inl ⟨hb, hi, hkey, hivw⟩))
  · exact .inl ⟨rfl, rfl⟩
  · rcases hostAct_cases hact with ⟨off, v, rfl, h4, hlt, -, rfl⟩ | ⟨off, -, -, -, rfl⟩ | ⟨b, bs, -, -, -, rfl⟩ |
      ⟨b, n, -, -, -, rfl⟩ | ⟨-, rfl⟩ | ⟨-, rfl⟩
    · rcases key_ivw_of_writeReg (regAt off) v (popInput s) with hsame | ⟨hb, ⟨k, hk⟩ | ⟨k, hk⟩⟩
      · exact .inl hsame
      · obtain rfl := eq_offset_of_regAt h4 hlt hk (by simp)
        rw [hk, writeReg_key hb]
        exact .inr (.inr (.inr (.inl ⟨k, v, rest, hb, hin, rfl, rfl⟩)))
      · obtain rfl := eq_offset_of_regAt h4 hlt hk (by simp)
        rw [hk, writeReg_iv hb]
        exact .inr (.inr (.inr (.inr ⟨k, v, rest, hb, hin, rfl, fun b => getLsbD_or_ivBit s.ivw k⟩)))
    · left
      unfold readReg
      split <;> exact ⟨rfl, rfl⟩
    all_goals exact .inl ⟨rfl, rfl⟩
  · exact .inr (.inl ⟨rest, hin⟩)

/-! ### The key and the IV as byte strings (10 R45, R46, 20 R102, 40 R181) -/

theorem cipherKey_length {s : State} {n : Nat} (h : keyLen s.keysz = some n) (hn : n ≤ 32) : (cipherKey s).length = n := by
  simp [cipherKey, keyBytes, h, hn]

/-- Byte 4k + j of a string of words is byte j of word k. -/
theorem flatMap_be32_getD (ws : List Word) {k j : Nat} (hk : k < ws.length) (hj : j < 4) :
    (ws.flatMap be32).getD (4 * k + j) 0 = (be32 ws[k]).getD j 0 := by
  have hdrop : (ws.flatMap be32).getD (4 * k + j) 0 = ((ws.flatMap be32).drop (4 * k)).getD j 0 := by
    simp [List.getD_eq_getElem?_getD]
  rw [hdrop, flatMap_be32_drop, List.drop_eq_getElem_cons hk, List.flatMap_cons, List.getD_append _ _ _ _ (by simpa using hj)]

/-- The cipher key is the leading bytes of KEYBYTES. -/
theorem cipherKey_getD (s : State) {n : Nat} (h : n < (cipherKey s).length) :
    (cipherKey s).getD n 0 = (keyBytes s).getD n 0 := by
  rw [List.getD_eq_getElem _ _ h, List.getD_eq_getElem _ _ (by simp [cipherKey] at h; omega)]
  exact List.getElem_take

/-- Settles O29: the key is the leading part of the words' big-endian bytes. -/
theorem keyAndIvAreBigEndian : Obligations.KeyAndIvAreBigEndian := by
  intro s
  refine ⟨fun h => cipherKey_length (by rw [h]; rfl) (by decide), fun h => cipherKey_length (by rw [h]; rfl) (by decide),
    fun h => cipherKey_length (by rw [h]; rfl) (by decide), fun k j hj hlt => ?_, ivBlock_toNat s⟩
  rw [cipherKey_getD s hlt, keyBytes, wordsBytes, flatMap_be32_getD _ (by simp) hj, be32_getD _ _ hj]
  rfl

end Sys2Proof.Proofs
end

section
/-! SUPPORT. System memory (20 R100 to R111): what the host's memory accesses and the completion of a command do to it, each
outcome said once, and the commands whose ranges are guarded. -/

namespace Sys2Proof.Proofs

open Sys2Proof Sys2Proof.Machine Sys2Proof.Claims

/-! ### Stores (20 R101) -/

/-- Settles O23: an address is inside the range written or outside it. -/
theorem memoryWritesExactlyItsBytes : Obligations.MemoryWritesExactlyItsBytes := by
  rintro m a bs ⟨hrise, -⟩
  refine ⟨fun x => ?_, memRead_memWrite_self hrise a bs⟩
  split
  · next hin => exact readByte_memWrite_inside hrise hin
  · next hout => exact readByte_memWrite_outside hout

/-! ### What a command does to memory (20 R107, R108, R110, 40 R188, R189) -/

/-- A command raises an error and writes nothing, or it stores a string of its output range's length at DST_ADDR. -/
theorem memory_of_exec {i : Instr} {s t : State} (h : exec i s = .next t) :
    (t.mem = s.mem ∧ t.outLen = 0 ∧ t.uninvalidated = s.uninvalidated) ∨
    ∃ out, out.length = outLength i s ∧ t.mem = memWrite s.mem s.dstAddr.toNat out ∧ t.outLen.toNat = out.length ∧
      t.uninvalidated = maintenanceDue s.platform s.dstAddr.toNat out.length s.uninvalidated := by
  rcases exec_cases h with ⟨e, -, -, rfl⟩ | ⟨q, hq, -, -, ha, rfl⟩
  · exact .inl ⟨rfl, rfl, rfl⟩
  · obtain ⟨-, -, -, -, -, -, -, -, hdst, -, -, -, -, -, hmem, hplatform, -, -, -, -, -, hdue⟩ := ha.frame
    refine .inr ⟨q.out, planOf_length hq, ?_, ?_, ?_⟩
    · simp [hmem, hdst]
    · simpa using planOf_length_lt hq
    · simp [hplatform, hdst, hdue]

/-- Settles O27: the string stored has the length of the output range. -/
theorem outputStaysInItsRange : Obligations.OutputStaysInItsRange := by
  intro i s t h a ha
  rcases memory_of_exec h with ⟨hmem, -, -⟩ | ⟨out, hlen, hmem, -, -⟩
  · rw [hmem]
  · rw [hmem, readByte_memWrite_outside (by rwa [hlen])]

/-! ### The engine's turn (40 R186, R187) -/

theorem step_of_inputs_nil {s : State} (h : s.inputs = []) : step s = engineTurn s := by
  simp only [step, turn, h]

theorem step_of_inputs_engine {s : State} {rest : List Input} (h : s.inputs = .engine :: rest) :
    step s = engineTurn { s with inputs := rest } := by
  simp only [step, turn, h]

theorem engineTurn_pending {s : State} {i : Instr} (hb : s.busy = true) (hi : decode s.cmdLatch = .ok i) :
    engineTurn s = exec i (awaitObservation i s) := by
  simp only [engineTurn, hb, if_true, completion, fetchWord, hi]

theorem step_placeWord (w : Word) (s : State) : step (placeWord w s) = engineTurn (launch w s) :=
  step_of_inputs_engine rfl

/-- Settles O4: whichever way the engine's turn comes, it completes the latched command. -/
theorem stepRunsTheLatchedCommand : Obligations.StepRunsTheLatchedCommand := by
  intro s i
  refine ⟨fun hb hi => ⟨fun hin => ?_, fun rest hin => ?_⟩, fun w hi => ?_⟩
  · exact (step_of_inputs_nil hin).trans (engineTurn_pending hb hi)
  · exact (step_of_inputs_engine hin).trans (engineTurn_pending (s := { s with inputs := rest }) hb hi)
  · exact (step_placeWord _ s).trans (engineTurn_pending rfl hi)

/-! ### Guarded commands (20 R111) -/

theorem guards_iff {s : State} {f : Footprint} : guards s f ↔ f ∈ guarded s := mem_guarded.symm

theorem inGuardedOutput_iff_guards {s : State} {x : Nat} :
    inGuardedOutput s x = true ↔ ∃ f, guards s f ∧ within f.output x := by
  simp only [inGuardedOutput_iff, guards_iff]

theorem inGuardedOutput_eq_false {s : State} {x : Nat} (h : ∀ f, guards s f → ¬ within f.output x) :
    inGuardedOutput s x = false := by
  rw [← Bool.not_eq_true, inGuardedOutput_iff_guards]
  exact fun ⟨f, hf, hx⟩ => h f hf hx

theorem meetsGuarded_iff_guards {s : State} {r : Nat × Nat} :
    meetsGuarded s r = true ↔ ∃ f, guards s f ∧ ∃ q ∈ f.output :: f.inputs, ∃ x, within r x ∧ within q x := by
  simp only [meetsGuarded_iff, guards_iff, Footprint.ranges]

/-- With no command pending and none unobserved, nothing is guarded. -/
theorem not_guards {s : State} (hpending : s.busy = false ∨ ∃ e, decode s.cmdLatch = .error e) (hseen : s.unobserved = [])
    (f : Footprint) : ¬ guards s f := by
  rintro (hf | ⟨hb, i, hi, -⟩)
  · exact absurd (hseen ▸ hf) List.not_mem_nil
  · rcases hpending with hidle | ⟨e, he⟩
    · exact Bool.false_ne_true (hidle.symm.trans hb)
    · exact absurd (he.symm.trans hi) nofun

/-! ### Memory accesses of the host, outcome by outcome (20 R100, R110, R111) -/

theorem hostAct_memWrite_fault {a : Nat} {bs : List Byte} (h : addressSpace < a + bs.length) (s : State) :
    hostAct (.memWrite a bs) s = .fault (.noSuchAddress a) := if_pos h

section
variable {a : Nat} {bs : List Byte} {s : State} (hle : a + bs.length ≤ addressSpace)
include hle

theorem hostAct_memWrite_guarded (h : meetsGuarded s (a, bs.length) = true) :
    hostAct (.memWrite a bs) s = .refused (.rangeInUse a) := by
  simp only [hostAct, Nat.not_lt.mpr hle, h, if_true, if_false]

theorem hostAct_memWrite (h : meetsGuarded s (a, bs.length) = false) :
    hostAct (.memWrite a bs) s = .next (hostStore a bs s) := by
  simp only [hostAct, Nat.not_lt.mpr hle, h, Bool.false_eq_true, if_false]

end

theorem eq_hostStore_of_hostAct {a : Nat} {bs : List Byte} {s t : State} (h : hostAct (.memWrite a bs) s = .next t) :
    t = hostStore a bs s := by
  -- Of the kinds of action, only the store is this one.
  rcases hostAct_cases h with ⟨_, _, ha, -⟩ | ⟨_, ha, -⟩ | ⟨_, _, ha, -, -, rfl⟩ | ⟨_, _, ha, -⟩ | ⟨ha, -⟩ | ⟨ha, -⟩ <;>
    cases ha
  rfl

theorem hostAct_memRead_fault {a n : Nat} (h : addressSpace < a + n) (s : State) :
    hostAct (.memRead a n) s = .fault (.noSuchAddress a) := if_pos h

section
variable {a n : Nat} {s : State} (hle : a + n ≤ addressSpace)
include hle

theorem hostAct_memRead_stale {x : Nat} (hx : within (a, n) x) (h : staleByte s x = true) :
    hostAct (.memRead a n) s = .refused .cacheNotMaintained := by
  have hany : (List.range n).any (fun j => staleByte s (a + j)) = true := by
    obtain ⟨hax, hxn⟩ := hx
    exact List.any_eq_true.mpr ⟨x - a, List.mem_range.mpr (by omega), by rwa [Nat.add_sub_cancel' hax]⟩
  simp only [hostAct, Nat.not_lt.mpr hle, hany, if_true, if_false]

theorem hostAct_memRead (h : ∀ x, within (a, n) x → staleByte s x = false) :
    hostAct (.memRead a n) s = .next (hostLoad a n s) := by
  have hany : (List.range n).any (fun j => staleByte s (a + j)) = false := by
    refine List.any_eq_false.mpr fun j hj => Bool.not_eq_true _ ▸ h (a + j) ⟨Nat.le_add_right a j, ?_⟩
    exact Nat.add_lt_add_left (List.mem_range.mp hj) a
  simp only [hostAct, Nat.not_lt.mpr hle, hany, Bool.false_eq_true, if_false]

end

theorem hostByte_drawn {s : State} {x : Nat} (h : inGuardedOutput s x = true) (draw : Nat) :
    hostByte s x draw = Config.freeByte draw := if_pos h

theorem hostByte_memory {s : State} {x : Nat} (h : inGuardedOutput s x = false) (draw : Nat) :
    hostByte s x draw = readByte s.mem x := if_neg (by simp [h])

/-- Settles O22: stores by whether they meet a guarded range, loads byte by byte. -/
theorem pendingRangesAreGuarded : Obligations.PendingRangesAreGuarded := by
  intro s
  refine ⟨fun a bs hle => ⟨?_, fun hfree => ?_⟩, fun a n hle hstale => ?_, not_guards, rfl⟩
  · rintro ⟨f, hf, r, hr, x, hrx, hax⟩
    exact hostAct_memWrite_guarded hle (meetsGuarded_iff_guards.mpr ⟨f, hf, r, hr, x, hax, hrx⟩)
  · have hmeets : meetsGuarded s (a, bs.length) = false := by
      rw [← Bool.not_eq_true, meetsGuarded_iff_guards]
      exact fun ⟨f, hf, r, hr, x, hax, hrx⟩ => hfree f hf r hr x hax hrx
    exact ⟨_, hostAct_memWrite hle hmeets⟩
  · have hfresh : ∀ x, within (a, n) x → staleByte s x = false := by
      intro x hx
      rw [← Bool.not_eq_true, staleByte_iff, ← Bool.not_eq_true, inGuardedOutput_iff_guards]
      exact fun ⟨hdue, hout⟩ => hout (hstale x hx hdue)
    refine ⟨hostBytes s a s.draws n, hostBytes_length .., hostAct_memRead hle hfresh, fun j hj => ?_⟩
    rw [hostBytes_getD s hj]
    exact ⟨fun h => hostByte_drawn (inGuardedOutput_iff_guards.mpr h) _, fun h => hostByte_memory (inGuardedOutput_eq_false h) _⟩

/-! ### Moves without a meaning (20 R103, R110, 93 U4, U17) -/

theorem regAccessOk_eq_false {width off : Nat} (h : ¬ (width = 4 ∧ off % 4 = 0 ∧ off < 0x100)) :
    regAccessOk width off = false := by
  simpa [regAccessOk, and_assoc] using h

theorem hostAct_regWrite_outside {width off : Nat} (h : regAccessOk width off = false) (v : Word) (s : State) :
    hostAct (.regWrite width off v) s = .refused (.outsideInterface width off) := by
  simp only [hostAct, h, Bool.false_eq_true, if_false]

theorem hostAct_regRead_outside {width off : Nat} (h : regAccessOk width off = false) (s : State) :
    hostAct (.regRead width off) s = .refused (.outsideInterface width off) := by
  simp only [hostAct, h, Bool.false_eq_true, if_false]

/-- A launch while a byte of the command's ranges waits for its write-back. -/
theorem hostAct_launch_unflushed {w : Word} {s : State} (h : launchesUnflushed .cmd w s = true) :
    hostAct (.regWrite 4 0x008 w) s = .refused .cacheNotMaintained := by
  have hcmd : regAt 0x008 = .cmd := rfl
  have haccess : regAccessOk 4 0x008 = true := by decide
  simp only [hostAct, hcmd, haccess, h, if_true]

/-- Settles O21: each refused move by the check that stops it, each list of due ranges by the store that extends it. -/
theorem hostMovesWithoutMeaningStop : Obligations.HostMovesWithoutMeaningStop := by
  intro s
  refine ⟨fun width off v hout => ?_, fun w i r q x hb hi hr hq hrx hqx => ?_, fun a bs h => hostAct_memWrite_fault h s,
    fun a n h => hostAct_memRead_fault h s, fun a n q x hle hq hqx hx hfree => ?_, fun i t h => ?_, fun a bs t h => ?_, rfl⟩
  · have haccess := regAccessOk_eq_false hout
    exact ⟨hostAct_regWrite_outside haccess v s, hostAct_regRead_outside haccess s⟩
  · exact hostAct_launch_unflushed (launchesUnflushed_iff.mpr ⟨rfl, hb, i, hi, r, hr, q, hq, x, hrx, hqx⟩)
  · exact hostAct_memRead_stale hle hx (staleByte_iff.mpr ⟨⟨q, hq, hqx⟩, inGuardedOutput_eq_false hfree⟩)
  · rcases memory_of_exec h with ⟨-, hlen, hdue⟩ | ⟨out, -, -, hlen, hdue⟩
    · rw [if_pos (.inl hlen), hdue]
    · have hzero : out.length = 0 ↔ t.outLen = 0 := by rw [← hlen, BitVec.toNat_eq]; rfl
      rw [hdue, maintenanceDue, hlen, if_congr (or_congr_left hzero) rfl rfl]
  · rw [eq_hostStore_of_hostAct h]
    simp only [hostStore, maintenanceDue, List.length_eq_zero_iff]

end Sys2Proof.Proofs
end

section
/-! SUPPORT. Command words (30 R140 to R145): words and their fields, the opcode map read both ways, and what the decoder
accepts and rejects. -/

namespace Sys2Proof

/-! ### Words and their fields (30 R141) -/

@[simp] theorem splitWord_joinWord (c : CommandWord) : splitWord (joinWord c) = c := by
  obtain ⟨op, final, rsv⟩ := c
  have hfinal : (rsv ++ BitVec.ofBool final ++ op).getLsbD 8 = final := by
    simp only [BitVec.getLsbD_append, BitVec.getLsbD_ofBool]
    simp
  have hrsv : (rsv ++ BitVec.ofBool final ++ op).extractLsb' 9 23 = rsv := by
    refine BitVec.eq_of_getLsbD_eq fun i hi => ?_
    simp only [BitVec.getLsbD_extractLsb', BitVec.getLsbD_append]
    grind
  rw [splitWord, joinWord, CommandWord.mk.injEq]
  exact ⟨BitVec.extractLsb'_append_eq_right, hfinal, hrsv⟩

@[simp] theorem joinWord_splitWord (w : Word) : joinWord (splitWord w) = w := by
  refine BitVec.eq_of_getLsbD_eq fun i hi => ?_
  simp only [joinWord, splitWord, BitVec.getLsbD_append, BitVec.getLsbD_ofBool, BitVec.getLsbD_extractLsb']
  grind

/-- A word and its fields determine each other. -/
theorem eq_splitWord_iff {c : CommandWord} {w : Word} : c = splitWord w ↔ w = joinWord c :=
  ⟨fun h => h ▸ (joinWord_splitWord w).symm, fun h => h ▸ (splitWord_joinWord c).symm⟩

/-! ### The opcode map (30 R143) -/

/-- The opcode map gives a command exactly for the OP of its row; FINAL counts where OP takes it. -/
theorem opcodeMap_eq_some_iff {op : BitVec 8} {final : Bool} {i : Instr} :
    opcodeMap op final = some i ↔ i.fields = ⟨op, final && takesFinal op, 0⟩ := by
  constructor
  · intro h
    unfold opcodeMap at h
    split at h <;> cases h
    all_goals
      next hop => simp [Instr.fields, takesFinal, BitVec.toNat_eq, hop]
  · intro h
    cases i with
    | gcmEnc | gcmDec | shaInit | shaUpdate | shaFinal | hmacInit | hmacUpdate | hmacFinal | hmacVerify | clear =>
      obtain ⟨rfl, -, -⟩ := CommandWord.mk.inj h
      rfl
    | _ f =>
      obtain ⟨rfl, rfl, -⟩ := CommandWord.mk.inj h
      cases final <;> rfl

/-- The operation codes outside the opcode table (30 R145): the OP of each row lies between the gaps, any other OP in one. -/
theorem opcodeMap_eq_none_iff {op : BitVec 8} {final : Bool} :
    opcodeMap op final = none ↔
      op.toNat = 0x00 ∨ (0x0B ≤ op.toNat ∧ op.toNat ≤ 0x0F) ∨ (0x12 ≤ op.toNat ∧ op.toNat ≤ 0x1F) ∨
      (0x23 ≤ op.toNat ∧ op.toNat ≤ 0x27) ∨ (0x2C ≤ op.toNat ∧ op.toNat ≤ 0x2F) ∨ 0x31 ≤ op.toNat := by
  unfold opcodeMap
  split <;> grind

theorem takesFinal_iff {op : BitVec 8} : takesFinal op = true ↔ 0x01 ≤ op.toNat ∧ op.toNat ≤ 0x0A := by
  simp [takesFinal]

/-! ### The decoder (30 R144, R145) -/

/-- A word decodes when RSV = 0, OP is assigned, and FINAL is set only where OP takes it. -/
theorem decode_eq_ok_iff {w : Word} {i : Instr} :
    decode w = .ok i ↔ (splitWord w).rsv = 0 ∧ opcodeMap (splitWord w).op (splitWord w).final = some i ∧
      ((splitWord w).final = true → takesFinal (splitWord w).op = true) := by
  unfold decode
  generalize splitWord w = c
  dsimp only
  split
  · next hrsv => exact iff_of_false nofun fun h => hrsv h.1
  · next hrsv =>
    cases opcodeMap c.op c.final with
    | none => simp
    | some j => cases c.final <;> cases takesFinal c.op <;> simp [not_not.mp hrsv]

/-- The Illegal words, by the three checks that can fail. -/
theorem decode_eq_error_iff {w : Word} :
    (∃ e, decode w = .error e) ↔ (splitWord w).rsv ≠ 0 ∨ opcodeMap (splitWord w).op (splitWord w).final = none ∨
      ((splitWord w).final = true ∧ ¬ takesFinal (splitWord w).op = true) := by
  have hnotOk : (∃ e, decode w = .error e) ↔ ¬ ∃ i, decode w = .ok i := by
    cases decode w <;> simp
  simp only [hnotOk, decode_eq_ok_iff]
  cases opcodeMap (splitWord w).op (splitWord w).final <;> simp [imp_iff_not_or]

/-- A word decodes to the command that has its fields. -/
theorem decode_eq_ok_iff_fields {w : Word} {i : Instr} : decode w = .ok i ↔ i.fields = splitWord w := by
  have hfinal : i.fields.final = true → takesFinal i.fields.op = true := by
    cases i <;> simp [Instr.fields, takesFinal]
  have hrsv : i.fields.rsv = 0 := by
    cases i <;> rfl
  rw [decode_eq_ok_iff, opcodeMap_eq_some_iff]
  generalize splitWord w = c
  constructor
  · rintro ⟨h0, hfields, hf⟩
    rw [hfields, ← h0, Bool.and_eq_left_iff_imp.mpr hf]
  · rintro rfl
    exact ⟨hrsv, by rw [Bool.and_eq_left_iff_imp.mpr hfinal, ← hrsv], hfinal⟩

end Sys2Proof
end

section
/-! SUPPORT. The encoding of the commands (30 R143 to R146): the decoder against the encoder and the table, the turn on an
Illegal word, and what each command leaves unchanged. -/

namespace Sys2Proof.Proofs

open Sys2Proof Sys2Proof.Machine Sys2Proof.Claims

/-! ### Words and commands (30 R143, R144, R145) -/

/-- Settles O1: a word decodes to the command with its fields, and fields and word determine each other. -/
theorem decodeIsTheInverseOfEncode : Obligations.DecodeIsTheInverseOfEncode := fun _ _ =>
  decode_eq_ok_iff_fields.trans eq_splitWord_iff

/-- Settles O2: the three checks, the opcode map's gaps and the range of the mode commands written out. -/
theorem illegalWordsAreExactlyThese : Obligations.IllegalWordsAreExactlyThese := by
  intro w
  rw [decode_eq_error_iff, opcodeMap_eq_none_iff, takesFinal_iff]
  rfl

/-- Settles O3: each word is the encoding of its command. -/
theorem tableWordsDecodeToTheirCommands : Obligations.TableWordsDecodeToTheirCommands := by
  refine ⟨?_, ?_, ?_, ?_, ?_, ?_, ?_, ?_, ?_⟩
  all_goals exact (decodeIsTheInverseOfEncode _ _).mpr rfl

/-! ### The turn on an Illegal word (40 R188, 60 R443) -/

/-- The engine's turn on an Illegal word (60 R443 step 1). -/
theorem engineTurn_illegal {s : State} {e : Illegal} (hb : s.busy = true) (he : decode s.cmdLatch = .error e) :
    engineTurn s = .next (raised .illegalCommand s) := by
  simp only [engineTurn, hb, if_true, completion, fetchWord, he]
  rfl

/-- Settles O5: whichever way the engine's turn comes, it raises IllegalCommand. -/
theorem illegalWordCompletesWithIllegalCommand : Obligations.IllegalWordCompletesWithIllegalCommand := by
  intro s e hb he
  exact ⟨fun hin => (step_of_inputs_nil hin).trans (engineTurn_illegal hb he), fun rest hin =>
    (step_of_inputs_engine hin).trans (engineTurn_illegal (s := { s with inputs := rest }) hb he)⟩

/-! ### Frames (30 R146) -/

/-- What each command's effects leave of IV, the hash context and DIGEST (30 R146). -/
theorem kept_of_afterSpec {i : Instr} {s a : State} (h : AfterSpec i s a) :
    (¬ (0x03 ≤ opNumber i ∧ opNumber i ≤ 0x0A) → i ≠ .clear → a.iv = s.iv) ∧
    (opNumber i ≤ 0x11 → a.hs = s.hs ∧ a.hmode = s.hmode ∧ a.opad = s.opad) ∧
    (i ≠ .shaFinal → i ≠ .hmacFinal → i ≠ .clear → a.digest = s.digest) ∧
    (i = .shaUpdate ∨ i = .hmacUpdate → a.hmode = s.hmode ∧ a.opad = s.opad) ∧
    (i = .shaFinal → a.opad = s.opad) := by
  cases i with
  | ecbEnc f | ecbDec f | gcmEnc | gcmDec =>
    obtain rfl := h
    simp
  | cbcEnc f | cbcDec f | cfbEnc f | cfbDec f | ofbEnc f | ofbDec f | ctrEnc f | ctrDec f =>
    obtain ⟨v, rfl⟩ := h
    simp [opNumber, Instr.fields]
  | shaInit | hmacInit =>
    obtain rfl := h
    simp [opNumber, Instr.fields]
  | shaUpdate | hmacUpdate =>
    obtain ⟨-, -, rfl⟩ := h
    simp [opNumber, Instr.fields]
  | shaFinal | hmacFinal | hmacVerify =>
    obtain ⟨-, rfl⟩ := h
    simp [opNumber, Instr.fields]
  | clear => simp [opNumber, Instr.fields]

/-- Settles O28: an error leaves all of this but VERIFY_OK, which it clears; a success leaves what the command's effects leave. -/
theorem commandsKeepTheirFrame : Obligations.CommandsKeepTheirFrame := by
  intro i s t h
  have hkey : i ≠ .clear → t.key = s.key ∧ t.ivw = s.ivw := fun hi =>
    (key_ivw_of_exec h).resolve_right fun hclear => hi hclear.1
  rcases exec_cases h with ⟨e, -, -, rfl⟩ | ⟨q, -, -, -, ha, rfl⟩
  · simp
  · have hverify : i ≠ .hmacVerify → q.after.verifyOk = s.verifyOk := fun hi =>
      (verifyOk_of_afterSpec ha).resolve_right fun hv => hi hv.1
    obtain ⟨hkeysz, hirq, -, -, -, hovr, hsrc, hsrcLen, hdst, haad, haadLen, hnonce, hnonceLen, hlatch, -, hplatform, hinputs,
      hobserved, hdraws, hunobserved, hunflushed, -⟩ := ha.frame
    obtain ⟨hiv, hhash, hdigest, hupdate, hfinal⟩ := kept_of_afterSpec ha
    exact ⟨⟨hkeysz, hirq, hovr, hsrc, hsrcLen, hdst, haad, haadLen, hnonce, hnonceLen, hlatch, hplatform, hinputs,
      hobserved, hdraws, hunobserved, hunflushed⟩, hkey, hiv, hhash, hdigest, hupdate, hfinal, fun hi => .inl (hverify hi)⟩

end Sys2Proof.Proofs
end

section
/-! SUPPORT. The checks of 60 R443 as conditions on the state against the checks the plans make: each lemma reads one check of
the model as its step of the check order. -/

namespace Sys2Proof.Proofs

open Sys2Proof Sys2Proof.Machine Sys2Proof.Claims

/-! ### The ten mode commands (30 R143) -/

/-- The mode commands are the commands with OP up to 0x0A. -/
theorem mode_of_opNumber_le {i : Instr} (h : opNumber i ≤ 0x0A) : ∃ c ∈ modeCommands, ∃ f, i = c f := by
  cases i with
  | gcmEnc | gcmDec | shaInit | shaUpdate | shaFinal | hmacInit | hmacUpdate | hmacFinal | hmacVerify | clear =>
    exact absurd h (by decide)
  | _ f => exact ⟨_, by simp [modeCommands], f, rfl⟩

theorem opNumber_le_of_mode {c : Bool → Instr} (hc : c ∈ modeCommands) (f : Bool) : opNumber (c f) ≤ 0x0A := by
  simp only [modeCommands, List.mem_cons, List.not_mem_nil, or_false] at hc
  rcases hc with rfl | rfl | rfl | rfl | rfl | rfl | rfl | rfl | rfl | rfl <;> decide +revert

theorem inRanges_of_mode {c : Bool → Instr} (hc : c ∈ modeCommands) (f : Bool) (s : State) :
    inRanges (c f) s = [(s.srcAddr.toNat, s.srcLen.toNat)] := by
  simp only [modeCommands, List.mem_cons, List.not_mem_nil, or_false] at hc
  rcases hc with rfl | rfl | rfl | rfl | rfl | rfl | rfl | rfl | rfl | rfl <;> rfl

/-! ### Each check as its step -/

theorem hmode_eq_sha_of_not_sequenceFails {i : Instr} {s : State} (hi : i = .shaUpdate ∨ i = .shaFinal)
    (h : ¬ sequenceFails i s) : s.hmode = .sha :=
  not_not.mp fun hm => h (.inl ⟨hi, hm⟩)

theorem hmode_eq_hmac_of_not_sequenceFails {i : Instr} {s : State} (hi : i = .hmacUpdate ∨ i = .hmacFinal ∨ i = .hmacVerify)
    (h : ¬ sequenceFails i s) : s.hmode = .hmac :=
  not_not.mp fun hm => h (.inr ⟨hi, hm⟩)

theorem keyOk_of_not_keyFails {i : Instr} {s : State} (hi : opNumber i ≤ 0x11) (h : ¬ keyFails i s) : keyOk s = true :=
  (keyOk_iff s).mpr fun hk => h ⟨hi, hk⟩

/-- Only ECB_ENC and ECB_DEC use no IV, the mode commands below OP 0x03. -/
theorem ivFails_of_mode_iff {c : Bool → Instr} (hc : c ∈ modeCommands) (f : Bool) (s : State) :
    ivFails (c f) s ↔ usesIv (c f) = true ∧ ivValid s = false := by
  have huses : usesIv (c f) = true ↔ 0x03 ≤ opNumber (c f) := by
    simp only [modeCommands, List.mem_cons, List.not_mem_nil, or_false] at hc
    rcases hc with rfl | rfl | rfl | rfl | rfl | rfl | rfl | rfl | rfl | rfl <;> decide +revert
  rw [ivFails, huses, ne_eq, ← ivValid_iff, Bool.not_eq_true, and_iff_right (opNumber_le_of_mode hc f)]

theorem lengthFails_of_mode_iff {c : Bool → Instr} (hc : c ∈ modeCommands) (f : Bool) (s : State) :
    lengthFails (c f) s ↔ modeLenOk (c f) (srcN s) = false := by
  simp only [modeCommands, List.mem_cons, List.not_mem_nil, or_false] at hc
  rcases hc with rfl | rfl | rfl | rfl | rfl | rfl | rfl | rfl | rfl | rfl
  · exact (encLenOk_false_iff f s).symm
  · exact (decLenOk_false_iff f s).symm
  · exact (encLenOk_false_iff f s).symm
  · exact (decLenOk_false_iff f s).symm
  all_goals exact (streamLenOk_false_iff f s).symm

/-- Step 7 of a command whose only input is the source range. -/
theorem inputFails_iff_of_source {i : Instr} {s : State} (h : inRanges i s = [(s.srcAddr.toNat, s.srcLen.toNat)]) :
    inputFails i s ↔ srcOk s = false := by
  simp [inputFails, h, srcOk]

theorem inputFails_of_gcm_iff {i : Instr} (hi : i = .gcmEnc ∨ i = .gcmDec) (s : State) :
    inputFails i s ↔ srcOk s = false ∨ aadOk s = false ∨ nonceOk s = false := by
  rcases hi with rfl | rfl <;> simp [inputFails, inRanges, srcOk, aadOk, nonceOk]

theorem stripsPadding_eq_true_iff {i : Instr} : stripsPadding i = true ↔ i = .ecbDec true ∨ i = .cbcDec true := by
  cases i <;> simp [stripsPadding]

theorem exists_unpad_of_endsInPad {m : List Byte} {p : Nat} (h : endsInPad m p) : ∃ out, unpad m = some out := by
  obtain ⟨hpos, hle, hlen, hbytes⟩ := h
  exact ⟨_, unpad_eq_some hpos hle hlen hbytes⟩

/-- Step 8: what a command strips is a padding. -/
theorem exists_unpadIf_of_not_paddingFails {i : Instr} {s : State} (h : ¬ paddingFails i s) :
    ∃ out, unpadIf (stripsPadding i) (modeTransform i (cipherE s) (cipherD s) (ivBlock s) (srcBytes s)).1 = some out := by
  cases hs : stripsPadding i with
  | false => exact ⟨_, rfl⟩
  | true =>
    simp only [paddingFails, not_or, not_and, not_forall, not_not] at h
    obtain ⟨hecb, hcbc⟩ := h
    rcases stripsPadding_eq_true_iff.mp hs with rfl | rfl
    · obtain ⟨p, hp⟩ := hecb rfl
      exact exists_unpad_of_endsInPad hp
    · obtain ⟨p, hp⟩ := hcbc rfl
      exact exists_unpad_of_endsInPad hp

/-! ### Plans whose checks pass -/

/-- A mode command that fails none of the steps 3 to 8 has a plan. -/
theorem exists_plan_of_mode {c : Bool → Instr} (hc : c ∈ modeCommands) {f : Bool} {s : State} (h : checksPass (c f) s) :
    ∃ q, planOf (c f) s = .ok q := by
  obtain ⟨-, hkey, hiv, -, hlen, hin, hpad, -, -⟩ := h
  rw [ivFails_of_mode_iff hc, not_and, Bool.not_eq_false] at hiv
  rw [lengthFails_of_mode_iff hc, Bool.not_eq_false] at hlen
  rw [inputFails_iff_of_source (inRanges_of_mode hc f s), Bool.not_eq_false] at hin
  obtain ⟨out, hout⟩ := exists_unpadIf_of_not_paddingFails hpad
  have hop : opNumber (c f) ≤ 0x11 := (opNumber_le_of_mode hc f).trans (by decide)
  simp only [planOf_mode hc, modeChecks_ok, hout]
  exact ⟨_, keyOk_of_not_keyFails hop hkey, hiv, hlen, hin, rfl⟩

/-- A GCM command that fails none of the steps 3 to 7 goes on to its plan. -/
theorem gcmChecks_of_checksPass {i : Instr} (hi : i = .gcmEnc ∨ i = .gcmDec) {s : State} (h : checksPass i s) {l : Bool}
    (hl : ¬ lengthFails i s → l = true) (k : Except ErrCode Plan) : gcmChecks l s k = k := by
  obtain ⟨-, hkey, -, hnonce, hlen, hin, -, -, -⟩ := h
  rw [inputFails_of_gcm_iff hi] at hin
  have hop : opNumber i ≤ 0x11 := by rcases hi with rfl | rfl <;> decide
  have hnonce0 : s.nonceLen ≠ 0 := fun h0 => hnonce ⟨hi, h0⟩
  rw [gcmChecks_eq, if_neg ((keyOk_iff s).mp (keyOk_of_not_keyFails hop hkey)), if_neg hnonce0, hl hlen,
    if_neg (by decide), if_neg hin]

/-- An UPDATE command that fails none of the steps 2, 6 and 7 goes on to its plan. -/
theorem updateChecks_of_checksPass {i : Instr} {o : HMode}
    (hi : (i = .shaUpdate ∧ o = .sha) ∨ (i = .hmacUpdate ∧ o = .hmac))
    {s : State} (h : checksPass i s) (k : Except ErrCode Plan) : updateChecks o s k = k := by
  obtain ⟨hseq, -, -, -, hlen, hin, -, -, -⟩ := h
  have howner : s.hmode = o := by
    rcases hi with ⟨hi, rfl⟩ | ⟨hi, rfl⟩
    · exact hmode_eq_sha_of_not_sequenceFails (.inl hi) hseq
    · exact hmode_eq_hmac_of_not_sequenceFails (.inl hi) hseq
  have hbits : ¬ 2 ^ 64 - 1 < s.hs.bitlen.toNat + 8 * srcN s := by
    rcases hi with ⟨rfl, -⟩ | ⟨rfl, -⟩ <;> exact hlen
  have hsource : ¬ srcOk s = false := by
    rcases hi with ⟨rfl, -⟩ | ⟨rfl, -⟩ <;> rwa [inputFails_iff_of_source rfl] at hin
  rw [updateChecks_eq, if_neg (not_not.mpr howner), if_neg hbits, if_neg hsource]

/-- A command whose checks pass has a plan, and no tag verdict stops it. -/
theorem exists_plan_of_checksPass {i : Instr} {s : State} (h : checksPass i s) :
    ∃ q, planOf i s = .ok q ∧ q.authentic = true := by
  have ⟨hseq, _, _, _, hlen, hin, _, _, htag⟩ := h
  cases i with
  | gcmEnc =>
    have hl : ¬ lengthFails .gcmEnc s → decide (srcN s + 16 ≤ maxLen) = true := fun hn => decide_eq_true (not_lt.mp hn)
    exact ⟨_, gcmChecks_of_checksPass (.inl rfl) h hl _, rfl⟩
  | gcmDec =>
    have hl : ¬ lengthFails .gcmDec s → decide (16 ≤ srcN s) = true := fun hn => decide_eq_true (not_lt.mp hn)
    have hequal : gcmDecTag s = gcmTag (cipherE s) (nonceBytes s) (aadBytes s) (gcmDecText s) :=
      not_not.mp fun hne => htag ⟨rfl, hne⟩
    exact ⟨_, gcmChecks_of_checksPass (.inr rfl) h hl _, (tagEqual_iff (congrArg List.length hequal)).mpr hequal⟩
  | shaInit | clear => exact ⟨_, rfl, rfl⟩
  | shaUpdate => exact ⟨_, updateChecks_of_checksPass (.inl ⟨rfl, rfl⟩) h _, rfl⟩
  | hmacUpdate => exact ⟨_, updateChecks_of_checksPass (.inr ⟨rfl, rfl⟩) h _, rfl⟩
  | shaFinal =>
    have howner := hmode_eq_sha_of_not_sequenceFails (.inr rfl) hseq
    exact ⟨_, require_ok.mpr ⟨beq_iff_eq.mpr howner, rfl⟩, rfl⟩
  | hmacFinal =>
    have howner := hmode_eq_hmac_of_not_sequenceFails (.inr (.inl rfl)) hseq
    exact ⟨_, require_ok.mpr ⟨beq_iff_eq.mpr howner, rfl⟩, rfl⟩
  | hmacInit =>
    rw [inputFails_iff_of_source rfl, Bool.not_eq_false] at hin
    exact ⟨_, require_ok.mpr ⟨hin, rfl⟩, rfl⟩
  | hmacVerify =>
    have howner := hmode_eq_hmac_of_not_sequenceFails (.inr (.inr rfl)) hseq
    rw [inputFails_iff_of_source rfl, Bool.not_eq_false] at hin
    exact ⟨_, require_ok.mpr ⟨beq_iff_eq.mpr howner, require_ok.mpr ⟨beq_iff_eq.mpr (not_not.mp hlen),
      require_ok.mpr ⟨hin, rfl⟩⟩⟩, rfl⟩
  | _ f =>
    obtain ⟨q, hq⟩ := exists_plan_of_mode (by simp [modeCommands]) h
    exact ⟨q, hq, planOf_authentic hq (by simp)⟩

end Sys2Proof.Proofs
end

section
/-! SUPPORT. The command cycle (40 R188 to R195): what a completion with an error and one with success leave, CLEAR, and the
independence of the cipher and the hash unit. -/

namespace Sys2Proof.Proofs

open Sys2Proof Sys2Proof.Machine Sys2Proof.Claims

/-! ### Errors and success (40 R188, R189, 60 R442) -/

/-- Settles O24: a success leaves ERR as it was, so the completion took the one shared way of an error. -/
theorem errorsChangeNothingElse : Obligations.ErrorsChangeNothingElse := by
  intro i s t hok h herr
  rcases exec_cases h with ⟨e, -, -, rfl⟩ | ⟨q, -, -, -, ha, rfl⟩
  · rfl
  · obtain ⟨-, -, -, hsame, -⟩ := ha.frame
    exact absurd (hsame.trans hok) herr

/-- Settles O26: the plan exists, its output range is the one step 9 checked, and carrying it out sets OUT_LEN. -/
theorem commandsThatPassTheChecksComplete : Obligations.CommandsThatPassTheChecksComplete := by
  intro i s h
  obtain ⟨q, hq, hauth⟩ := exists_plan_of_checksPass h
  obtain ⟨-, -, -, -, -, -, -, hout, -⟩ := h
  have hlen : q.out.length = outLength i s := planOf_length hq
  have hrange : rangeOk s.platform s.dstAddr.toNat q.out.length = true := by
    rw [hlen]
    exact (Bool.not_eq_false _).mp hout
  obtain ⟨-, -, -, herr, -⟩ := (planOf_after hq).frame
  refine ⟨_, exec_of_plan hq hrange hauth, rfl, rfl, herr, ?_, fun hi => ?_⟩
  · rw [finish_outLen, writeOut_outLen, BitVec.toNat_ofNat, Nat.mod_eq_of_lt (planOf_length_lt hq), hlen]
  · exact (verifyOk_of_afterSpec (planOf_after hq)).resolve_right fun hv => hi hv.1

/-! ### CLEAR (40 R195) -/

theorem writeOut_nil (s : State) : writeOut [] s = { s with outLen := 0 } := by
  simp [writeOut, maintenanceDue]

/-- Settles O59: CLEAR has no check that can fail, and its empty output writes OUT_LEN alone. -/
theorem clearErasesEverySecret : Obligations.ClearErasesEverySecret := by
  intro s
  have hplan : planOf .clear s = .ok ⟨[], true, clearSecrets s⟩ := rfl
  rw [exec_of_plan hplan (rangeOk_zero _ _) rfl, writeOut_nil]
  rfl

/-! ### The independence of the units (40 R192) -/

/-- The state with another hash unit: HS, HMODE, OPAD and DIGEST. -/
def withHashUnit (h : HashState) (m : HMode) (o : Vector Byte 64) (d : Vector Word 8) (s : State) : State :=
  { s with hs := h, hmode := m, opad := o, digest := d }

/-- The state with another cipher unit: KEY, KEYSZ, IV0..3 and IVW. -/
def withCipherUnit (k : Vector Word 8) (z : BitVec 2) (v : Vector Word 4) (w : BitVec 4) (s : State) : State :=
  { s with key := k, keysz := z, iv := v, ivw := w }

/-- A change of state that the shared end of every completion neither sees nor touches. -/
structure PassesThroughCompletion (g : State → State) : Prop where
  platform : ∀ s, (g s).platform = s.platform
  dstAddr : ∀ s, (g s).dstAddr = s.dstAddr
  raiseError : ∀ e s, raiseError e (g s) = g (raiseError e s)
  writeOut : ∀ out s, writeOut out (g s) = g (writeOut out s)
  finish : ∀ s, finish (g s) = g (finish s)

theorem withHashUnit_passes (h : HashState) (m : HMode) (o : Vector Byte 64) (d : Vector Word 8) :
    PassesThroughCompletion (withHashUnit h m o d) :=
  ⟨fun _ => rfl, fun _ => rfl, fun _ _ => rfl, fun _ _ => rfl, fun _ => rfl⟩

theorem withCipherUnit_passes (k : Vector Word 8) (z : BitVec 2) (v : Vector Word 4) (w : BitVec 4) :
    PassesThroughCompletion (withCipherUnit k z v w) :=
  ⟨fun _ => rfl, fun _ => rfl, fun _ _ => rfl, fun _ _ => rfl, fun _ => rfl⟩

/-- A plan with a change made to the state it ends in. -/
def changeAfter (g : State → State) : Except ErrCode Plan → Except ErrCode Plan :=
  Except.map fun q => { q with after := g q.after }

section
variable {g : State → State}

theorem require_changeAfter (c : Bool) (e : ErrCode) (p : Except ErrCode Plan) :
    require c e (changeAfter g p) = changeAfter g (require c e p) := by
  cases c <;> rfl

theorem unpadded_changeAfter (a : State) (o : Option (List Byte)) : unpadded (g a) o = changeAfter g (unpadded a o) := by
  cases o <;> rfl

theorem conclude_changeAfter (hg : PassesThroughCompletion g) (s : State) (p : Except ErrCode Plan) :
    conclude (g s) (changeAfter g p) = g (conclude s p) := by
  cases p with
  | error e => exact hg.raiseError e s
  | ok q =>
    simp only [changeAfter, Except.map, conclude, hg.platform, hg.dstAddr, hg.raiseError, hg.writeOut, apply_ite g]

/-- If the change passes through a command's plan, it passes through its completion. -/
theorem exec_of_planOf_changeAfter (hg : PassesThroughCompletion g) {i : Instr} {s t : State}
    (hplan : planOf i (g s) = changeAfter g (planOf i s)) (h : exec i s = .next t) : exec i (g s) = .next (g t) := by
  rw [exec_next_iff] at h ⊢
  rw [h, hplan, conclude_changeAfter hg, hg.finish]

end

section
variable (h : HashState) (m : HMode) (o : Vector Byte 64) (d : Vector Word 8)

theorem modeChecks_withHashUnit (u l : Bool) (s : State) (p : Except ErrCode Plan) :
    modeChecks u l (withHashUnit h m o d s) (changeAfter (withHashUnit h m o d) p) =
      changeAfter (withHashUnit h m o d) (modeChecks u l s p) := by
  simp only [modeChecks, require_changeAfter]
  rfl

theorem gcmChecks_withHashUnit (l : Bool) (s : State) (p : Except ErrCode Plan) :
    gcmChecks l (withHashUnit h m o d s) (changeAfter (withHashUnit h m o d) p) =
      changeAfter (withHashUnit h m o d) (gcmChecks l s p) := by
  simp only [gcmChecks, require_changeAfter]
  rfl

/-- Mode and GCM commands neither read nor write the hash unit. -/
theorem planOf_withHashUnit {i : Instr} (hi : opNumber i ≤ 0x11) (s : State) :
    planOf i (withHashUnit h m o d s) = changeAfter (withHashUnit h m o d) (planOf i s) := by
  by_cases hmode : opNumber i ≤ 0x0A
  · obtain ⟨c, hc, f, rfl⟩ := mode_of_opNumber_le hmode
    rw [planOf_mode hc, planOf_mode hc, ← modeChecks_withHashUnit, ← unpadded_changeAfter]
    rfl
  · cases i with
    | gcmEnc | gcmDec =>
      simp only [planOf, planGcmEnc, planGcmDec, ← gcmChecks_withHashUnit]
      rfl
    | shaInit | shaUpdate | shaFinal | hmacInit | hmacUpdate | hmacFinal | hmacVerify | clear => exact absurd hi (by decide)
    | _ f => exact absurd (opNumber_le_of_mode (by simp [modeCommands]) f) hmode

end

section
variable (k : Vector Word 8) (z : BitVec 2) (v : Vector Word 4) (w : BitVec 4)

theorem updateChecks_withCipherUnit (owner : HMode) (s : State) (p : Except ErrCode Plan) :
    updateChecks owner (withCipherUnit k z v w s) (changeAfter (withCipherUnit k z v w) p) =
      changeAfter (withCipherUnit k z v w) (updateChecks owner s p) := by
  simp only [updateChecks, require_changeAfter]
  rfl

/-- Hash and HMAC commands neither read nor write the cipher unit. -/
theorem planOf_withCipherUnit {i : Instr} (hlo : 0x20 ≤ opNumber i) (hhi : opNumber i ≤ 0x2B) (s : State) :
    planOf i (withCipherUnit k z v w s) = changeAfter (withCipherUnit k z v w) (planOf i s) := by
  cases i with
  | shaInit => rfl
  | shaUpdate | hmacUpdate =>
    simp only [planOf, planShaUpdate, planHmacUpdate, ← updateChecks_withCipherUnit]
    rfl
  | shaFinal | hmacInit | hmacFinal | hmacVerify =>
    simp only [planOf, planShaFinal, planHmacInit, planHmacFinal, planHmacVerify, ← require_changeAfter]
    rfl
  | gcmEnc | gcmDec => exact absurd hlo (by decide)
  | clear => exact absurd hhi (by decide)
  | _ f => exact absurd (hlo.trans (opNumber_le_of_mode (by simp [modeCommands]) f)) (by decide)

end

/-- Settles O60: the other unit's contents pass through the plan, and so through the completion. -/
theorem cipherAndHashUnitsAreIndependent : Obligations.CipherAndHashUnitsAreIndependent := fun _ s _ hexec =>
  ⟨fun hi h m o d => exec_of_planOf_changeAfter (withHashUnit_passes h m o d) (planOf_withHashUnit h m o d hi s) hexec,
    fun hlo hhi k z v w =>
      exec_of_planOf_changeAfter (withCipherUnit_passes k z v w) (planOf_withCipherUnit k z v w hlo hhi s) hexec⟩

end Sys2Proof.Proofs
end

section
/-! SUPPORT. The mode commands piece by piece (41 R240 to R261): what one of the ten answers when its checks pass, in the words of
the statements, and each transform's pieces and next chaining value. -/

namespace Sys2Proof.Proofs

open Sys2Proof Sys2Proof.Machine Sys2Proof.Claims

/-! ### The IV registers (10 R46, 41 R232) -/

theorem ivNumber_eq_ivBlock (s : State) : ivNumber s = ivBlock s := (ivBlock_eq_append s).symm

theorem setIv_eq_ivWords (v : Block) (s : State) : setIv v s = { s with iv := ivWords v } := by
  simp only [setIv, wordAt_ofBlock v, Nat.reduceLT]
  rfl

theorem ivWords_ivBlock (s : State) : ivWords (ivBlock s) = s.iv := by
  have h := congrArg State.iv (setIv_ivBlock s)
  rwa [setIv_eq_ivWords] at h

/-! ### Completions of the mode commands (40 R188, R189) -/

/-- Step 6 of a mode command, where it passes. -/
theorem not_lengthFails_of_mode_iff {c : Bool → Instr} (hc : c ∈ modeCommands) {f : Bool} {s : State} :
    ¬ lengthFails (c f) s ↔ modeLenOk (c f) (srcN s) = true := by
  rw [lengthFails_of_mode_iff hc, Bool.not_eq_false]

section
variable {c : Bool → Instr} (hc : c ∈ modeCommands) {f : Bool} {s : State} {m : List Byte} (hkey : s.keysz ≠ 3)
  (hiv : usesIv (c f) = true → s.ivw = 0b1111) (hlen : ¬ lengthFails (c f) s) (hsrc : srcOk s = true)
  (hm : (modeTransform (c f) (cipherE s) (cipherD s) (ivBlock s) (srcBytes s)).1 = m)
include hc hkey hiv hlen hsrc hm

/-- A mode command that passes its checks writes what is left of its transform's bytes, and the next chaining value. -/
theorem completesIn_of_mode {v : Block} {out : List Byte}
    (hv : (modeTransform (c f) (cipherE s) (cipherD s) (ivBlock s) (srcBytes s)).2 = v)
    (hout : unpadIf (stripsPadding (c f)) m = some out) (hdst : dstOk s out.length = true) :
    completesIn (c f) s { written out s with iv := ivWords v } := by
  subst hm hv
  rw [not_lengthFails_of_mode_iff hc] at hlen
  have h := mode_next hc ((keyOk_iff s).mpr hkey) (fun hu => (ivValid_iff s).mpr (hiv hu)) hlen hsrc hout hdst
  rw [setIv_eq_ivWords] at h
  exact ⟨_, h⟩

/-- A mode command that passes its checks up to step 7 and finds no padding to strip. -/
theorem exec_mode_of_unpadIf_none (hnone : unpadIf (stripsPadding (c f)) m = none) :
    exec (c f) s = .next (raised .invalidPadding s) := by
  subst hm
  rw [not_lengthFails_of_mode_iff hc] at hlen
  refine exec_of_error ?_
  rw [planOf_mode hc, hnone, modeChecks_eq, if_neg hkey, if_neg (fun h => h.2 (hiv h.1)), if_neg (by simp [hlen]),
    if_neg (by simp [hsrc])]
  rfl

end

/-! ### Padding (40 R182, R183) -/

theorem unpad_of_endsInPad {m : List Byte} {p : Nat} (h : endsInPad m p) : unpad m = some (m.take (m.length - p)) := by
  obtain ⟨hpos, hle, hlen, hbytes⟩ := h
  exact unpad_eq_some hpos hle hlen hbytes

theorem unpad_of_not_endsInPad {m : List Byte} (hm : 16 ≤ m.length) (h : ∀ p, ¬ endsInPad m p) : unpad m = none := by
  rw [Option.eq_none_iff_forall_ne_some]
  intro out hout
  obtain ⟨p, hpos, hle, hbytes, -⟩ := unpad_some hout
  exact h p ⟨hpos, hle, hle.trans hm, hbytes⟩

/-- Where the length rule of ECB_ENC and CBC_ENC holds, what they encrypt is whole blocks. -/
theorem padded_length_mod {final : Bool} {s : State} (h : encLenOk final (srcN s) = true) :
    (if final then padded (srcBytes s) else srcBytes s).length % 16 = 0 :=
  padIf_length_mod final fun hf => (srcBytes_length s).symm ▸ ((encLenOk_iff _ _).mp h).2 hf

/-- ECB_DEC and CBC_DEC on whole blocks: with FINAL = 0 all bytes are written, with FINAL = 1 those before
the padding, or none. -/
theorem decryption_outcomes {c : Bool → Instr} (hc : c = .ecbDec ∨ c = .cbcDec) {s : State} {m : List Byte} {v : Block}
    (hkey : s.keysz ≠ 3) (hiv : ∀ f, usesIv (c f) = true → s.ivw = 0b1111) (hsrc : srcOk s = true) (hmod : srcN s % 16 = 0)
    (hm : ∀ f, (modeTransform (c f) (cipherE s) (cipherD s) (ivBlock s) (srcBytes s)).1 = m)
    (hv : ∀ f, (modeTransform (c f) (cipherE s) (cipherD s) (ivBlock s) (srcBytes s)).2 = v) (hlength : m.length = srcN s) :
    (dstOk s (srcN s) = true → completesIn (c false) s { written m s with iv := ivWords v }) ∧
    (∀ p, 16 ≤ srcN s → endsInPad m p → dstOk s (srcN s - p) = true →
      completesIn (c true) s { written (m.take (srcN s - p)) s with iv := ivWords v }) ∧
    (16 ≤ srcN s → (∀ p, ¬ endsInPad m p) → exec (c true) s = .next (raised .invalidPadding s)) := by
  have hmode : c ∈ modeCommands := by rcases hc with rfl | rfl <;> simp [modeCommands]
  have hstrips : ∀ f, stripsPadding (c f) = f := by rcases hc with rfl | rfl <;> exact fun _ => rfl
  have hlen : ∀ f, (f = true → 16 ≤ srcN s) → ¬ lengthFails (c f) s := fun f h16 => by
    have hok : decLenOk f (srcN s) = true := (decLenOk_iff f _).mpr ⟨hmod, h16⟩
    rw [not_lengthFails_of_mode_iff hmode]
    rcases hc with rfl | rfl <;> exact hok
  refine ⟨fun hdst => ?_, fun p h16 hpad hdst => ?_, fun h16 hnone => ?_⟩
  · refine completesIn_of_mode hmode hkey (hiv _) (hlen _ (by simp)) hsrc (hm _) (hv _) ?_ (by rwa [hlength])
    rw [hstrips]
    rfl
  · refine completesIn_of_mode hmode hkey (hiv _) (hlen _ fun _ => h16) hsrc (hm _) (hv _) ?_ ?_
    · rw [hstrips, ← hlength]
      exact unpad_of_endsInPad hpad
    · rwa [List.length_take, hlength, min_eq_left (Nat.sub_le _ _)]
  · refine exec_mode_of_unpadIf_none hmode hkey (hiv _) (hlen _ fun _ => h16) hsrc (hm _) ?_
    rw [hstrips]
    exact unpad_of_not_endsInPad (by rwa [hlength]) hnone

/-! ### ECB (41 R240, R241) -/

/-- Settles O30: ECB's blocks, with nothing to strip and the old IV written back. -/
theorem ecbEncEncryptsEachBlock : Obligations.EcbEncEncryptsEachBlock := by
  rintro final s m hkey hsrc hlen rfl hdst
  have hmode : Instr.ecbEnc ∈ modeCommands := by simp [modeCommands]
  have hmod := padded_length_mod ((not_lengthFails_of_mode_iff hmode).mp hlen)
  refine ⟨ecb (cipherE s) (blocks _), ?_, ecb_blocks_length hmod _, ecb_piece _ hmod⟩
  have h := completesIn_of_mode hmode (v := ivBlock s) hkey (fun hu => absurd hu Bool.false_ne_true) hlen hsrc rfl rfl rfl
    ((ecb_blocks_length hmod _).symm ▸ hdst)
  rwa [ivWords_ivBlock] at h

/-- Settles O31: ECB's blocks, then the three outcomes of stripping, with the old IV written back. -/
theorem ecbDecDecryptsEachBlock : Obligations.EcbDecDecryptsEachBlock := by
  intro s hkey hsrc hmod
  have hbytes : (srcBytes s).length % 16 = 0 := by rwa [srcBytes_length]
  have hlength : (ecb (cipherD s) (blocks (srcBytes s))).length = srcN s := by
    rw [ecb_blocks_length hbytes, srcBytes_length]
  have h := decryption_outcomes (.inl rfl) (v := ivBlock s) hkey (fun _ hu => absurd hu Bool.false_ne_true) hsrc hmod
    (fun _ => rfl) (fun _ => rfl) hlength
  rw [ivWords_ivBlock] at h
  exact ⟨_, hlength, fun i hi => ecb_piece _ hbytes i (by rwa [srcBytes_length]), h⟩

/-! ### CBC (41 R245, R246) -/

theorem cbcEncrypt_blocks_length (e : Block → Block) (v : Block) {bs : List Byte} (h : bs.length % 16 = 0) :
    (cbcEncrypt e v (blocks bs)).1.length = bs.length := by
  rw [cbcEncrypt_length, blocks_length]
  omega

/-- Settles O32: CBC's blocks, the last of which is the next chaining value. -/
theorem cbcEncChainsCiphertext : Obligations.CbcEncChainsCiphertext := by
  rintro final s m ⟨hkey, hiv, hsrc⟩ hlen rfl hdst
  have hmode : Instr.cbcEnc ∈ modeCommands := by simp [modeCommands]
  have hmod := padded_length_mod ((not_lengthFails_of_mode_iff hmode).mp hlen)
  have hlength := cbcEncrypt_blocks_length (cipherE s) (ivBlock s) hmod
  rw [ivNumber_eq_ivBlock]
  exact ⟨_, hlength, cbcEncrypt_piece _ _ hmod, completesIn_of_mode hmode hkey (fun _ => hiv) hlen hsrc rfl
    (cbcEncrypt_last _ _ hmod) rfl (hlength.symm ▸ hdst)⟩

/-- Settles O33: CBC's blocks, then the three outcomes of stripping; the next chaining value is the last block read. -/
theorem cbcDecChainsCiphertext : Obligations.CbcDecChainsCiphertext := by
  rintro s ⟨hkey, hiv, hsrc⟩ hmod
  have hbytes : (srcBytes s).length % 16 = 0 := by rwa [srcBytes_length]
  have hlength : (cbcDecrypt (cipherD s) (ivBlock s) (blocks (srcBytes s))).1.length = srcN s := by
    rw [cbcDecrypt_length, blocks_length, srcBytes_length]
    omega
  have hlast := cbcDecrypt_last (cipherD s) (ivBlock s) hbytes
  rw [srcBytes_length] at hlast
  rw [ivNumber_eq_ivBlock]
  exact ⟨_, hlength, fun i hi => cbcDecrypt_piece _ _ hbytes i (by rwa [srcBytes_length]),
    decryption_outcomes (.inr rfl) hkey (fun _ _ => hiv) hsrc hmod (fun _ => rfl) (fun _ => hlast) hlength⟩

/-! ### CFB, OFB and CTR (41 R250 to R261) -/

/-- A command with the length rule of CFB, OFB and CTR writes all its bytes and the next chaining value. -/
theorem completesIn_of_stream {c : Bool → Instr} (hc : c ∈ modeCommands) {final : Bool} {s : State}
    (hrule : modeLenOk (c final) (srcN s) = streamLenOk final (srcN s)) (hstrips : stripsPadding (c final) = false)
    (hs : modeReady s) (hmod : final = false → srcN s % 16 = 0) (hdst : dstOk s (srcN s) = true) {m : List Byte} {v : Block}
    (hm : (modeTransform (c final) (cipherE s) (cipherD s) (ivBlock s) (srcBytes s)).1 = m)
    (hv : (modeTransform (c final) (cipherE s) (cipherD s) (ivBlock s) (srcBytes s)).2 = v) (hlength : m.length = srcN s) :
    completesIn (c final) s { written m s with iv := ivWords v } := by
  obtain ⟨hkey, hiv, hsrc⟩ := hs
  have hlen : ¬ lengthFails (c final) s := by
    rw [not_lengthFails_of_mode_iff hc, hrule]
    exact (streamLenOk_iff final _).mpr hmod
  have hout : unpadIf (stripsPadding (c final)) m = some m := by
    rw [hstrips]
    rfl
  exact completesIn_of_mode hc hkey (fun _ => hiv) hlen hsrc hm hv hout (by rwa [hlength])

/-- Settles O34: CFB's pieces; the feedback after them is the last whole one. -/
theorem cfbEncFeedsBackCiphertext : Obligations.CfbEncFeedsBackCiphertext := by
  intro final s hs hmod hdst
  have hlength := (cfbEncrypt_length (cipherE s) (ivBlock s) (srcBytes s)).trans (srcBytes_length s)
  have hlast := cfbEncrypt_last (cipherE s) (ivBlock s) (srcBytes s)
  rw [srcBytes_length] at hlast
  rw [ivNumber_eq_ivBlock]
  exact ⟨_, hlength, fun i hi => cfbEncrypt_piece _ _ _ i (by rwa [srcBytes_length]),
    completesIn_of_stream (c := .cfbEnc) (by simp [modeCommands]) rfl rfl hs hmod hdst rfl hlast hlength⟩

/-- Settles O35: CFB's pieces; the feedback after them is the last whole input piece. -/
theorem cfbDecFeedsBackInput : Obligations.CfbDecFeedsBackInput := by
  intro final s hs hmod hdst
  have hlength := (cfbDecrypt_length (cipherE s) (ivBlock s) (srcBytes s)).trans (srcBytes_length s)
  have hlast := cfbDecrypt_last (cipherE s) (ivBlock s) (srcBytes s)
  rw [srcBytes_length] at hlast
  rw [ivNumber_eq_ivBlock]
  exact ⟨_, hlength, fun i hi => cfbDecrypt_piece _ _ _ i (by rwa [srcBytes_length]),
    completesIn_of_stream (c := .cfbDec) (by simp [modeCommands]) rfl rfl hs hmod hdst rfl hlast hlength⟩

/-- Settles O36: OFB's pieces; one encryption of the feedback for each. -/
theorem ofbXorsIteratedKeystream : Obligations.OfbXorsIteratedKeystream := by
  intro final s hs hmod hdst
  have hlength := (ofb_length (cipherE s) (ivBlock s) (srcBytes s)).trans (srcBytes_length s)
  have hlast := ofb_last (cipherE s) (ivBlock s) (blocks (srcBytes s))
  rw [blocks_length, srcBytes_length] at hlast
  rw [ivNumber_eq_ivBlock]
  exact ⟨_, hlength, fun i hi => ofb_piece _ _ _ i (by rwa [srcBytes_length]),
    completesIn_of_stream (c := .ofbEnc) (by simp [modeCommands]) rfl rfl hs hmod hdst rfl hlast hlength, rfl⟩

/-- The counter after n pieces, as the 128-bit number that wraps (41 R260). -/
theorem ofNat_counter_add (v : Block) (n : Nat) : BitVec.ofNat 128 ((v.toNat + n) % 2 ^ 128) = v + BitVec.ofNat 128 n := by
  apply BitVec.eq_of_toNat_eq
  simp [BitVec.toNat_add]

/-- Settles O37: CTR's pieces; the counter advances by one for each. -/
theorem ctrXorsCounterKeystream : Obligations.CtrXorsCounterKeystream := by
  intro final s hs hmod hdst
  have hlength := (ctr_length (cipherE s) (ivBlock s) (srcBytes s)).trans (srcBytes_length s)
  have hlast := ctr_last (cipherE s) (ivBlock s) (blocks (srcBytes s))
  rw [blocks_length, srcBytes_length] at hlast
  simp only [ivNumber_eq_ivBlock, ofNat_counter_add]
  exact ⟨_, hlength, fun i hi => ctr_piece _ _ _ i (by rwa [srcBytes_length]),
    completesIn_of_stream (c := .ctrEnc) (by simp [modeCommands]) rfl rfl hs hmod hdst rfl hlast hlength, rfl⟩

end Sys2Proof.Proofs
end

section
/-! SUPPORT. Mode commands one after the other (41 R270 to R272): a message in two segments, and a command that undoes what
another wrote. -/

namespace Sys2Proof.Proofs

open Sys2Proof Sys2Proof.Machine Sys2Proof.Claims

/-! ### Ranges in two parts (20 R101, R106) -/

/-- A valid range does not wrap before its end. -/
theorem toNat_add_of_rangeOk {p : Platform} {a : Word} {k n : Nat} (h : rangeOk p a.toNat (k + n) = true) (hn : n ≠ 0) :
    (a + BitVec.ofNat 32 k).toNat = a.toNat + k := by
  have hle : a.toNat + (k + n) ≤ 2 ^ 32 := rangeOk_le h (by omega)
  rw [BitVec.toNat_add, BitVec.toNat_ofNat]
  omega

theorem memWrite_segments {p : Platform} {a : Word} {x y : List Byte} (h : rangeOk p a.toNat (x ++ y).length = true)
    (m : Memory) :
    memWrite (memWrite m a.toNat x) (a + BitVec.ofNat 32 x.length).toNat y = memWrite m a.toNat (x ++ y) := by
  rw [memWrite_append]
  cases y with
  | nil => rfl
  | cons b y => rw [toNat_add_of_rangeOk (by rwa [List.length_append] at h) (by simp)]

theorem memRead_segments {p : Platform} {a : Word} {k n : Nat} (h : rangeOk p a.toNat (k + n) = true) (m : Memory) :
    memRead m a.toNat k ++ memRead m (a + BitVec.ofNat 32 k).toNat n = memRead m a.toNat (k + n) := by
  rw [memRead_add]
  cases n with
  | zero => rfl
  | succ n => rw [toNat_add_of_rangeOk h (by simp)]

/-! ### What the next command sees -/

theorem ivBlock_injective_iv {s t : State} (h : ivBlock s = ivBlock t) : s.iv = t.iv := by
  rw [← ivWords_ivBlock s, h, ivWords_ivBlock]

/-- Mode command i succeeded from s, wrote `out`, and left t to the next command. -/
structure Succeeds (i : Instr) (s t : State) (out : List Byte) : Prop where
  output : unpadIf (stripsPadding i) (modeTransform i (cipherE s) (cipherD s) (ivBlock s) (srcBytes s)).1 = some out
  memory : t.mem = memWrite s.mem s.dstAddr.toNat out
  length : t.outLen.toNat = out.length
  chaining : ivBlock t = (modeTransform i (cipherE s) (cipherD s) (ivBlock s) (srcBytes s)).2
  sameE : cipherE t = cipherE s
  sameD : cipherD t = cipherD s
  sameSrcLen : t.srcLen = s.srcLen
  samePlatform : t.platform = s.platform
  keyLegal : keyOk t = true
  ivLegal : usesIv i = true → ivValid t = true
  lengthLegal : modeLenOk i (srcN s) = true
  srcValid : srcOk s = true
  dstValid : rangeOk s.platform s.dstAddr.toNat out.length = true

theorem succeeds_of_exec {c : Bool → Instr} (hc : c ∈ modeCommands) {f : Bool} {s t : State} (h : exec (c f) s = .next t)
    (ht : t.err = .ok) : ∃ out, Succeeds (c f) s t out := by
  obtain ⟨q, hq, hdst, -, -, rfl⟩ := exec_ok_inv h ht
  have hlt := planOf_length_lt hq
  rw [planOf_mode hc, modeChecks_ok] at hq
  obtain ⟨hkey, hiv, hlen, hsrc, hq⟩ := hq
  obtain ⟨out, hout, rfl⟩ := unpadded_after hq
  exact ⟨out, {
    output := hout, memory := rfl, length := Nat.mod_eq_of_lt hlt, chaining := ivBlock_setIv _ s, sameE := rfl, sameD := rfl
    sameSrcLen := rfl, samePlatform := rfl, keyLegal := hkey, ivLegal := hiv, lengthLegal := hlen, srcValid := hsrc
    dstValid := hdst }⟩

/-! ### Two segments (41 R230, R270) -/

theorem modeCommands_of_modePairs {p : (Bool → Instr) × (Bool → Instr)} (hp : p ∈ modePairs) :
    p.1 ∈ modeCommands ∧ p.2 ∈ modeCommands := by
  simp only [modePairs, List.mem_cons, List.not_mem_nil, or_false] at hp
  rcases hp with rfl | rfl | rfl | rfl | rfl <;> simp [modeCommands]

/-- With FINAL = 0 a command strips nothing, and whole blocks keep their length. -/
theorem out_of_first_segment {c : Bool → Instr} (hc : c ∈ modeCommands) {e d : Block → Block} {v : Block} {x out : List Byte}
    (hmod : x.length % 16 = 0) (h : unpadIf (stripsPadding (c false)) (modeTransform (c false) e d v x).1 = some out) :
    (modeTransform (c false) e d v x).1 = out ∧ out.length = x.length := by
  rw [stripsPadding_false hc] at h
  obtain rfl : _ = out := Option.some.inj h
  exact ⟨rfl, modeTransform_length_false hc e d v x hmod⟩

/-- What the whole message gives is what the first segment gives, then what the second gives from the IV reached. -/
theorem out_of_segments {c : Bool → Instr} (hc : c ∈ modeCommands) {e d : Block → Block} {v : Block}
    {x₁ x₂ out₁ out₂ : List Byte} (hmod : x₁.length % 16 = 0) (hlen : modeLenOk (c true) x₂.length = true)
    (h₁ : (modeTransform (c false) e d v x₁).1 = out₁)
    (h₂ : unpadIf (stripsPadding (c true)) (modeTransform (c true) e d (modeTransform (c false) e d v x₁).2 x₂).1 = some out₂) :
    unpadIf (stripsPadding (c true)) (modeTransform (c true) e d v (x₁ ++ x₂)).1 = some (out₁ ++ out₂) := by
  rw [modeTransform_append hc e d v x₁ x₂ hmod, h₁]
  rcases stripsPadding_true hc hlen with hstrips | ⟨hstrips, h16, -, hkeeps⟩
  · rw [hstrips] at h₂ ⊢
    exact congrArg (fun y => some (out₁ ++ y)) (Option.some.inj h₂)
  · rw [hstrips] at h₂ ⊢
    exact unpad_append h₂ (by rwa [hkeeps _ _ _ _ rfl])

/-- The first k bytes of the message as the input. -/
def firstSegment (k : Nat) (s : State) : State := { s with srcLen := BitVec.ofNat 32 k }

/-- The state t reached after them, with the ranges of the rest of the message of s. -/
def restSegment (k : Nat) (s t : State) : State :=
  { t with
    srcAddr := s.srcAddr + BitVec.ofNat 32 k
    srcLen := BitVec.ofNat 32 (srcN s - k)
    dstAddr := s.dstAddr + BitVec.ofNat 32 k }

theorem srcBytes_firstSegment {k : Nat} {s : State} (hk : k ≤ srcN s) :
    srcBytes (firstSegment k s) = memRead s.mem s.srcAddr.toNat k := by
  have hn : (BitVec.ofNat 32 k).toNat = k := Nat.mod_eq_of_lt (hk.trans_lt (srcN_lt s))
  exact congrArg (memRead s.mem s.srcAddr.toNat) hn

/-- The rest of the message is still there, if the first segment's output left it alone. -/
theorem srcBytes_restSegment {k : Nat} {s t : State} {out : List Byte} (hk : k ≤ srcN s) (hsrc : srcOk s = true)
    (hmem : t.mem = memWrite s.mem s.dstAddr.toNat out)
    (hapart : ∀ j, k ≤ j → j < srcN s →
      ¬ (s.dstAddr.toNat ≤ s.srcAddr.toNat + j ∧ s.srcAddr.toNat + j < s.dstAddr.toNat + out.length)) :
    srcBytes (restSegment k s t) = memRead s.mem (s.srcAddr + BitVec.ofNat 32 k).toNat (srcN s - k) := by
  have hn : (BitVec.ofNat 32 (srcN s - k)).toNat = srcN s - k := Nat.mod_eq_of_lt ((Nat.sub_le _ _).trans_lt (srcN_lt s))
  have hread : srcBytes (restSegment k s t) = memRead t.mem (s.srcAddr + BitVec.ofNat 32 k).toNat (srcN s - k) :=
    congrArg (memRead t.mem (s.srcAddr + BitVec.ofNat 32 k).toNat) hn
  rw [hread, hmem]
  refine memRead_memWrite_disjoint fun x hlo hhi => ?_
  have hstart : (s.srcAddr + BitVec.ofNat 32 k).toNat = s.srcAddr.toNat + k :=
    toNat_add_of_rangeOk (n := srcN s - k) (by rwa [Nat.add_sub_cancel' hk]) (by omega)
  have h := hapart (x - s.srcAddr.toNat) (by omega) (by omega)
  rwa [Nat.add_sub_cancel' (by omega)] at h

@[simp] theorem cipherE_restSegment (k : Nat) (s t : State) : cipherE (restSegment k s t) = cipherE t := rfl

@[simp] theorem cipherD_restSegment (k : Nat) (s t : State) : cipherD (restSegment k s t) = cipherD t := rfl

@[simp] theorem ivBlock_restSegment (k : Nat) (s t : State) : ivBlock (restSegment k s t) = ivBlock t := rfl

/-- The message of s, cut after k bytes. -/
theorem srcBytes_eq_segments {k : Nat} {s : State} (hk : k ≤ srcN s) (hsrc : srcOk s = true) :
    srcBytes s = memRead s.mem s.srcAddr.toNat k ++ memRead s.mem (s.srcAddr + BitVec.ofNat 32 k).toNat (srcN s - k) := by
  rw [memRead_segments (by rwa [Nat.add_sub_cancel' hk]), Nat.add_sub_cancel' hk]
  rfl

/-- Settles O38: the second segment reads what the whole message has after the first, and starts from the IV reached. -/
theorem segmentsComposeToTheWholeMessage : Obligations.SegmentsComposeToTheWholeMessage := by
  intro p c s t t₁ t₂ k hp hcp _ hk hmod hapart h ht h₁ ht₁ h₂ ht₂
  have hc : c ∈ modeCommands := by
    obtain ⟨hp₁, hp₂⟩ := modeCommands_of_modePairs hp
    rcases hcp with rfl | rfl
    · exact hp₁
    · exact hp₂
  obtain ⟨out, hwhole⟩ := succeeds_of_exec hc h ht
  obtain ⟨out₁, hfirst⟩ := succeeds_of_exec (s := firstSegment k s) hc h₁ ht₁
  obtain ⟨out₂, hrest⟩ := succeeds_of_exec (s := restSegment k s t₁) hc h₂ ht₂
  have hout₁ := hfirst.output
  have hiv₁ := hfirst.chaining
  rw [srcBytes_firstSegment hk] at hout₁ hiv₁
  obtain ⟨hm₁, hlen₁⟩ := out_of_first_segment hc (by rwa [memRead_length]) hout₁
  rw [memRead_length] at hlen₁
  have hx₂ := srcBytes_restSegment hk hwhole.srcValid hfirst.memory (by rwa [hlen₁])
  have hlen₂ := hrest.lengthLegal
  have hout₂ := hrest.output
  have hiv₂ := hrest.chaining
  rw [← srcBytes_length, hx₂] at hlen₂
  rw [hx₂, cipherE_restSegment, cipherD_restSegment, ivBlock_restSegment, hfirst.sameE, hfirst.sameD, hiv₁] at hout₂ hiv₂
  have hout := hwhole.output
  have hiv := hwhole.chaining
  rw [srcBytes_eq_segments hk hwhole.srcValid] at hout hiv
  obtain rfl : out = out₁ ++ out₂ :=
    Option.some.inj (hout.symm.trans (out_of_segments hc (by rwa [memRead_length]) hlen₂ hm₁ hout₂))
  constructor
  · calc
      t₂.mem = memWrite t₁.mem (s.dstAddr + BitVec.ofNat 32 k).toNat out₂ := hrest.memory
      _ = memWrite (memWrite s.mem s.dstAddr.toNat out₁) (s.dstAddr + BitVec.ofNat 32 out₁.length).toNat out₂ := by
        rw [hfirst.memory, hlen₁]
        rfl
      _ = memWrite s.mem s.dstAddr.toNat (out₁ ++ out₂) := memWrite_segments hwhole.dstValid _
      _ = t.mem := hwhole.memory.symm
  · refine ivBlock_injective_iv ?_
    rw [hiv₂, hiv, modeTransform_append hc _ _ _ _ _ (by rwa [memRead_length])]
    rfl

/-! ### A command that undoes another (41 R271, R272) -/

/-- Command i, on what command j wrote, passes its length check where j did, gives j's input back, and reaches j's IV. -/
structure Undoes (i j : Instr) : Prop where
  stripsNothing : stripsPadding j = false
  usesIv : usesIv i = usesIv j
  lenOk : ∀ e d v x, modeLenOk j x.length = true → modeLenOk i (modeTransform j e d v x).1.length = true
  inverse : ∀ e d v x, (∀ b, d (e b) = b) → ∃ y,
    modeTransform i e d v (modeTransform j e d v x).1 = (y, (modeTransform j e d v x).2) ∧
    unpadIf (stripsPadding i) y = some x

/-- ECB_DEC and CBC_DEC with FINAL = 1 take every padded string. -/
theorem decLenOk_pad_length (x : List Byte) : decLenOk true (pad x).length = true := by
  rw [decLenOk_iff, pad_length]
  have h := add_padLen_mod x.length
  have hpos := padLen_pos x.length
  omega

/-- In each of the five modes decryption undoes encryption, with FINAL = 1. -/
theorem decryption_undoes_encryption {p : (Bool → Instr) × (Bool → Instr)} (hp : p ∈ modePairs) :
    Undoes (p.2 true) (p.1 true) := by
  have hmod : ∀ x : List Byte, (pad x).length % 16 = 0 := fun x => by rw [pad_length, add_padLen_mod]
  simp only [modePairs, List.mem_cons, List.not_mem_nil, or_false] at hp
  rcases hp with rfl | rfl | rfl | rfl | rfl
  · refine ⟨rfl, rfl, fun e _ _ x _ => ?_, fun e d _ x hde => ⟨pad x, Prod.ext (ecb_ecb hde (hmod x)) rfl, unpad_pad x⟩⟩
    have h := decLenOk_pad_length x
    rwa [← ecb_blocks_length (hmod x) e] at h
  · refine ⟨rfl, rfl, fun e _ v x _ => ?_, fun e d v x hde => ⟨pad x, cbcDecrypt_cbcEncrypt hde v (hmod x), unpad_pad x⟩⟩
    have h := decLenOk_pad_length x
    rwa [← cbcEncrypt_blocks_length e v (hmod x)] at h
  · exact ⟨rfl, rfl, fun _ _ _ _ _ => rfl, fun e _ v x _ => ⟨x, cfbDecrypt_cfbEncrypt e v x, rfl⟩⟩
  · exact ⟨rfl, rfl, fun _ _ _ _ _ => rfl, fun e _ v x _ => ⟨x, ofb_ofb e v x, rfl⟩⟩
  · exact ⟨rfl, rfl, fun _ _ _ _ _ => rfl, fun e _ v x _ => ⟨x, ctr_ctr e v x, rfl⟩⟩

/-- OFB_ENC and CTR_ENC keep the length of their input. -/
theorem keystream_length {c : Bool → Instr} (hc : c = .ofbEnc ∨ c = .ctrEnc) (f : Bool) (e d : Block → Block) (v : Block)
    (x : List Byte) : (modeTransform (c f) e d v x).1.length = x.length := by
  rcases hc with rfl | rfl
  · exact ofb_length e v x
  · exact ctr_length e v x

/-- OFB_ENC and CTR_ENC undo themselves. -/
theorem keystream_undoes_itself {c : Bool → Instr} (hc : c = .ofbEnc ∨ c = .ctrEnc) (f : Bool) : Undoes (c f) (c f) := by
  have hlen : ∀ e d v x, modeLenOk (c f) x.length = true → modeLenOk (c f) (modeTransform (c f) e d v x).1.length = true :=
    fun e d v x h => by rwa [keystream_length hc]
  rcases hc with rfl | rfl
  · exact ⟨rfl, rfl, hlen, fun e _ v x _ => ⟨x, ofb_ofb e v x, rfl⟩⟩
  · exact ⟨rfl, rfl, hlen, fun e _ v x _ => ⟨x, ctr_ctr e v x, rfl⟩⟩

/-- The state t reached by a command of s, with n bytes of what that command wrote as the input, d as the destination and
the IV of s. -/
def rereading (n d : Word) (s t : State) : State := { t with srcAddr := s.dstAddr, srcLen := n, dstAddr := d, iv := s.iv }

@[simp] theorem cipherE_rereading (n d : Word) (s t : State) : cipherE (rereading n d s t) = cipherE t := rfl

@[simp] theorem cipherD_rereading (n d : Word) (s t : State) : cipherD (rereading n d s t) = cipherD t := rfl

@[simp] theorem ivBlock_rereading (n d : Word) (s t : State) : ivBlock (rereading n d s t) = ivBlock s := rfl

theorem srcBytes_rereading {i : Instr} {s t : State} {out : List Byte} (h : Succeeds i s t out) (hwf : Memory.wf s.mem)
    {n : Word} (hn : n.toNat = out.length) (d : Word) : srcBytes (rereading n d s t) = out := by
  have hread : srcBytes (rereading n d s t) = memRead t.mem s.dstAddr.toNat n.toNat := rfl
  rw [hread, h.memory, hn, memRead_memWrite_self hwf.1]

/-- A command that undoes the one just run reads its output, writes its input, and reaches the same IV. -/
theorem exec_of_undoes {c : Bool → Instr} (hc : c ∈ modeCommands) {f : Bool} {j : Instr} (hundo : Undoes (c f) j)
    {s t : State} {out : List Byte} (h : Succeeds j s t out) (hwf : Memory.wf s.mem) {n d : Word} (hn : n.toNat = out.length)
    (hdst : rangeOk s.platform d.toNat (srcN s) = true) :
    ∃ u, exec (c f) (rereading n d s t) = .next u ∧ u.err = t.err ∧ u.outLen = s.srcLen ∧
      memRead u.mem d.toNat (srcN s) = srcBytes s ∧ u.iv = t.iv := by
  obtain ⟨hstrips, huses, hlenOk, hinverse⟩ := hundo
  have hout := h.output
  rw [hstrips] at hout
  obtain rfl : _ = out := Option.some.inj hout
  have hread := srcBytes_rereading h hwf hn d
  obtain ⟨y, hy, hunpad⟩ := hinverse (cipherE s) (cipherD s) (ivBlock s) (srcBytes s) (Equiv.symm_apply_apply _)
  have htransform : modeTransform (c f) (cipherE (rereading n d s t)) (cipherD (rereading n d s t))
      (ivBlock (rereading n d s t)) (srcBytes (rereading n d s t)) = (y, ivBlock t) := by
    rw [hread, cipherE_rereading, cipherD_rereading, ivBlock_rereading, h.sameE, h.sameD, hy, h.chaining]
  have hlen : modeLenOk (c f) (srcN (rereading n d s t)) = true := by
    rw [← srcBytes_length, hread]
    exact hlenOk _ _ _ _ (by rw [srcBytes_length]; exact h.lengthLegal)
  have hsrc : srcOk (rereading n d s t) = true := by
    have hrange := h.dstValid
    rwa [← hn, ← h.samePlatform] at hrange
  have hdst' : rangeOk t.platform d.toNat (srcBytes s).length = true := by
    rwa [h.samePlatform, srcBytes_length]
  have hnext := mode_next hc (s := rereading n d s t) (out := srcBytes s) h.keyLegal (fun hu => h.ivLegal (huses ▸ hu)) hlen
    hsrc (by rwa [htransform]) hdst'
  rw [htransform] at hnext
  refine ⟨_, hnext, rfl, ?_, ?_, ivBlock_injective_iv (ivBlock_setIv (ivBlock t) (rereading n d s t))⟩
  · rw [finish_outLen, writeOut_outLen, srcBytes_length]
    exact BitVec.eq_of_toNat_eq (Nat.mod_eq_of_lt (srcN_lt s))
  · have hrise : t.mem.Pairwise fun c d => c.1 < d.1 := h.memory ▸ memWrite_pairwise hwf.1 _ _
    have hback := memRead_memWrite_self hrise d.toNat (srcBytes s)
    rwa [srcBytes_length] at hback

/-- Settles O39: decryption undoes encryption. -/
theorem modesDecryptWhatTheyEncrypted : Obligations.ModesDecryptWhatTheyEncrypted := by
  intro p s t d hp hwf _ h ht hdst
  obtain ⟨hc, hc'⟩ := modeCommands_of_modePairs hp
  obtain ⟨out, hs⟩ := succeeds_of_exec hc h ht
  obtain ⟨u, hu, herr, hlen, hmem, -⟩ := exec_of_undoes hc' (decryption_undoes_encryption hp) hs hwf hs.length hdst
  exact ⟨u, hu, herr.trans ht, hlen, hmem⟩

/-- Settles O40: the command undoes itself, and its output is as long as its input. -/
theorem ofbAndCtrUndoThemselves : Obligations.OfbAndCtrUndoThemselves := by
  intro c f s t d hcs hwf _ h ht hdst
  have hc : c ∈ modeCommands := by rcases hcs with rfl | rfl <;> simp [modeCommands]
  have hundo := keystream_undoes_itself hcs f
  obtain ⟨out, hs⟩ := succeeds_of_exec hc h ht
  have hlen : t.srcLen.toNat = out.length := by
    have hout := hs.output
    rw [hundo.stripsNothing] at hout
    rw [← Option.some.inj hout, keystream_length hcs, srcBytes_length, hs.sameSrcLen]
    rfl
  obtain ⟨u, hu, herr, -, hmem, hiv⟩ := exec_of_undoes hc hundo hs hwf hlen hdst
  exact ⟨u, hu, herr.trans ht, hmem, hiv⟩

end Sys2Proof.Proofs
end

section
/-! SUPPORT. The functions of GCM (42 R300 to R306): the product as a commutative ring's, GHASH as a polynomial in H, and the
bytes inc32 keeps. -/

namespace Sys2Proof.Machine

/-! ### The ring of GF(2^128) (42 R300, R301) -/

/-- The product is commutative: on monomials both orders multiply by x as often. -/
theorem gfMult_comm (x y : Block) : gfMult x y = gfMult y x := by
  induction x using block_induction with
  | zero => rw [gfMult_zero_left, gfMult_zero_right]
  | xor a b iha ihb => rw [gfMult_xor_left, gfMult_xor_right, iha, ihb]
  | mono j hj => rw [gfMult_twoPow hj, gfMult_twoPow_right hj]

/-- Multiplication by a power of x passes through the product on the left. -/
theorem gfMult_iterate_left (n : Nat) (x y : Block) : gfMult (gfMulX^[n] x) y = gfMulX^[n] (gfMult x y) := by
  rw [gfMult_comm, gfMult_iterate, gfMult_comm y]

theorem gfMult_assoc (x y z : Block) : gfMult (gfMult x y) z = gfMult x (gfMult y z) := by
  induction x using block_induction with
  | zero => rw [gfMult_zero_left, gfMult_zero_left, gfMult_zero_left]
  | xor a b iha ihb => rw [gfMult_xor_left, gfMult_xor_left, gfMult_xor_left, iha, ihb]
  | mono j hj => rw [gfMult_twoPow hj, gfMult_twoPow hj, gfMult_iterate_left]

/-- The product with the block 40 00..00 is multiplication by x. -/
theorem gfMult_x (y : Block) : gfMult (BitVec.twoPow 128 126) y = gfMulX y := gfMult_twoPow (by decide) y

/-! ### GHASH (42 R302, R303) -/

/-- The zero-padded pieces of a string. -/
theorem blocks_zpad_length (bs : List Byte) : (blocks (zpad bs)).length = (bs.length + 15) / 16 := by
  rw [blocks_length, zpad_length]
  omega

/-- The pieces GHASH runs over: those of A and of C, each last one padded with zeros, and the length block. -/
def ghashPieces (a c : List Byte) : List (List Byte) :=
  blocks (zpad a) ++ blocks (zpad c) ++ [be64 (8 * a.length) ++ be64 (8 * c.length)]

theorem ghash_eq_ghashFold (h : Block) (a c : List Byte) : ghash h a c = ghashFold h 0 (ghashPieces a c) := by
  rw [ghash, ghash_blocks, ghashPieces]

theorem ghashPieces_length (a c : List Byte) :
    (ghashPieces a c).length = (a.length + 15) / 16 + (c.length + 15) / 16 + 1 := by
  simp only [ghashPieces, List.length_append, blocks_zpad_length, List.length_singleton]

theorem ghashPieces_getElem (a c : List Byte) (i : Nat) (hi : i < (ghashPieces a c).length) :
    (ghashPieces a c)[i] =
      if i < (a.length + 15) / 16 then
        (a.drop (16 * i)).take 16 ++ List.replicate (16 - ((a.drop (16 * i)).take 16).length) 0
      else if i < (a.length + 15) / 16 + (c.length + 15) / 16 then
        (c.drop (16 * (i - (a.length + 15) / 16))).take 16 ++
          List.replicate (16 - ((c.drop (16 * (i - (a.length + 15) / 16))).take 16).length) 0
      else be64 (8 * a.length) ++ be64 (8 * c.length) := by
  simp only [ghashPieces, List.getElem_append, List.length_append, blocks_zpad_length]
  split_ifs with hac ha ha
  · rw [blocks_getElem, zpad_piece a i ha]
  · rw [blocks_getElem, zpad_piece c _ (by omega)]
  · omega
  · exact List.getElem_singleton _

/-- Multiplying 0 by H any number of times gives 0. -/
theorem gfMult_right_iterate_zero (h : Block) (n : Nat) : (fun z => gfMult z h)^[n] 0 = 0 :=
  Function.iterate_fixed (gfMult_zero_left h) n

/-! ### inc32 (42 R304) -/

/-- The first 12 bytes of a block are its number without the last 32 bits. -/
theorem ofBlock_take_twelve (b : Block) : (ofBlock b).take 12 = beBytes 12 (b.toNat / 2 ^ 32) := by
  have hsplit : ofBlock b = beBytes 12 (b.toNat / 2 ^ 32) ++ beBytes 4 b.toNat := beBytes_add_length 12 4 b.toNat
  rw [hsplit, List.take_left' (beBytes_length 12 _)]

end Sys2Proof.Machine
end

section
/-! SUPPORT. The functions of GCM in the words of the statements (42 R301 to R304). -/

namespace Sys2Proof.Proofs

open Sys2Proof Sys2Proof.Machine Sys2Proof.Claims

/-- Settles O41: what holds of 0 and of the monomials and is kept by xor holds of every block. -/
theorem gfProductIsTheFieldProduct : Obligations.GfProductIsTheFieldProduct := by
  refine ⟨gfMult_comm, gfMult_assoc, gfMult_xor_left, fun x => ⟨gfMult_one x, gfMult_zero_left x⟩, gfMult_x, ?_⟩
  rw [gfMult_comm, gfMult_x]
  decide

/-- Settles O42: the fold over GHASH's pieces, multiplied out, from the start value 0. -/
theorem ghashIsThePolynomialInH : Obligations.GhashIsThePolynomialInH := by
  intro h a c _ _ m x
  have hx : ∀ i (hi : i < (ghashPieces a c).length), x i = toBlock (ghashPieces a c)[i] := fun i hi => by
    rw [ghashPieces_getElem, apply_ite toBlock, apply_ite toBlock, toBlock_be64_append]
    rfl
  rw [ghash_eq_ghashFold, ghashFold_polynomial h 0 _ x hx, ghashPieces_length, gfMult_right_iterate_zero]

/-- Settles O43: the number without its last 32 bits is what the first 12 bytes hold. -/
theorem inc32KeepsTheUpperTwelveBytes : Obligations.Inc32KeepsTheUpperTwelveBytes := by
  refine fun b => ⟨inc32_toNat b, ?_⟩
  have hupper : (inc32 b).toNat / 2 ^ 32 = b.toNat / 2 ^ 32 := by
    rw [inc32_toNat]
    omega
  rw [ofBlock_take_twelve, ofBlock_take_twelve, hupper]

end Sys2Proof.Proofs
end

section
/-! SUPPORT. GCM_ENC and GCM_DEC (42 R305 to R331): what each answers when its checks pass, and GCM_DEC on what GCM_ENC wrote. -/

namespace Sys2Proof.Proofs

open Sys2Proof Sys2Proof.Machine Sys2Proof.Claims

/-! ### The checks and the pre-counter block (42 R305, R307, R310) -/

/-- The checks of a GCM command pass exactly when the state is ready and the length rule holds. -/
theorem gcmChecks_ok_iff_gcmReady {l : Bool} {s : State} {k : Except ErrCode Plan} {q : Plan} :
    gcmChecks l s k = .ok q ↔ gcmReady s ∧ l = true ∧ k = .ok q := by
  rw [gcmChecks_ok, keyOk_iff, gcmReady]
  tauto

theorem preCounter_eq_j0 (s : State) : preCounter s = j0 (hashSubkey (cipherE s)) (nonceBytes s) := by
  have hlen : (nonceBytes s).length = 12 ↔ s.nonceLen = 12 := by
    rw [nonceBytes, memRead_length, ← BitVec.toNat_inj]
    rfl
  rw [preCounter, j0]
  simp only [hlen]
  rfl

/-- The tag in the words of the statements: E(J0) xor GHASH(H, A, C). -/
theorem ofBlock_mask_eq_gcmTag (s : State) (c : List Byte) :
    ofBlock (cipherE s (preCounter s) ^^^ ghash (cipherE s 0) (aadBytes s) c) =
      gcmTag (cipherE s) (nonceBytes s) (aadBytes s) c := by
  rw [preCounter_eq_j0]
  rfl

/-- Piece i of the encrypted or decrypted data: the counter is inc32 applied i + 1 times to J0. -/
theorem gcmCrypt_piece (s : State) (x : List Byte) {i : Nat} (hi : i < (x.length + 15) / 16) :
    piece (gcmCrypt (cipherE s) (nonceBytes s) x) i =
      xorBytes (piece x i) (ofBlock (cipherE s (inc32^[i + 1] (preCounter s)))) := by
  rw [preCounter_eq_j0, Function.iterate_succ_apply]
  exact gctr_piece _ _ x i hi

/-! ### GCM_ENC (42 R320) -/

/-- The ciphertext C of GCM_ENC. -/
def sealedText (s : State) : List Byte := gcmCrypt (cipherE s) (nonceBytes s) (srcBytes s)

/-- The tag T of GCM_ENC. -/
def sealedTag (s : State) : List Byte := gcmTag (cipherE s) (nonceBytes s) (aadBytes s) (sealedText s)

@[simp] theorem sealedText_length (s : State) : (sealedText s).length = srcN s := by
  rw [sealedText, gcmCrypt_length, srcBytes_length]

@[simp] theorem sealedTag_length (s : State) : (sealedTag s).length = 16 := gcmTag_length _ _ _ _

theorem sealed_length (s : State) : (sealedText s ++ sealedTag s).length = srcN s + 16 := by simp

theorem planOf_gcmEnc_ok_iff {s : State} {q : Plan} :
    planOf .gcmEnc s = .ok q ↔ gcmReady s ∧ srcN s + 16 ≤ maxLen ∧ q = ⟨sealedText s ++ sealedTag s, true, s⟩ := by
  rw [planOf, planGcmEnc, gcmChecks_ok_iff_gcmReady, decide_eq_true_eq, Except.ok.injEq, eq_comm (b := q)]
  rfl

/-- Settles O44: what is sealed is the ciphertext and then its tag. -/
theorem gcmEncWritesCiphertextAndTag : Obligations.GcmEncWritesCiphertextAndTag := by
  intro s hready hlen hdst
  refine ⟨sealedText s, sealedText_length s, fun i hi => gcmCrypt_piece s _ (by rwa [srcBytes_length]), ?_⟩
  rw [ofBlock_mask_eq_gcmTag]
  rw [← sealed_length] at hdst
  exact ⟨_, exec_of_plan (planOf_gcmEnc_ok_iff.mpr ⟨hready, hlen, rfl⟩) hdst rfl⟩

/-! ### GCM_DEC (42 R321) -/

/-- The tag T' that GCM_DEC recomputes from the received ciphertext and AAD. -/
def recomputedTag (s : State) : List Byte := gcmTag (cipherE s) (nonceBytes s) (aadBytes s) (gcmDecText s)

/-- The plaintext P of GCM_DEC. -/
def openedText (s : State) : List Byte := gcmCrypt (cipherE s) (nonceBytes s) (gcmDecText s)

@[simp] theorem gcmDecText_length (s : State) : (gcmDecText s).length = srcN s - 16 := by
  rw [gcmDecText, List.length_take, srcBytes_length]
  omega

theorem gcmDecTag_length {s : State} (hn : 16 ≤ srcN s) : (gcmDecTag s).length = 16 := by
  rw [gcmDecTag, List.length_drop, srcBytes_length]
  omega

@[simp] theorem openedText_length (s : State) : (openedText s).length = srcN s - 16 := by
  rw [openedText, gcmCrypt_length, gcmDecText_length]

section
variable {s : State} (hready : gcmReady s) (hn : 16 ≤ srcN s) (hdst : dstOk s (srcN s - 16) = true)
include hready hn

theorem planOf_gcmDec : planOf .gcmDec s = .ok ⟨openedText s, tagEqual (gcmDecTag s) (recomputedTag s), s⟩ :=
  gcmChecks_ok_iff_gcmReady.mpr ⟨hready, decide_eq_true hn, rfl⟩

include hdst

/-- On a match GCM_DEC writes the plaintext. -/
theorem exec_gcmDec_of_tag_eq (htag : gcmDecTag s = recomputedTag s) :
    exec .gcmDec s = .next (finish (writeOut (openedText s) s)) := by
  rw [← openedText_length] at hdst
  exact exec_of_plan (planOf_gcmDec hready hn) hdst ((tagEqual_iff (congrArg List.length htag)).mpr htag)

/-- On a mismatch GCM_DEC raises AuthenticationError. -/
theorem exec_gcmDec_of_tag_ne (htag : gcmDecTag s ≠ recomputedTag s) :
    exec .gcmDec s = .next (raised .authenticationError s) := by
  have hlen : (gcmDecTag s).length = (recomputedTag s).length := (gcmDecTag_length hn).trans (gcmTag_length _ _ _ _).symm
  have hfails : tagEqual (gcmDecTag s) (recomputedTag s) = false := by rwa [← Bool.not_eq_true, tagEqual_iff hlen]
  have hrange : rangeOk s.platform s.dstAddr.toNat (openedText s).length = true := by rwa [openedText_length]
  rw [exec_next, planOf_gcmDec hready hn, conclude, if_pos hrange, hfails]
  rfl

end

/-- Settles O45: the verdict on the received tag decides between the plaintext and AuthenticationError. -/
theorem gcmDecChecksTheTagBeforeOutput : Obligations.GcmDecChecksTheTagBeforeOutput := by
  intro s hready hn hdst c tag
  have htag : tag = recomputedTag s := ofBlock_mask_eq_gcmTag s c
  rw [htag]
  exact ⟨exec_gcmDec_of_tag_ne hready hn hdst, fun heq =>
    ⟨openedText s, openedText_length s, fun i hi => gcmCrypt_piece s (gcmDecText s) (by rwa [gcmDecText_length]),
      _, exec_gcmDec_of_tag_eq hready hn hdst heq⟩⟩

/-! ### GCM_DEC on what GCM_ENC wrote (42 R330, R331) -/

/-- GCM_ENC took s to t without an error: what its checks say of s, and what t is. -/
structure Seals (s t : State) : Prop where
  ready : gcmReady s
  lengthLegal : srcN s + 16 ≤ maxLen
  dstValid : dstOk s (srcN s + 16) = true
  result : t = finish (writeOut (sealedText s ++ sealedTag s) s)

theorem seals_of_exec {s t : State} (h : exec .gcmEnc s = .next t) (ht : t.err = .ok) : Seals s t := by
  obtain ⟨q, hq, hdst, -, -, rfl⟩ := exec_ok_inv h ht
  obtain ⟨hready, hlen, rfl⟩ := planOf_gcmEnc_ok_iff.mp hq
  rw [sealed_length] at hdst
  exact ⟨hready, hlen, hdst, rfl⟩

section
variable {s t : State} (h : Seals s t)
include h

/-- GCM_ENC sets OUT_LEN to the length of the ciphertext and the tag. -/
theorem Seals.outLen_toNat : t.outLen.toNat = srcN s + 16 := by
  rw [h.result, finish_outLen, writeOut_outLen, sealed_length]
  exact Nat.mod_eq_of_lt (Nat.lt_succ_of_le h.lengthLegal)

theorem Seals.memory : t.mem = memWrite s.mem s.dstAddr.toNat (sealedText s ++ sealedTag s) := by
  rw [h.result]
  rfl

theorem Seals.memory_rising (hwf : Memory.wf s.mem) : t.mem.Pairwise fun c d => c.1 < d.1 :=
  h.memory ▸ memWrite_pairwise hwf.1 _ _

/-- What GCM_ENC wrote stands at DST_ADDR. -/
theorem Seals.memRead_output (hwf : Memory.wf s.mem) :
    memRead t.mem s.dstAddr.toNat (srcN s + 16) = sealedText s ++ sealedTag s := by
  rw [h.memory, ← sealed_length, memRead_memWrite_self hwf.1]

end

/-- The state t that GCM_ENC reached from s, with memory m, what it wrote as the input, and d as the destination. -/
def reopening (m : Memory) (d : Word) (s t : State) : State :=
  { t with mem := m, srcAddr := s.dstAddr, srcLen := t.outLen, dstAddr := d }

section
variable {s t : State} (h : Seals s t) (m : Memory) (d : Word)
include h

theorem Seals.srcN_reopening : srcN (reopening m d s t) = srcN s + 16 := h.outLen_toNat

theorem Seals.cipherE_reopening : cipherE (reopening m d s t) = cipherE s := by
  rw [h.result]
  rfl

theorem Seals.platform_reopening : (reopening m d s t).platform = s.platform := by
  rw [h.result]
  rfl

/-- GCM_DEC's input range is GCM_ENC's output range, and its other operands are those of GCM_ENC. -/
theorem Seals.reopening_ready : gcmReady (reopening m d s t) := by
  obtain ⟨hkey, hnonce, -, haad, hnonceOk⟩ := h.ready
  have hsrc : srcOk (reopening m d s t) = true := by
    have hrange : srcOk (reopening m d s t) = rangeOk (reopening m d s t).platform s.dstAddr.toNat t.outLen.toNat := rfl
    rw [hrange, h.platform_reopening, h.outLen_toNat]
    exact h.dstValid
  obtain rfl := h.result
  exact ⟨hkey, hnonce, hsrc, haad, hnonceOk⟩

end

/-- GCM_DEC on the ciphertext GCM_ENC wrote and 16 bytes as its tag, with the same AAD and nonce: it writes GCM_ENC's input
if these are the tag of GCM_ENC, and raises AuthenticationError if not. -/
theorem Seals.exec_gcmDec {s t : State} (h : Seals s t) {m : Memory} {d : Word} {tag : List Byte}
    (hread : memRead m s.dstAddr.toNat (srcN s + 16) = sealedText s ++ tag)
    (haad : aadBytes (reopening m d s t) = aadBytes s) (hnonce : nonceBytes (reopening m d s t) = nonceBytes s)
    (hdst : rangeOk s.platform d.toNat (srcN s) = true) :
    (tag = sealedTag s → exec .gcmDec (reopening m d s t) = .next (finish (writeOut (srcBytes s) (reopening m d s t)))) ∧
    (tag ≠ sealedTag s → exec .gcmDec (reopening m d s t) = .next (raised .authenticationError (reopening m d s t))) := by
  have hN := h.srcN_reopening m d
  have hn : 16 ≤ srcN (reopening m d s t) := by omega
  have hsrc : srcBytes (reopening m d s t) = sealedText s ++ tag := by
    rw [← hread, ← hN]
    rfl
  have htext : gcmDecText (reopening m d s t) = sealedText s := by
    rw [gcmDecText, hsrc, hN, Nat.add_sub_cancel, List.take_left' (sealedText_length s)]
  have hreceived : gcmDecTag (reopening m d s t) = tag := by
    rw [gcmDecTag, hsrc, hN, Nat.add_sub_cancel, List.drop_left' (sealedText_length s)]
  have hrecomputed : recomputedTag (reopening m d s t) = sealedTag s := by
    rw [recomputedTag, htext, h.cipherE_reopening, hnonce, haad, sealedTag]
  have hopened : openedText (reopening m d s t) = srcBytes s := by
    rw [openedText, htext, h.cipherE_reopening, hnonce, sealedText, gcmCrypt_gcmCrypt]
  have hout : dstOk (reopening m d s t) (srcN (reopening m d s t) - 16) = true := by
    rwa [hN, Nat.add_sub_cancel, dstOk, h.platform_reopening]
  have hmatch := exec_gcmDec_of_tag_eq (h.reopening_ready m d) hn hout
  have hmismatch := exec_gcmDec_of_tag_ne (h.reopening_ready m d) hn hout
  rw [hreceived, hrecomputed] at hmatch hmismatch
  rw [hopened] at hmatch
  exact ⟨hmatch, hmismatch⟩

/-- Settles O46: the tag GCM_DEC recomputes is the one it reads, and decrypting undoes encrypting. -/
theorem gcmDecryptsWhatItEncrypted : Obligations.GcmDecryptsWhatItEncrypted := by
  intro s t d hwf _ hexec ht haad hnonce hdst
  have h := seals_of_exec hexec ht
  refine ⟨_, (h.exec_gcmDec (h.memRead_output hwf) haad hnonce hdst).1 rfl, ht, ?_, ?_⟩
  · rw [finish_outLen, writeOut_outLen, srcBytes_length]
    exact BitVec.eq_of_toNat_eq (Nat.mod_eq_of_lt (srcN_lt s))
  · have hback := memRead_memWrite_self (h.memory_rising hwf) d.toNat (srcBytes s)
    rwa [srcBytes_length] at hback

/-- Settles O47: the ciphertext is untouched, so GCM_DEC recomputes the tag that was overwritten. -/
theorem gcmDetectsEveryTagChange : Obligations.GcmDetectsEveryTagChange := by
  intro s t d bad hwf _ hexec ht _ _ hdst hlen hbad v haad hnonce
  have h := seals_of_exec hexec ht
  have hparts := h.memRead_output hwf
  rw [memRead_add] at hparts
  obtain ⟨htext, htag⟩ := List.append_inj hparts (by simp)
  have hread : memRead v.mem s.dstAddr.toNat (srcN s + 16) = sealedText s ++ bad := by
    have hkept : memRead v.mem s.dstAddr.toNat (srcN s) = memRead t.mem s.dstAddr.toNat (srcN s) :=
      memRead_memWrite_disjoint fun x _ _ => by omega
    have hnew : memRead v.mem (s.dstAddr.toNat + srcN s) 16 = bad := hlen ▸ memRead_memWrite_self (h.memory_rising hwf) _ bad
    rw [memRead_add, hkept, htext, hnew]
  exact (h.exec_gcmDec hread haad hnonce hdst).2 (htag ▸ hbad)

end Sys2Proof.Proofs
end

section
/-! SUPPORT. The SHA-256 unit in the words of the statements (43 R343 to R346): a byte of a schedule word, the working variables
round by round, a string compressed block by block, and absorbing in parts. -/

namespace Sys2Proof.Machine

open Sys2Proof.Claims

/-! ### The schedule and the rounds (43 R343, R344) -/

/-- Byte j of word k of a string is byte 4k + j of the string (20 R102). -/
theorem wordAt_byte {bs : List Byte} {k j : Nat} (hk : 4 * k + 4 ≤ bs.length) (hj : j < 4) :
    (wordAt bs k).extractLsb' (24 - 8 * j) 8 = bs.getD (4 * k + j) 0 := by
  rw [← be32_getD _ _ hj, be32_wordAt bs k hk]
  simp [List.getD, List.getElem?_drop, hj]

/-- The working variables after the first t rounds of a block. -/
def workingAfter (h : Vector Word 8) (m : List Byte) (t : Nat) : Working :=
  ((roundConstants.zip (schedule m)).take t).foldl shaRound (Working.ofHash h)

/-- Round t takes its constant and its schedule word. -/
theorem workingAfter_succ (h : Vector Word 8) (m : List Byte) {t : Nat} (ht : t < 64) :
    workingAfter h m (t + 1) = shaRound (workingAfter h m t) (roundConstants.getD t 0, (schedule m).getD t 0) := by
  have hk : t < roundConstants.length := roundConstants_length ▸ ht
  have hw : t < (schedule m).length := schedule_length m ▸ ht
  have hz : t < (roundConstants.zip (schedule m)).length := by rw [List.length_zip]; omega
  rw [workingAfter, List.take_succ_eq_append_getElem hz, List.foldl_append, List.getElem_zip,
    List.getD_eq_getElem _ _ hk, List.getD_eq_getElem _ _ hw]
  rfl

/-- All rounds of a block are the 64 of R344. -/
theorem shaRounds_eq_workingAfter (h : Vector Word 8) (m : List Byte) : shaRounds h m = workingAfter h m 64 := by
  have hlen : (roundConstants.zip (schedule m)).length = 64 := by
    rw [List.length_zip, roundConstants_length, schedule_length]
    rfl
  rw [workingAfter, List.take_of_length_le hlen.le]
  rfl

theorem compress_of_shaRounds {h : Vector Word 8} {m : List Byte} {v : Working} (hv : shaRounds h m = v) :
    compress h m = #v[h[0] + v.a, h[1] + v.b, h[2] + v.c, h[3] + v.d, h[4] + v.e, h[5] + v.f, h[6] + v.g, h[7] + v.h] := by
  rw [← hv, compress]

/-! ### Compressing and absorbing (43 R345, R346) -/

theorem compressed_eq_compressBlocks (h : Vector Word 8) (bs : List Byte) (q : Nat) :
    compressed h bs q = compressBlocks h q bs := by
  induction q with
  | zero => rfl
  | succ q ih => rw [compressed, ih, compressBlocks_succ, shaBlock]

theorem absorb_eq_absorbed (hs : HashState) (x : List Byte) : absorb hs x = absorbed hs x := by
  apply HashState.ext'
  · rw [absorb_h, absorbed, compressed_eq_compressBlocks]
  · rw [absorb_buf, absorbed]
  · rw [absorb_bitlen, absorbed, BitVec.ofNat_add, BitVec.ofNat_toNat, BitVec.setWidth_eq]

/-- Cutting a string moves no block boundary: the whole blocks before the cut are compressed first, and the bytes kept stand
before those that follow. -/
theorem absorb_absorb (hs : HashState) (x y : List Byte) : absorb (absorb hs x) y = absorb hs (x ++ y) := by
  have hwhole : 64 * ((hs.buf.length + x.length) / 64) ≤ (hs.buf ++ x).length := by rw [List.length_append]; omega
  have hblocks : (hs.buf.length + (x ++ y).length) / 64 =
      (hs.buf.length + x.length) / 64 + ((hs.buf.length + x.length) % 64 + y.length) / 64 := by
    rw [List.length_append]
    omega
  have hkept : (hs.buf ++ (x ++ y)).drop (64 * ((hs.buf.length + x.length) / 64)) = (absorb hs x).buf ++ y := by
    rw [absorb_buf, ← List.append_assoc, List.drop_append_of_le_length hwhole]
  apply HashState.ext'
  · rw [absorb_h, absorb_h hs (x ++ y), hblocks, compressBlocks_add, hkept, absorb_buf_length, absorb_h,
      ← List.append_assoc, compressBlocks_append _ _ _ y hwhole]
  · rw [absorb_buf, absorb_buf hs (x ++ y), hblocks, Nat.mul_add, ← List.drop_drop, hkept, absorb_buf_length]
  · rw [absorb_bitlen, absorb_bitlen, absorb_bitlen, List.length_append, Nat.mul_add, BitVec.ofNat_add, BitVec.add_assoc]

/-! ### The digest (43 R346) -/

theorem digestTail_eq_finalString (hs : HashState) : digestTail hs = finalString hs := rfl

theorem digest_eq_digestWords (hs : HashState) : digest hs = wordsBytes (digestWords hs) := by
  rw [digest_eq, digestTail_eq_finalString, digestWords, compressed_eq_compressBlocks]

theorem bytesWords_digest_eq_digestWords (hs : HashState) : bytesWords (digest hs) = digestWords hs := by
  rw [digest_eq_digestWords, bytesWords_wordsBytes]

end Sys2Proof.Machine
end

section
/-! SUPPORT. SHA-256 (43 R343 to R370): its functions in the words of the statements, what SHA_INIT, an UPDATE command and
SHA_FINAL answer, and UPDATE commands one after the other. -/

namespace Sys2Proof.Proofs

open Sys2Proof Sys2Proof.Machine Sys2Proof.Claims

/-! ### The functions (43 R343 to R345) -/

/-- Settles O48: the first 16 words are the block's, and extending keeps them and obeys the recurrence. -/
theorem scheduleFollowsTheRecurrence : Obligations.ScheduleFollowsTheRecurrence := by
  intro m hm
  refine ⟨schedule_length m, fun t ht j hj => ?_, fun t => schedule_recurrence m t⟩
  rw [schedule_head m t ht, wordAt_byte (by omega) hj]

/-- Settles O49: the working variables v_t are those after the first t rounds. -/
theorem compressionRunsSixtyFourRounds : Obligations.CompressionRunsSixtyFourRounds := by
  intro h m _
  refine ⟨workingAfter h m, rfl, fun t ht => ?_, compress_of_shaRounds (shaRounds_eq_workingAfter h m)⟩
  rw [workingAfter_succ h m ht, shaRound]

/-- Settles O50: blocks, buffer and bit count of the two parts are those of the whole. -/
theorem absorbingDoesNotDependOnTheCut : Obligations.AbsorbingDoesNotDependOnTheCut := absorb_absorb

/-! ### The commands (43 R360 to R362, 44 R406) -/

theorem exec_shaInit (s : State) : exec .shaInit s = .next { s with
    busy := false, done := true, outLen := 0, hs := .init, hmode := .sha, opad := Vector.replicate 64 0 } := by
  have hplan : planOf .shaInit s =
      .ok ⟨[], true, { s with hs := .init, hmode := .sha, opad := Vector.replicate 64 0 }⟩ := rfl
  rw [exec_of_plan hplan (rangeOk_zero _ _) rfl, writeOut_nil]
  rfl

/-- i is an UPDATE command, and o the HMODE it asks for (60 R443 step 2). -/
def IsUpdate (i : Instr) (o : HMode) : Prop := (i = .shaUpdate ∧ o = .sha) ∨ (i = .hmacUpdate ∧ o = .hmac)

/-- The state after an UPDATE command without an error. -/
def updated (s : State) : State :=
  { s with busy := false, done := true, outLen := 0, hs := absorb s.hs (srcBytes s) }

section
variable {i : Instr} {o : HMode} (hi : IsUpdate i o)
include hi

theorem planOf_update (s : State) :
    planOf i s = updateChecks o s (.ok ⟨[], true, { s with hs := absorb s.hs (srcBytes s) }⟩) := by
  rcases hi with ⟨rfl, rfl⟩ | ⟨rfl, rfl⟩
  · rfl
  · rfl

theorem exec_update {s : State} (hmode : s.hmode = o) (hbits : s.hs.bitlen.toNat + 8 * srcN s ≤ 2 ^ 64 - 1)
    (hsrc : srcOk s = true) : exec i s = .next (updated s) := by
  have hplan := (planOf_update hi s).trans (updateChecks_ok.mpr ⟨hmode, hbits, hsrc, rfl⟩)
  rw [exec_of_plan hplan (rangeOk_zero _ _) rfl, writeOut_nil]
  rfl

theorem eq_updated_of_exec {s t : State} (h : exec i s = .next t) (ht : t.err = .ok) : t = updated s := by
  obtain ⟨q, hq, -, -, -, rfl⟩ := exec_ok_inv h ht
  rw [planOf_update hi, updateChecks_ok] at hq
  obtain ⟨-, -, -, hq⟩ := hq
  obtain rfl := Except.ok.inj hq
  rw [writeOut_nil]
  rfl

end

theorem planOf_shaFinal_ok_iff {s : State} {q : Plan} : planOf .shaFinal s = .ok q ↔
    s.hmode = .sha ∧ q = ⟨digest s.hs, true, { setDigest (digest s.hs) s with hs := .zero, hmode := .none }⟩ := by
  rw [planOf, planShaFinal, require_ok, beq_iff_eq, Except.ok.injEq, eq_comm (b := q)]

/-- Settles O51: neither command has an output, and what SHA_UPDATE absorbs is written out block by block. -/
theorem shaInitAndUpdateDriveTheContext : Obligations.ShaInitAndUpdateDriveTheContext := by
  intro s
  refine ⟨exec_shaInit s, fun hmode hbits hsrc => ?_⟩
  rw [exec_update (.inl ⟨rfl, rfl⟩) hmode hbits hsrc, updated, absorb_eq_absorbed]

/-- Settles O52: the bytes written are those of the words of the padded string's compression. -/
theorem shaFinalWritesTheDigest : Obligations.ShaFinalWritesTheDigest := by
  intro s hmode ⟨hbuf, _⟩ hdst
  refine ⟨digestTail_length hbuf, ?_⟩
  have hrange : rangeOk s.platform s.dstAddr.toNat (digest s.hs).length = true := by rwa [digest_length]
  have hexec := exec_of_plan (planOf_shaFinal_ok_iff.mpr ⟨hmode, rfl⟩) hrange rfl
  rw [setDigest, bytesWords_digest_eq_digestWords, digest_eq_digestWords] at hexec
  exact ⟨_, hexec⟩

/-! ### Chunk after chunk (43 R370) -/

/-- UPDATE commands without an error absorb the chunks joined; but for the completion flags, OUT_LEN and the source registers they
touch nothing else. -/
theorem eq_absorb_of_feed {i : Instr} {o : HMode} (hi : IsUpdate i o) {cs : List (Word × Word)} {s t : State}
    (hbuf : s.hs.buf.length < 64) (h : feed i cs s = some t) :
    ∃ busy done outLen srcAddr srcLen, t = { s with
      busy := busy, done := done, outLen := outLen, srcAddr := srcAddr, srcLen := srcLen
      hs := absorb s.hs (chunkBytes s.mem cs) } := by
  induction cs generalizing s with
  | nil =>
    obtain rfl := Option.some.inj h
    refine ⟨s.busy, s.done, s.outLen, s.srcAddr, s.srcLen, ?_⟩
    rw [chunkBytes, List.flatMap_nil, absorb_nil _ hbuf]
  | cons c cs ih =>
    rw [feed] at h
    split at h
    case h_1 v hexec =>
      split at h
      case isTrue hv =>
        obtain rfl := eq_updated_of_exec hi hexec hv
        obtain ⟨busy, done, outLen, srcAddr, srcLen, rfl⟩ := ih (absorb_buf_lt _ _) h
        refine ⟨busy, done, outLen, srcAddr, srcLen, ?_⟩
        rw [updated, absorb_absorb]
        rfl
      case isFalse => nomatch h
    case h_2 => nomatch h
    case h_3 => nomatch h

/-- Settles O53: the fresh context absorbs the chunks joined, and its digest is what SHA256 names. -/
theorem shaOfChunksIsShaOfTheWhole : Obligations.ShaOfChunksIsShaOfTheWhole := by
  intro s s₀ t u cs hwf _ hinit hfeed hfinal hu
  obtain rfl := Host.Outcome.next.inj ((exec_shaInit s).symm.trans hinit)
  have hfresh : HashState.init.buf.length < 64 := by decide
  obtain ⟨_, _, _, _, _, rfl⟩ := eq_absorb_of_feed (.inl ⟨rfl, rfl⟩) hfresh hfeed
  obtain ⟨q, hq, -, -, -, rfl⟩ := exec_ok_inv hfinal hu
  obtain ⟨-, rfl⟩ := planOf_shaFinal_ok_iff.mp hq
  refine ⟨?_, wordsBytes_bytesWords (sha256_length _), ?_, rfl⟩
  · have hstored := memRead_memWrite_self hwf.1 s.dstAddr.toNat (sha256 (chunkBytes s.mem cs))
    rwa [sha256_length] at hstored
  · rw [finish_outLen, writeOut_outLen, digest_length]
    rfl

end Sys2Proof.Proofs
end

section
/-! SUPPORT. HMAC over SHA-256 (44 R400 to R412): a byte of an xor, the key block, and the tag of a context. -/

namespace Sys2Proof.Machine

open Sys2Proof.Claims

theorem xorBytes_getD {x s : List Byte} {j : Nat} (hx : j < x.length) (hs : j < s.length) :
    (xorBytes x s).getD j 0 = x.getD j 0 ^^^ s.getD j 0 := by
  have hj : j < (xorBytes x s).length := by rw [xorBytes_length]; omega
  rw [List.getD_eq_getElem _ _ hj, List.getD_eq_getElem _ _ hx, List.getD_eq_getElem _ _ hs]
  exact List.getElem_zipWith

/-- Byte j of K0 xored with a constant byte (44 R400). -/
theorem xorBytes_hmacK0_getD (key : List Byte) (b : Byte) {j : Nat} (hj : j < 64) :
    (xorBytes (hmacK0 key) (List.replicate 64 b)).getD j 0 = (hmacK0 key).getD j 0 ^^^ b := by
  rw [xorBytes_getD (by rwa [hmacK0_length]) (by rwa [List.length_replicate]), List.getD_replicate _ hj]

/-- K0 of a key that fits a block is the key padded with zeros (44 R400). -/
theorem hmacK0_of_length_le {key : List Byte} (h : key.length ≤ 64) : hmacK0 key = key ++ zeros (64 - key.length) := by
  simp only [hmacK0, if_neg (not_lt.mpr h)]

/-- K0 of a key longer than a block is its hash padded with zeros (44 R400). -/
theorem hmacK0_of_lt_length {key : List Byte} (h : 64 < key.length) : hmacK0 key = sha256 key ++ zeros 32 := by
  simp only [hmacK0, if_pos h, sha256_length]

theorem hmacResult_eq_digestWords (s : State) :
    hmacResult s = sha256 (s.opad.toList ++ wordsBytes (digestWords s.hs)) := by
  rw [hmacResult, digest_eq_digestWords]

/-- The tag of a context that keeps OPADK and has absorbed IPAD and then x is HMAC of x (44 R401, R408). -/
theorem hmacResult_eq_hmac {s : State} {key x : List Byte} (hopad : s.opad = toPad64 (hmacOpad key))
    (hhs : s.hs = absorb (absorb .init (hmacIpad key)) x) : hmacResult s = hmac key x := by
  rw [hmacResult, hopad, toPad64_toList (hmacOpad_length key), hhs, absorb_absorb]
  rfl

end Sys2Proof.Machine
end

section
/-! SUPPORT. The HMAC commands (44 R400 to R412): the key block in the words of the statements, what each command answers, and a
whole sequence of them. -/

namespace Sys2Proof.Proofs

open Sys2Proof Sys2Proof.Machine Sys2Proof.Claims

/-- Settles O54: the two cases of K0, and a byte of its xor with a constant. -/
theorem hmacKeyIsPreprocessed : Obligations.HmacKeyIsPreprocessed := by
  intro key
  refine ⟨hmacK0_of_length_le, hmacK0_of_lt_length, hmacK0_length key, fun j hj => ⟨?_, ?_⟩,
    hmacIpad_length key, hmacOpad_length key⟩
  · exact xorBytes_hmacK0_getD key 0x36 hj
  · exact xorBytes_hmacK0_getD key 0x5c hj

/-! ### The commands (44 R405 to R410) -/

/-- The state after HMAC_INIT without an error. -/
def hmacStarted (s : State) : State :=
  { s with
    busy := false, done := true, outLen := 0, hmode := .hmac
    hs := absorb .init (hmacIpad (srcBytes s)), opad := toPad64 (hmacOpad (srcBytes s)) }

/-- The state after HMAC_VERIFY without an error. -/
def hmacVerified (s : State) : State :=
  { s with
    busy := false, done := true, outLen := 0, verifyOk := tagEqual (hmacResult s) (srcBytes s)
    hs := .zero, opad := Vector.replicate 64 0, hmode := .none }

theorem planOf_hmacInit_ok_iff {s : State} {q : Plan} : planOf .hmacInit s = .ok q ↔
    srcOk s = true ∧ q = ⟨[], true, { s with
      hs := absorb .init (hmacIpad (srcBytes s)), opad := toPad64 (hmacOpad (srcBytes s)), hmode := .hmac }⟩ := by
  rw [planOf, planHmacInit, require_ok, Except.ok.injEq, eq_comm (b := q)]

theorem planOf_hmacFinal_ok_iff {s : State} {q : Plan} : planOf .hmacFinal s = .ok q ↔
    s.hmode = .hmac ∧ q = ⟨hmacResult s, true, endHash (setDigest (hmacResult s) s)⟩ := by
  rw [planOf, planHmacFinal, require_ok, beq_iff_eq, Except.ok.injEq, eq_comm (b := q)]

theorem planOf_hmacVerify_ok_iff {s : State} {q : Plan} : planOf .hmacVerify s = .ok q ↔
    s.hmode = .hmac ∧ srcN s = 32 ∧ srcOk s = true ∧
      q = ⟨[], true, endHash { s with verifyOk := tagEqual (hmacResult s) (srcBytes s) }⟩ := by
  rw [planOf, planHmacVerify, require_ok, require_ok, require_ok, beq_iff_eq, beq_iff_eq, Except.ok.injEq, eq_comm (b := q)]

theorem exec_hmacInit {s : State} (hsrc : srcOk s = true) : exec .hmacInit s = .next (hmacStarted s) := by
  rw [exec_of_plan (planOf_hmacInit_ok_iff.mpr ⟨hsrc, rfl⟩) (rangeOk_zero _ _) rfl, writeOut_nil]
  rfl

theorem eq_hmacStarted_of_exec {s t : State} (h : exec .hmacInit s = .next t) (ht : t.err = .ok) : t = hmacStarted s := by
  obtain ⟨q, hq, -⟩ := exec_ok_inv h ht
  obtain ⟨hsrc, -⟩ := planOf_hmacInit_ok_iff.mp hq
  exact Host.Outcome.next.inj (h.symm.trans (exec_hmacInit hsrc))

theorem exec_hmacVerify {s : State} (hmode : s.hmode = .hmac) (hlen : srcN s = 32) (hsrc : srcOk s = true) :
    exec .hmacVerify s = .next (hmacVerified s) := by
  rw [exec_of_plan (planOf_hmacVerify_ok_iff.mpr ⟨hmode, hlen, hsrc, rfl⟩) (rangeOk_zero _ _) rfl, writeOut_nil]
  rfl

theorem eq_hmacVerified_of_exec {s t : State} (h : exec .hmacVerify s = .next t) (ht : t.err = .ok) :
    t = hmacVerified s := by
  obtain ⟨q, hq, -⟩ := exec_ok_inv h ht
  obtain ⟨hmode, hlen, hsrc, -⟩ := planOf_hmacVerify_ok_iff.mp hq
  exact Host.Outcome.next.inj (h.symm.trans (exec_hmacVerify hmode hlen hsrc))

/-- HMAC_VERIFY's verdict is equality: both strings have 32 bytes (42 R308). -/
theorem hmacVerified_verifyOk_iff {s : State} (hlen : srcN s = 32) :
    (hmacVerified s).verifyOk = true ↔ srcBytes s = hmacResult s := by
  have hsame : (hmacResult s).length = (srcBytes s).length := by rw [hmacResult_length, srcBytes_length, hlen]
  exact (tagEqual_iff hsame).trans eq_comm

/-- Settles O55: IPAD is one whole block, and what HMAC_UPDATE absorbs is written out block by block. -/
theorem hmacInitAndUpdateDriveTheContext : Obligations.HmacInitAndUpdateDriveTheContext := by
  intro s hsrc
  refine ⟨⟨toPad64 (hmacOpad (srcBytes s)), toPad64_toList (hmacOpad_length _), ?_⟩, fun hmode hbits => ?_⟩
  · rw [exec_hmacInit hsrc, hmacStarted, absorb_init_whole (hmacIpad_length _)]
  · rw [exec_update (.inr ⟨rfl, rfl⟩) hmode hbits hsrc, updated, absorb_eq_absorbed]

/-- Settles O56: the words put into DIGEST have the tag's bytes, which are what is written. -/
theorem hmacFinalWritesTheTag : Obligations.HmacFinalWritesTheTag := by
  intro s hmode hdst
  have hbytes : wordsBytes (bytesWords (hmacResult s)) = hmacResult s := wordsBytes_bytesWords (hmacResult_length s)
  have hrange : rangeOk s.platform s.dstAddr.toNat (hmacResult s).length = true := by rwa [hmacResult_length]
  refine ⟨bytesWords (hmacResult s), hbytes.trans (hmacResult_eq_digestWords s), ?_⟩
  rw [hbytes]
  exact ⟨_, exec_of_plan (planOf_hmacFinal_ok_iff.mpr ⟨hmode, rfl⟩) hrange rfl⟩

/-- Settles O57: the comparison of the tag with the 32 bytes at SRC is equality. -/
theorem hmacVerifyComparesTheTag : Obligations.HmacVerifyComparesTheTag := by
  intro s hmode hlen hsrc
  refine ⟨hmacVerified s, exec_hmacVerify hmode hlen hsrc, ?_, rfl⟩
  rw [hmacVerified_verifyOk_iff hlen, hmacResult_eq_digestWords]

/-! ### A whole sequence (44 R412) -/

/-- Settles O58: the context has absorbed IPAD and the chunks joined, and keeps OPADK, so its tag is HMAC. -/
theorem hmacSequenceComputesHmac : Obligations.HmacSequenceComputesHmac := by
  intro s s₀ t cs hwf _ hinit hs₀ hfeed
  obtain rfl := eq_hmacStarted_of_exec hinit hs₀
  obtain ⟨_, _, _, _, _, rfl⟩ := eq_absorb_of_feed (.inr ⟨rfl, rfl⟩) (absorb_buf_lt _ _) hfeed
  refine ⟨fun u hfinal hu => ?_, fun u a hverify hu => ?_⟩
  · obtain ⟨q, hq, -, -, -, rfl⟩ := exec_ok_inv hfinal hu
    obtain ⟨-, rfl⟩ := planOf_hmacFinal_ok_iff.mp hq
    rw [hmacResult_eq_hmac rfl rfl]
    have hstored := memRead_memWrite_self hwf.1 s.dstAddr.toNat (hmac (srcBytes s) (chunkBytes s.mem cs))
    rwa [hmac_length] at hstored
  · obtain rfl := eq_hmacVerified_of_exec hverify hu
    rw [hmacVerified_verifyOk_iff rfl, hmacResult_eq_hmac rfl rfl]
    rfl

end Sys2Proof.Proofs
end

section
/-! SUPPORT. Errors and the interrupt (60 R440 to R461): the check order read off the plan of every command,
the turns that are not a completion, what a register read can depend on, and the level of IRQ. -/

namespace Sys2Proof.Proofs

open Sys2Proof Sys2Proof.Machine Sys2Proof.Claims

/-! ### Steps that never fail (60 R443) -/

theorem not_sequenceFails_of_opNumber_le {i : Instr} (hi : opNumber i ≤ 0x20) (s : State) : ¬ sequenceFails i s := by
  rintro (⟨rfl | rfl, -⟩ | ⟨rfl | rfl | rfl, -⟩)
  all_goals exact absurd hi (by decide)

theorem not_nonceFails_of_opNumber_le {i : Instr} (hi : opNumber i ≤ 0x0A) (s : State) : ¬ nonceFails i s := by
  rintro ⟨rfl | rfl, -⟩
  all_goals exact absurd hi (by decide)

theorem not_paddingFails_of_lt_opNumber {i : Instr} (hi : 0x0A < opNumber i) (s : State) : ¬ paddingFails i s := by
  rintro (⟨rfl, -⟩ | ⟨rfl, -⟩)
  all_goals exact absurd hi (by decide)

theorem not_ivFails_of_lt_opNumber {i : Instr} (hi : 0x0A < opNumber i) (s : State) : ¬ ivFails i s :=
  fun ⟨_, hle, _⟩ => hi.not_ge hle

/-! ### Step 8 against what a command strips (40 R183) -/

/-- A string of whole blocks that ends in no padding is not unpadded, the empty one included. -/
theorem unpad_of_whole_of_not_endsInPad {m : List Byte} (hm : m.length % 16 = 0) (h : ∀ p, ¬ endsInPad m p) :
    unpad m = none := by
  by_cases hnil : m = []
  · rw [hnil]
    rfl
  · have hpos : 0 < m.length := List.length_pos_iff.mpr hnil
    exact unpad_of_not_endsInPad (by omega) h

theorem unpadIf_of_paddingFails {i : Instr} {s : State} (h : paddingFails i s) :
    unpadIf (stripsPadding i) (modeTransform i (cipherE s) (cipherD s) (ivBlock s) (srcBytes s)).1 = none := by
  rcases h with ⟨rfl, h⟩ | ⟨rfl, h⟩
  · have hwhole : (ecb (cipherD s) (blocks (srcBytes s))).length % 16 = 0 := by rw [ecb_length, Nat.mul_mod_right]
    exact unpad_of_whole_of_not_endsInPad hwhole h
  · have hwhole : (cbcDecrypt (cipherD s) (ivBlock s) (blocks (srcBytes s))).1.length % 16 = 0 := by
      rw [cbcDecrypt_length, Nat.mul_mod_right]
    exact unpad_of_whole_of_not_endsInPad hwhole h

/-! ### The plan of every command as the steps 2 to 8 (60 R443) -/

section
open scoped Classical

/-- The steps 2 to 8 in their order, each with its condition on the state, and behind them the plan q. -/
noncomputable def checkedPlan (i : Instr) (s : State) (q : Plan) : Except ErrCode Plan :=
  if sequenceFails i s then .error .sequenceError
  else if keyFails i s then .error .invalidKeyLength
  else if ivFails i s then .error .missingIv
  else if nonceFails i s then .error .invalidNonceOrIvLength
  else if lengthFails i s then .error .invalidLength
  else if inputFails i s then .error .busError
  else if paddingFails i s then .error .invalidPadding
  else .ok q

/-- A check of the model is the step whose condition says that it fails. -/
theorem require_eq_ite {ok : Bool} {p : Prop} [Decidable p] {e : ErrCode} {k k' : Except ErrCode Plan}
    (h : p ↔ ok = false) (hk : k = k') : require ok e k = if p then .error e else k' := by
  cases ok <;> simp [h, hk]

theorem keyFails_iff {i : Instr} (hi : opNumber i ≤ 0x11) (s : State) : keyFails i s ↔ keyOk s = false := by
  rw [keyFails, and_iff_right hi, ← Bool.not_eq_true, keyOk_iff, not_not]

/-- Stripping is step 8: it fails where the padding does, and goes on to a plan elsewhere. -/
theorem exists_unpadded_eq_ite (i : Instr) (s a : State) :
    ∃ q, unpadded a (unpadIf (stripsPadding i) (modeTransform i (cipherE s) (cipherD s) (ivBlock s) (srcBytes s)).1) =
      if paddingFails i s then .error .invalidPadding else .ok q := by
  by_cases h : paddingFails i s
  · exact ⟨⟨[], true, a⟩, by rw [if_pos h, unpadIf_of_paddingFails h]; rfl⟩
  · obtain ⟨out, hout⟩ := exists_unpadIf_of_not_paddingFails h
    exact ⟨⟨out, true, a⟩, by rw [if_neg h, hout]; rfl⟩

/-- The mode commands make no check at the steps 2 and 5. -/
theorem exists_checkedPlan_of_mode {c : Bool → Instr} (hc : c ∈ modeCommands) (f : Bool) (s : State) :
    ∃ q, planOf (c f) s = checkedPlan (c f) s q := by
  have hop : opNumber (c f) ≤ 0x0A := opNumber_le_of_mode hc f
  obtain ⟨q, hq⟩ := exists_unpadded_eq_ite (c f) s
    (setIv (modeTransform (c f) (cipherE s) (cipherD s) (ivBlock s) (srcBytes s)).2 s)
  refine ⟨q, ?_⟩
  rw [planOf_mode hc, hq, checkedPlan, if_neg (not_sequenceFails_of_opNumber_le (hop.trans (by decide)) s),
    if_neg (not_nonceFails_of_opNumber_le hop s)]
  refine require_eq_ite (keyFails_iff (hop.trans (by decide)) s) (require_eq_ite ?_ ?_)
  · simp [ivFails_of_mode_iff hc]
  · exact require_eq_ite (lengthFails_of_mode_iff hc f s)
      (require_eq_ite (inputFails_iff_of_source (inRanges_of_mode hc f s)) rfl)

/-- The GCM commands make no check at the steps 2, 4 and 8. -/
theorem gcmChecks_eq_checkedPlan {i : Instr} (hi : i = .gcmEnc ∨ i = .gcmDec) {s : State} {l : Bool}
    (hl : lengthFails i s ↔ l = false) (q : Plan) : gcmChecks l s (.ok q) = checkedPlan i s q := by
  obtain ⟨hlo, hhi⟩ : 0x0A < opNumber i ∧ opNumber i ≤ 0x11 := by rcases hi with rfl | rfl <;> decide
  rw [checkedPlan, if_neg (not_sequenceFails_of_opNumber_le (hhi.trans (by decide)) s),
    if_neg (not_ivFails_of_lt_opNumber hlo s), if_neg (not_paddingFails_of_lt_opNumber hlo s)]
  refine require_eq_ite (keyFails_iff hhi s) (require_eq_ite ?_ (require_eq_ite hl (require_eq_ite ?_ rfl)))
  · simp [nonceFails, hi]
  · rw [inputFails_of_gcm_iff hi, Bool.and_eq_false_iff, Bool.and_eq_false_iff, or_assoc]

/-- The hash and HMAC commands and CLEAR make no check at the steps 3, 4, 5 and 8. -/
theorem checkedPlan_of_hash {i : Instr} (hi : 0x20 ≤ opNumber i) (s : State) (q : Plan) :
    checkedPlan i s q =
      if sequenceFails i s then .error .sequenceError
      else if lengthFails i s then .error .invalidLength
      else if inputFails i s then .error .busError
      else .ok q := by
  have hkey : ¬ keyFails i s := fun ⟨hle, _⟩ => absurd (hi.trans hle) (by decide)
  have hnonce : ¬ nonceFails i s := by rintro ⟨rfl | rfl, -⟩ <;> exact absurd hi (by decide)
  have hlo : 0x0A < opNumber i := lt_of_lt_of_le (by decide) hi
  rw [checkedPlan, if_neg hkey, if_neg (not_ivFails_of_lt_opNumber hlo s), if_neg hnonce,
    if_neg (not_paddingFails_of_lt_opNumber hlo s)]

/-- SHA_INIT and CLEAR make no check at all. -/
theorem checkedPlan_of_unchecked {i : Instr} (hi : i = .shaInit ∨ i = .clear) (s : State) (q : Plan) :
    checkedPlan i s q = .ok q := by
  have hop : 0x20 ≤ opNumber i := by rcases hi with rfl | rfl <;> decide
  rcases hi with rfl | rfl
  all_goals simp [checkedPlan_of_hash hop, sequenceFails, lengthFails, inputFails, inRanges]

/-- SHA_FINAL and HMAC_FINAL check the owner of the context only. -/
theorem finalChecks_eq_checkedPlan {i : Instr} {o : HMode}
    (hi : (i = .shaFinal ∧ o = .sha) ∨ (i = .hmacFinal ∧ o = .hmac)) (s : State) (q : Plan) :
    require (s.hmode == o) .sequenceError (.ok q) = checkedPlan i s q := by
  rcases hi with ⟨rfl, rfl⟩ | ⟨rfl, rfl⟩
  all_goals
    rw [checkedPlan_of_hash (by decide)]
    exact require_eq_ite (by simp [sequenceFails]) (by simp [lengthFails, inputFails, inRanges])

theorem updateChecks_eq_checkedPlan {i : Instr} {o : HMode} (hi : IsUpdate i o) (s : State) (q : Plan) :
    updateChecks o s (.ok q) = checkedPlan i s q := by
  rcases hi with ⟨rfl, rfl⟩ | ⟨rfl, rfl⟩
  all_goals
    rw [checkedPlan_of_hash (by decide)]
    refine require_eq_ite ?_ (require_eq_ite ?_ (require_eq_ite (inputFails_iff_of_source rfl) rfl))
    · simp [sequenceFails]
    · exact (decide_eq_false_iff_not.trans not_le).symm

theorem hmacInitChecks_eq_checkedPlan (s : State) (q : Plan) :
    require (srcOk s) .busError (.ok q) = checkedPlan .hmacInit s q := by
  rw [checkedPlan_of_hash (by decide), if_neg (by simp [sequenceFails]), if_neg (show ¬ lengthFails .hmacInit s from id)]
  exact require_eq_ite (inputFails_iff_of_source rfl) rfl

theorem hmacVerifyChecks_eq_checkedPlan (s : State) (q : Plan) :
    require (s.hmode == .hmac) .sequenceError
      (require (srcN s == 32) .invalidLength (require (srcOk s) .busError (.ok q))) = checkedPlan .hmacVerify s q := by
  rw [checkedPlan_of_hash (by decide)]
  refine require_eq_ite ?_ (require_eq_ite ?_ (require_eq_ite (inputFails_iff_of_source rfl) rfl))
  · simp [sequenceFails]
  · exact beq_eq_false_iff_ne.symm

/-- Every command's plan makes the checks of the steps 2 to 8 in their order. -/
theorem exists_checkedPlan (i : Instr) (s : State) : ∃ q, planOf i s = checkedPlan i s q := by
  cases i with
  | gcmEnc => exact ⟨_, gcmChecks_eq_checkedPlan (.inl rfl) (not_le.symm.trans decide_eq_false_iff_not.symm) _⟩
  | gcmDec => exact ⟨_, gcmChecks_eq_checkedPlan (.inr rfl) (not_le.symm.trans decide_eq_false_iff_not.symm) _⟩
  | shaUpdate => exact ⟨_, updateChecks_eq_checkedPlan (.inl ⟨rfl, rfl⟩) s _⟩
  | hmacUpdate => exact ⟨_, updateChecks_eq_checkedPlan (.inr ⟨rfl, rfl⟩) s _⟩
  | shaInit => exact ⟨_, (checkedPlan_of_unchecked (.inl rfl) s _).symm⟩
  | clear => exact ⟨_, (checkedPlan_of_unchecked (.inr rfl) s _).symm⟩
  | shaFinal => exact ⟨_, finalChecks_eq_checkedPlan (.inl ⟨rfl, rfl⟩) s _⟩
  | hmacFinal => exact ⟨_, finalChecks_eq_checkedPlan (.inr ⟨rfl, rfl⟩) s _⟩
  | hmacInit => exact ⟨_, hmacInitChecks_eq_checkedPlan s _⟩
  | hmacVerify => exact ⟨_, hmacVerifyChecks_eq_checkedPlan s _⟩
  | _ f => exact exists_checkedPlan_of_mode (by simp [modeCommands]) f s

end

/-! ### The steps 1, 9 and 10 (60 R443) -/

theorem completion_illegal {s : State} {e : Illegal} (he : decode s.cmdLatch = .error e) :
    completion s = .next (raised .illegalCommand s) := by
  simp only [completion, fetchWord, he]
  rfl

theorem exec_raised_of_error {i : Instr} {s : State} {e : ErrCode} (h : planOf i s = .error e) :
    exec i s = .next (raised e s) := exec_of_error h

theorem exec_of_outputFails {i : Instr} {s : State} {q : Plan} (hq : planOf i s = .ok q) (h : outputFails i s) :
    exec i s = .next (raised .busError s) := by
  rw [outputFails, ← planOf_length hq] at h
  rw [exec_next, hq, conclude, h]
  rfl

/-- A plan of GCM_DEC has passed the checks that make it ready, and there the verdict on the tags is known. -/
theorem exec_of_tagFails {i : Instr} {s : State} {q : Plan} (hq : planOf i s = .ok q) (hout : ¬ outputFails i s)
    (h : tagFails i s) : exec i s = .next (raised .authenticationError s) := by
  obtain ⟨rfl, htag⟩ := h
  obtain ⟨hready, hlen, -⟩ := gcmChecks_ok_iff_gcmReady.mp hq
  exact exec_gcmDec_of_tag_ne hready (of_decide_eq_true hlen) ((Bool.not_eq_false _).mp hout) htag

/-- Settles O25: the plan makes the checks 2 to 8 in their order, and its completion the checks 9 and 10. -/
theorem checksAreTriedInOrder : Obligations.ChecksAreTriedInOrder := by
  intro i s
  obtain ⟨q, hq⟩ := exists_checkedPlan i s
  rw [checkedPlan] at hq
  refine ⟨fun e he => completion_illegal he, fun h2 => ?_, fun h2 h3 => ?_, fun h2 h3 h4 => ?_, fun h2 h3 h4 h5 => ?_,
    fun h2 h3 h4 h5 h6 => ?_, fun h2 h3 h4 h5 h6 h7 => ?_, fun h2 h3 h4 h5 h6 h7 h8 => ?_,
    fun h2 h3 h4 h5 h6 h7 h8 h9 => ?_, fun h2 h3 h4 h5 h6 h7 h8 h9 h10 => ?_, fun p a n => rangeOk_iff⟩
  · exact exec_raised_of_error (by rw [hq, if_pos h2])
  · exact exec_raised_of_error (by rw [hq, if_neg h2, if_pos h3])
  · exact exec_raised_of_error (by rw [hq, if_neg h2, if_neg h3, if_pos h4])
  · exact exec_raised_of_error (by rw [hq, if_neg h2, if_neg h3, if_neg h4, if_pos h5])
  · exact exec_raised_of_error (by rw [hq, if_neg h2, if_neg h3, if_neg h4, if_neg h5, if_pos h6])
  · exact exec_raised_of_error (by rw [hq, if_neg h2, if_neg h3, if_neg h4, if_neg h5, if_neg h6, if_pos h7])
  · exact exec_raised_of_error (by rw [hq, if_neg h2, if_neg h3, if_neg h4, if_neg h5, if_neg h6, if_neg h7, if_pos h8])
  all_goals
    rw [if_neg h2, if_neg h3, if_neg h4, if_neg h5, if_neg h6, if_neg h7, if_neg h8] at hq
  · exact exec_of_outputFails hq h9
  · exact exec_of_tagFails hq h9 h10

/-! ### The turns that are listed (60 R461, 93 U20) -/

theorem engineTurn_idle {s : State} (hb : s.busy = false) : engineTurn s = .next s := by
  rw [engineTurn, hb]
  rfl

theorem step_of_inputs_host {s : State} {a : HostAction} {rest : List Input} (h : s.inputs = .host a :: rest) :
    step s = hostAct a { s with inputs := rest } := by
  simp only [step, turn, h]

theorem step_of_inputs_reset {s : State} {rest : List Input} (h : s.inputs = .reset :: rest) :
    step s = .next (hardReset { s with inputs := rest }) := by
  simp only [step, turn, h]

/-- Settles O6: the head of the schedule names the turn, and the engine's is a stutter while BUSY = 0. -/
theorem stepTakesTheTurnThatIsListed : Obligations.StepTakesTheTurnThatIsListed := fun s =>
  ⟨fun hb hin => (step_of_inputs_nil hin).trans (engineTurn_idle hb),
    fun rest hb hin => (step_of_inputs_engine hin).trans (engineTurn_idle (s := { s with inputs := rest }) hb),
    fun _ _ hin => step_of_inputs_host hin, fun _ hin => step_of_inputs_reset hin⟩

/-! ### Register reads and the secrets (60 R455) -/

/-- The state with another key, HS and OPAD. -/
def withSecrets (k : Vector Word 8) (h : HashState) (o : Vector Byte 64) (s : State) : State :=
  { s with key := k, hs := h, opad := o }

section
variable (k : Vector Word 8) (h : HashState) (o : Vector Byte 64)

theorem regValue_withSecrets (r : Reg) (s : State) : regValue r (withSecrets k h o s) = regValue r s := by
  cases r <;> rfl

theorem showsCompletion_withSecrets (r : Reg) (s : State) :
    showsCompletion r (withSecrets k h o s) = showsCompletion r s := by
  cases r <;> rfl

/-- Neither what a read records nor what it shows of the completion depends on the secrets. -/
theorem readReg_withSecrets (r : Reg) (s : State) :
    readReg r (withSecrets k h o s) = withSecrets k h o (readReg r s) := by
  rw [readReg, regValue_withSecrets, showsCompletion_withSecrets, readReg, apply_ite (withSecrets k h o)]
  rfl

end

/-- Settles O18: an access that is a read at all is a read of the register, which does not see the secrets. -/
theorem registerReadsRevealNoSecret : Obligations.RegisterReadsRevealNoSecret := by
  intro s t width off k h o hread
  -- Of the kinds of action, only the register read is this one.
  rcases hostAct_cases hread with ⟨_, _, ha, -⟩ | ⟨_, ha, h4, hlt, rfl⟩ | ⟨_, _, ha, -⟩ | ⟨_, _, ha, -⟩ | ⟨ha, -⟩ |
    ⟨ha, -⟩ <;> cases ha
  rw [hostAct_regRead h4 hlt]
  exact congrArg Host.Outcome.next (readReg_withSecrets k h o _ s)

/-! ### The level of IRQ (60 R450) -/

theorem irq_acknowledge (v : Word) (s : State) : irq (acknowledge v s) = (irq s && !v.getLsbD 0) :=
  (Bool.and_assoc _ _ _).symm

/-- Settles O20: a completion sets DONE and leaves IRQ_EN, a launch clears DONE, and so does the acknowledgement of DONE. -/
theorem interruptFollowsDone : Obligations.InterruptFollowsDone := by
  refine ⟨fun s => rfl, fun i s => ?_, fun s w => ?_, fun s v => ?_, fun s b => rfl⟩
  · obtain ⟨⟨-, hirqEn, -⟩, -⟩ := commandsKeepTheirFrame i s _ (exec_next i s)
    refine ⟨_, exec_next i s, rfl, ?_⟩
    rw [irq, hirqEn]
    exact Bool.and_true _
  · exact Bool.and_false _
  · exact ⟨acknowledge v s, hostAct_regWrite_offset (r := .irqStatus) (by decide) v s, irq_acknowledge v s⟩

end Sys2Proof.Proofs
end

section
/-! SUPPORT. Reset (70 R490, R491): what every register reads after it, and the level of IRQ. -/

namespace Sys2Proof.Proofs

open Sys2Proof Sys2Proof.Machine Sys2Proof.Claims

/-- After reset every register but ID reads 0 (70 R490). -/
theorem regValue_hardReset (r : Reg) (s : State) : regValue r (hardReset s) = if r = .id then idWord else 0 := by
  cases r with
  | ctrl => simp [regValue, ctrlWord]
  | status => simp [regValue, statusWord, ivValid, ErrCode.code, HMode.code]
  | irqStatus => simp [regValue, irqStatusWord]
  | iv k | digest k => simp [regValue, Vector.get_eq_getElem]
  | _ => rfl

theorem irq_hardReset (s : State) : irq (hardReset s) = false := rfl

/-- Settles O7: the step is the reset; its registers read as `regValue_hardReset` says, and the laws of `hardReset` give the
fields that no register shows, and memory. -/
theorem resetGivesEveryRegisterItsResetValue : Obligations.ResetGivesEveryRegisterItsResetValue := by
  intro s rest hin
  refine ⟨hardReset { s with inputs := rest }, step_of_inputs_reset hin, ?_⟩
  simp [regValue_hardReset, idWord, HashState.zero, irq_hardReset]

end Sys2Proof.Proofs
end
